-- ==== Sys2Proof/Word.lean ====
section
/-! DEFINITION. The plain data types of the codec block: bit strings, code units, buffer entries, the width ladder,
the error kinds and the outcome of a function-level operation. -/

namespace Sys2Proof

/-- A bit string (00_scope.md R11): the head is `b[0]`, the bit emitted and parsed first. -/
abbrev Bits := List Bool

/-- A code unit 0 to 65535 on `in_data` or `out_data` (00_scope.md R16). -/
abbrev CodeUnit := BitVec 16

/-- One entry of the element buffer, 9 bits (10_state.md R42). -/
abbrev Entry := BitVec 9

/-- The width ladder: 4, 7 or 9 bits an element (00_scope.md R9, 40_width_select_header.md R101). -/
inductive Width where
  | w4
  | w7
  | w9
deriving DecidableEq, Repr

/-- The four values of the 2-bit width-code field (30_encoding.md R76): `00`, `01`, `10` and the reserved `11` (R78). -/
inductive WidthCode where
  | wc00
  | wc01
  | wc10
  | wc11
deriving DecidableEq, Repr

/-- The five error kinds of 60_exceptions.md R210. -/
inductive ErrKind where
  | rangeError
  | invalidCharacter
  | invalidWidthCode
  | lengthError
  | truncatedInput
deriving DecidableEq, Repr

/-- A function-level result (00_scope.md R14): `ok v`, or `err K info`. -/
inductive Result (α : Type) where
  | ok (v : α)
  | err (k : ErrKind) (info : CodeUnit)
deriving DecidableEq, Repr

/-- One beat of the input channel (30_encoding.md R83); `fin` is the port `in_end`. -/
structure InBeat where
  op : Bool
  fin : Bool
  data : CodeUnit
deriving DecidableEq, Repr

/-- One beat of the output channel (30_encoding.md R84); `fin` is the port `out_end`. -/
structure OutBeat where
  fin : Bool
  data : CodeUnit
  status : BitVec 3
deriving DecidableEq, Repr

end Sys2Proof
end

