-- ==== Sys2Proof/Config.lean ====
section
/-! DEFINITION. The parameters of the block: those the source fixes (00_scope.md R9) and those the spec decides (R10); and
the free values, which nothing constrains. No result of a command is open (44_commands.md R204): the free values stand only
where a unit is given operands outside those its rule names (log 11). -/

namespace Sys2Proof.Config

/-- Least valid element, `VMIN` (R9). -/
def vMin : Nat := 1
/-- Greatest valid element, `VMAX` (R9). -/
def vMax : Nat := 300
/-- `T0`: width 4 iff max < 10 (R9, R101: a decimal boundary, not 2^4). -/
def t0 : Nat := 10
/-- `T1`: width 7 iff 10 <= max < 100 (R9, R101: a decimal boundary, not 2^7). -/
def t1 : Nat := 100
/-- `LEN_SHORT_W` (R9). -/
def lenShortW : Nat := 6
/-- `LEN_LONG_W` (R9). -/
def lenLongW : Nat := 10
/-- `LEN_SPLIT`: length-flag 0 iff count < 64 (R9). -/
def lenSplit : Nat := 64
/-- `CNT_MAX`, the greatest count the header holds (R9). -/
def cntMax : Nat := 1023
/-- `CHUNK_W`, bits per symbol (R9). -/
def chunkW : Nat := 6
/-- `EBUF_DEPTH`, entries of the element buffer (R10, decision D6). -/
def ebufDepth : Nat := 1023
/-- `EMPTY_W`, the width of the empty sequence (R10, R102, decision D7; the model's EMPTY_POLICY is header_w4: log 15). -/
def emptyW : Width := .w4

/-! ## Free values (log 11) -/

/-- `bin_N(v)` for v >= 2^N, which R12 leaves without a value: reached by EMIT and PACK with an element wider than `w`. -/
opaque binUnstated : Nat → Nat → Bits
/-- `HDR(n, w)` for n >= 1024, "only defined for 0 <= n <= 1023" (R107): reached by PACK with 1024 elements or more. -/
opaque hdrUnstated : Nat → Width → Bits
/-- `CHUNK(b)` for a length that is no multiple of 6 (R140). -/
opaque chunkUnstated : Bits → List Bits
/-- `SYMBOLS(b)` for a length that is no multiple of 6 (R143). -/
opaque symbolsUnstated : Bits → List CodeUnit

end Sys2Proof.Config
end

