-- ==== Sys2Proof/Machine/Operands.lean ====
section
/-! DEFINITION. Operand forms: how numbers, fields and registers are turned into one another. Every numeral of the block
is unsigned and most significant bit first (00_scope.md R12, 20_memory.md R50); nothing is sign-extended. -/

namespace Sys2Proof.Machine

/-- `bin_N(v)` (R12): N bits, `bin_N(v)[i] = (v div 2^(N-1-i)) mod 2`. -/
def bin : Nat → Nat → Bits
  | 0, _ => []
  | n + 1, v => decide (v / 2 ^ n % 2 = 1) :: bin n v

/-- `val(b)` read on from the number `acc` of the bits before `b`. -/
def valFrom (acc : Nat) : Bits → Nat
  | [] => acc
  | x :: b => valFrom (2 * acc + x.toNat) b

/-- `val(b)` (R12): the unsigned value, 0 of the empty string. -/
def val (b : Bits) : Nat := valFrom 0 b

/-- `zeros(k)` (R11). -/
def zeros (k : Nat) : Bits := List.replicate k false

/-- The number of bits of a width of the ladder (R9). -/
def widthBits : Width → Nat
  | .w4 => 4
  | .w7 => 7
  | .w9 => 9

/-- The value of the register `WID` that holds a width (10_state.md R27). -/
def widthReg (w : Width) : BitVec 4 := BitVec.ofNat 4 (widthBits w)

/-- The width a value of the register `WID` stands for; 0 (not set yet) and the values off the ladder stand for none (R27). -/
def widthOfReg (r : BitVec 4) : Option Width :=
  if r = 4 then some .w4 else if r = 7 then some .w7 else if r = 9 then some .w9 else none

/-- A width-code field as the number of its two bits (30_encoding.md R76). -/
def wcNat : WidthCode → Nat
  | .wc00 => 0
  | .wc01 => 1
  | .wc10 => 2
  | .wc11 => 3

/-- The width-code field whose two bits have the value `c` (R76); the argument is `val` of two bits, so at most 3. -/
def wcOfNat : Nat → WidthCode
  | 0 => .wc00
  | 1 => .wc01
  | 2 => .wc10
  | _ => .wc11

/-- `zext_16` of a buffer entry (R13, R84). -/
def zext16 (v : Entry) : CodeUnit := v.zeroExtend 16

/-- `v[8:0]` of an `in_data` value (44_commands.md R185). -/
def low9 (v : CodeUnit) : Entry := v.truncate 9

/-- `SH'[8:0]` of the shift register (43_bit_unpacker.md R172). -/
def shLow9 (v : BitVec 10) : Entry := v.truncate 9

/-- `SH' = 2*SH + x`, in the 10 bits of `SH` (R172: "`SH` never overflows its 10 bits"). From a `SH` above 511, which never occurs,
the low 10 bits are kept (log 17, DESIGN CHOICE). -/
def shiftIn (sh : BitVec 10) (x : Bool) : BitVec 10 := BitVec.ofNat 10 (2 * sh.toNat + x.toNat)

/-- `1 <= v and v <= 300` on an `in_data` value (44_commands.md R185). -/
def inRange (v : CodeUnit) : Bool := decide (Config.vMin ≤ v.toNat) && decide (v.toNat ≤ Config.vMax)

/-- The status code of an error kind (10_state.md R36, 60_exceptions.md R210). -/
def errCode : ErrKind → BitVec 3
  | .rangeError => 1
  | .invalidCharacter => 2
  | .invalidWidthCode => 3
  | .lengthError => 4
  | .truncatedInput => 5

/-- The status code of success (R36). -/
def okCode : BitVec 3 := 0

end Sys2Proof.Machine
end

