-- ==== Sys2Proof/Machine/Functions.lean ====
section
/-! DEFINITION. The function level (00_scope.md R8): the unit functions of files 40 to 43 and the two commands as total
functions (44_commands.md R180, R190). They have no state; Machine/<Unit>.lean gives them as operations on the machine. -/

namespace Sys2Proof.Machine

/-! ## Header formatter (40_width_select_header.md) -/

/-- WSEL (R100). -/
def wsel (m : Nat) : Width :=
  if m < Config.t0 then .w4 else if m < Config.t1 then .w7 else .w9

/-- The maximum of a sequence, 0 of the empty one (R102). -/
def seqMax : List Nat → Nat
  | [] => 0
  | v :: rest => max v (seqMax rest)

/-- The width of a sequence: WSEL of its maximum, EMPTY_W if it is empty (R102, R180 step 3). -/
def seqWidth : List Nat → Width
  | [] => Config.emptyW
  | v :: rest => wsel (seqMax (v :: rest))

/-- WCODE as a width-code field (R103). -/
def wcOfWidth : Width → WidthCode
  | .w4 => .wc00
  | .w7 => .wc01
  | .w9 => .wc10

/-- WCODE as the 2-bit string (R103). -/
def wcode (w : Width) : Bits := bin 2 (wcNat (wcOfWidth w))

/-- LFLAG (R105). -/
def lflag (n : Nat) : Bool := decide (Config.lenSplit ≤ n)

/-- LENW (R106). -/
def lenw (f : Bool) : Nat := if f then Config.lenLongW else Config.lenShortW

/-- HDR (R108), used for counts up to 1023 only (R107). -/
def hdr (n : Nat) (w : Width) : Bits := lflag n :: (bin (lenw (lflag n)) n ++ wcode w)

/-- HLEN (R108): the length of the header. -/
def hlen (n : Nat) : Nat := if n < Config.lenSplit then 9 else 13

/-! ## Bit packer (41_bit_packer.md) -/

/-- An integer is a valid element, 1 to 300 (R120). -/
def validElem (v : Int) : Bool := decide ((Config.vMin : Int) ≤ v) && decide (v ≤ (Config.vMax : Int))

/-- RANGECHK (R120): RangeError if any element is outside 1..300, whichever it is (R122). -/
def rangechk (seq : List Int) : Result Unit :=
  if seq.all validElem then .ok () else .err .rangeError 0

/-- EMIT (R123). -/
def emit : List Nat → Width → Bits
  | [], _ => []
  | v :: rest, w => bin (widthBits w) v ++ emit rest w

/-- The padding length of a string of `len` bits (R125). -/
def padLen (len : Nat) : Nat := (6 - len % 6) % 6

/-- PAD (R125). -/
def pad (b : Bits) : Bits := b ++ zeros (padLen b.length)

/-- TOTBITS (R127). -/
def totbits (n : Nat) (w : Width) : Nat := hlen n + n * widthBits w

/-- PACK (R128). -/
def pack (seq : List Nat) (w : Width) : Bits := pad (hdr seq.length w ++ emit seq w)

/-! ## Symbol encoder and decoder (42_symbol_codec.md) -/

/-- CHUNK (R140), for a string whose length is a multiple of 6. -/
def chunk : Bits → List Bits
  | a :: b :: c :: d :: e :: f :: rest => [a, b, c, d, e, f] :: chunk rest
  | _ => []

/-- ALPHA (30_encoding.md R80): the code unit of each symbol, by index. -/
def alphabet : List CodeUnit :=
  [65, 66, 67, 68, 69, 70, 71, 72, 73, 74, 75, 76, 77, 78, 79, 80] ++
  [81, 82, 83, 84, 85, 86, 87, 88, 89, 90, 97, 98, 99, 100, 101, 102] ++
  [103, 104, 105, 106, 107, 108, 109, 110, 111, 112, 113, 114, 115, 116, 117, 118] ++
  [119, 120, 121, 122, 48, 49, 50, 51, 52, 53, 54, 55, 56, 57, 43, 47]

/-- SYMENC (R142): the code unit at an index 0..63 of the alphabet. -/
def symenc (i : Nat) : CodeUnit := alphabet.getD i 0

/-- SYMBOLS (R143). -/
def symbols (b : Bits) : List CodeUnit := (chunk b).map fun c => symenc (val c)

/-- SYMDEC (R145): the index of a code unit, none outside the alphabet; all 16 bits are compared (decision D5). -/
def symdec (c : CodeUnit) : Option Nat := alphabet.findIdx? (fun a => a == c)

/-- EXPAND (R147). -/
def expand (i : Nat) : Bits := bin 6 i

/-- UNCHUNK (R148): InvalidCharacter with the first bad code unit. -/
def unchunk : List CodeUnit → Result Bits
  | [] => .ok []
  | c :: rest =>
    match symdec c with
    | none => .err .invalidCharacter c
    | some i =>
      match unchunk rest with
      | .ok b => .ok (expand i ++ b)
      | .err k info => .err k info

/-! ## Bit unpacker (43_bit_unpacker.md) -/

/-- READ (R161): the value of `k` bits at the cursor and the new cursor, or TruncatedInput. -/
def read (b : Bits) (p k : Nat) : Result (Nat × Nat) :=
  if b.length < p + k then .err .truncatedInput 0 else .ok (val ((b.drop p).take k), p + k)

/-- WDEC (R162). -/
def wdec : WidthCode → Result Width
  | .wc00 => .ok .w4
  | .wc01 => .ok .w7
  | .wc10 => .ok .w9
  | .wc11 => .err .invalidWidthCode 0

/-- HPARSE (R164): count, width and the cursor after the header. -/
def hparse (b : Bits) : Result (Nat × Width × Nat) :=
  match read b 0 1 with
  | .err k i => .err k i
  | .ok (f, p) =>
    match read b p (lenw (decide (f = 1))) with
    | .err k i => .err k i
    | .ok (n, p) =>
      match read b p 2 with
      | .err k i => .err k i
      | .ok (c, p) =>
        match wdec (wcOfNat c) with
        | .err k i => .err k i
        | .ok w => .ok (n, w, p)

/-- ELEMS (R166): `n` elements of the width from the cursor `p`. -/
def elems (b : Bits) (p : Nat) (n : Nat) (w : Width) : Result (List Nat) :=
  match n with
  | 0 => .ok []
  | n + 1 =>
    match read b p (widthBits w) with
    | .err k i => .err k i
    | .ok (v, p') =>
      match elems b p' n w with
      | .err k i => .err k i
      | .ok vs => .ok (v :: vs)

/-- UNPACK (R168). -/
def unpack (b : Bits) : Result (List Nat) :=
  match hparse b with
  | .err k i => .err k i
  | .ok (n, w, p) => elems b p n w

/-! ## The two commands (44_commands.md) -/

/-- `encode` (R180): RangeError before LengthError (60_exceptions.md R216). -/
def encodeFn (seq : List Int) : Result (List CodeUnit) :=
  match rangechk seq with
  | .err k i => .err k i
  | .ok _ =>
    if Config.cntMax < seq.length then .err .lengthError 0
    else .ok (symbols (pack (seq.map Int.toNat) (seqWidth (seq.map Int.toNat))))

/-- `decode` (R190): InvalidCharacter before every error of the reader (60_exceptions.md R217). -/
def decodeFn (t : List CodeUnit) : Result (List Nat) :=
  match unchunk t with
  | .err k i => .err k i
  | .ok b => unpack b

end Sys2Proof.Machine
end

