-- ==== Sys2Proof/Syntax.lean ====
section
/-! DEFINITION. The abstract syntax: one constructor per row of spec/opcode_table.json, in the table's order.
A row with an encoding carries the fields of its encoding; a row of a unit carries the operands of its rule
(00_scope.md R18), since it has no encoding of its own. -/

namespace Sys2Proof

/-- The operations and formats of the block. A row means something only at its position ("selected by position within
ENCODE or DECODE, not by bits"): the meaning of each reads the phase (Machine/Dispatch.lean). -/
inductive Instr where
  /-- ENCODE: `in_op` = 0 on the first beat of a transaction (R71, R180, R183). -/
  | encodeCmd
  /-- DECODE: `in_op` = 1 on the first beat of a transaction (R71, R190, R183). -/
  | decodeCmd
  /-- HDR_SHORT, `0LLLLLLWW` (R72). -/
  | hdrShort (count : BitVec 6) (wc : WidthCode)
  /-- HDR_LONG, `1LLLLLLLLLLWW` (R73). -/
  | hdrLong (count : BitVec 10) (wc : WidthCode)
  /-- WC_4, `00` (R76). -/
  | wc4
  /-- WC_7, `01` (R76). -/
  | wc7
  /-- WC_9, `10` (R76). -/
  | wc9
  /-- WC_RSVD, `11` (R78). -/
  | wcRsvd
  /-- ELEM_4, `VVVV` (R79). -/
  | elem4 (v : BitVec 4)
  /-- ELEM_7, `VVVVVVV` (R79). -/
  | elem7 (v : BitVec 7)
  /-- ELEM_9, `VVVVVVVVV` (R79). -/
  | elem9 (v : BitVec 9)
  /-- PADF, k padding bits (R79). -/
  | padf (k : Nat)
  /-- IN_BEAT, `O E DDDDDDDDDDDDDDDD` (R83). -/
  | inBeat (op fin : Bool) (data : CodeUnit)
  /-- OUT_BEAT, `E DDDDDDDDDDDDDDDD SSS` (R84). -/
  | outBeat (fin : Bool) (data : CodeUnit) (status : BitVec 3)
  /-- ST_OK, `000` (R36). -/
  | stOk
  /-- ST_RANGE_ERROR, `001` (R36, R211). -/
  | stRangeError
  /-- ST_INVALID_CHARACTER, `010` (R36, R212). -/
  | stInvalidCharacter
  /-- ST_INVALID_WIDTH_CODE, `011` (R36, R213). -/
  | stInvalidWidthCode
  /-- ST_LENGTH_ERROR, `100` (R36, R214). -/
  | stLengthError
  /-- ST_TRUNCATED_INPUT, `101` (R36, R215). -/
  | stTruncatedInput
  /-- ST_RSVD_6, `110`: reserved, never produced (R36). -/
  | stRsvd6
  /-- ST_RSVD_7, `111`: reserved, never produced (R36). -/
  | stRsvd7
  -- SYM_0 to SYM_63: the 6-bit chunk with that value (R80)
  | sym0 | sym1 | sym2 | sym3 | sym4 | sym5 | sym6 | sym7
  | sym8 | sym9 | sym10 | sym11 | sym12 | sym13 | sym14 | sym15
  | sym16 | sym17 | sym18 | sym19 | sym20 | sym21 | sym22 | sym23
  | sym24 | sym25 | sym26 | sym27 | sym28 | sym29 | sym30 | sym31
  | sym32 | sym33 | sym34 | sym35 | sym36 | sym37 | sym38 | sym39
  | sym40 | sym41 | sym42 | sym43 | sym44 | sym45 | sym46 | sym47
  | sym48 | sym49 | sym50 | sym51 | sym52 | sym53 | sym54 | sym55
  | sym56 | sym57 | sym58 | sym59 | sym60 | sym61 | sym62 | sym63
  /-- WSEL(m) (R100). -/
  | wsel (m : Nat)
  /-- WCODE(w) (R103). -/
  | wcode (w : Width)
  /-- LFLAG(n), 0 <= n <= 1023 (R105). -/
  | lflag (n : BitVec 10)
  /-- LENW(f) (R106). -/
  | lenw (f : Bool)
  /-- HDR(n, w), 0 <= n <= 1023 (R107, R108). -/
  | hdr (n : BitVec 10) (w : Width)
  /-- RANGECHK(S), S any integers (R120). -/
  | rangechk (seq : List Int)
  /-- EMIT(S, w) (R123). -/
  | emit (seq : List Nat) (w : Width)
  /-- PAD(b) (R125). -/
  | pad (b : Bits)
  /-- TOTBITS(n, w) (R127). -/
  | totbits (n : Nat) (w : Width)
  /-- PACK(S, w) (R128). -/
  | pack (seq : List Nat) (w : Width)
  /-- CHUNK(b) (R140). -/
  | chunk (b : Bits)
  /-- SYMENC(i), i in 0..63 (R142). -/
  | symenc (i : BitVec 6)
  /-- SYMBOLS(b) (R143). -/
  | symbols (b : Bits)
  /-- SYMDEC(c) (R145). -/
  | symdec (c : CodeUnit)
  /-- EXPAND(i), i in 0..63 (R147). -/
  | expand (i : BitVec 6)
  /-- UNCHUNK(T) (R148). -/
  | unchunk (t : List CodeUnit)
  /-- READ(b, p, k) (R161). -/
  | read (b : Bits) (p k : Nat)
  /-- WDEC(c) (R162). -/
  | wdec (c : WidthCode)
  /-- HPARSE(b) (R164). -/
  | hparse (b : Bits)
  /-- ELEMS(b, p, n, w) (R166). -/
  | elems (b : Bits) (p n : Nat) (w : Width)
  /-- UNPACK(b) (R168). -/
  | unpack (b : Bits)
  /-- RDSTEP(x) (R172). -/
  | rdstep (x : Bool)
deriving DecidableEq, Repr

end Sys2Proof
end

