-- ==== Sys2Proof/WellFormed.lean ====
section
/-! DEFINITION. Well-formedness: the operand domains the spec gives each operation beyond the types of its operands. -/

namespace Sys2Proof

/-- A list of packer operands: every element 1..300 (41_bit_packer.md R123, R128). -/
def packable (seq : List Nat) : Bool :=
  seq.all fun v => decide (Config.vMin ≤ v) && decide (v ≤ Config.vMax)

/-- Every element fits the width: `max(S) < 2^w` (R123). -/
def fits (seq : List Nat) (w : Width) : Bool :=
  seq.all fun v => decide (v < 2 ^ Machine.widthBits w)

/-- The fields of an output beat (30_encoding.md R84): a data beat carries status 0 and a datum of at most 9 bits; an end
beat a status 0 to 5, and an info word other than 0 only with INVALID_CHARACTER (10_state.md R36, R37). -/
def outBeatOk (fin : Bool) (data : CodeUnit) (status : BitVec 3) : Bool :=
  if fin then decide (status.toNat ≤ 5) && (decide (data = 0) || decide (status = 2))
  else decide (status = 0) && decide (data.toNat < 512)

/-- The operand domains of the rules named in Syntax.lean. -/
def wellFormed : Instr → Bool
  | .padf k => decide (k ≤ 5)
  | .outBeat fin data status => outBeatOk fin data status
  | .emit seq w => packable seq && fits seq w
  | .pack seq w => packable seq && decide (seq.length ≤ Config.cntMax) && decide (w = Machine.seqWidth seq)
  | .chunk b => decide (b.length % 6 = 0)
  | .symbols b => decide (b.length % 6 = 0)
  | .read _ _ k => decide (1 ≤ k)
  | .encodeCmd | .decodeCmd | .hdrShort _ _ | .hdrLong _ _ | .wc4 | .wc7 | .wc9 | .wcRsvd
  | .elem4 _ | .elem7 _ | .elem9 _ | .inBeat _ _ _
  | .stOk | .stRangeError | .stInvalidCharacter | .stInvalidWidthCode | .stLengthError | .stTruncatedInput
  | .stRsvd6 | .stRsvd7
  | .sym0 | .sym1 | .sym2 | .sym3 | .sym4 | .sym5 | .sym6 | .sym7
  | .sym8 | .sym9 | .sym10 | .sym11 | .sym12 | .sym13 | .sym14 | .sym15
  | .sym16 | .sym17 | .sym18 | .sym19 | .sym20 | .sym21 | .sym22 | .sym23
  | .sym24 | .sym25 | .sym26 | .sym27 | .sym28 | .sym29 | .sym30 | .sym31
  | .sym32 | .sym33 | .sym34 | .sym35 | .sym36 | .sym37 | .sym38 | .sym39
  | .sym40 | .sym41 | .sym42 | .sym43 | .sym44 | .sym45 | .sym46 | .sym47
  | .sym48 | .sym49 | .sym50 | .sym51 | .sym52 | .sym53 | .sym54 | .sym55
  | .sym56 | .sym57 | .sym58 | .sym59 | .sym60 | .sym61 | .sym62 | .sym63
  | .wsel _ | .wcode _ | .lflag _ | .lenw _ | .hdr _ _ | .rangechk _ | .pad _ | .totbits _ _ | .symenc _ | .symdec _
  | .expand _ | .unchunk _ | .wdec _ | .hparse _ | .elems _ _ _ _ | .unpack _ | .rdstep _ => true

end Sys2Proof
end

