-- ==== Sys2Proof/Decode.lean ====
section
/-! DEFINITION. The decoder and the encoder. The block has no instruction words: a row of the table is a bit pattern of a
FORMAT (30_encoding.md R70), and which format stands at a place is given by the place. `decode` therefore takes the format
and the bits, first bit first, and answers the row and the bits after it. Total; it rejects by name. -/

namespace Sys2Proof

open Machine (bin val widthBits wcNat wcOfNat)

/-- The formats of 30_encoding.md R70, and the status codes of 10_state.md R36. `hdr` is both header layouts: the decoder
"tells its length from its first bit alone" (R75). -/
inductive Format where
  | cmd
  | hdr
  | wcode
  | elem (w : Width)
  | padf (k : Nat)
  | sym
  | inBeat
  | outBeat
  | status
deriving DecidableEq, Repr

/-- Why bits are no row of a format. -/
inductive DecodeError where
  /-- The bits end inside the format. -/
  | tooShort (f : Format)
  /-- Padding of more than 5 bits (R79). -/
  | paddingTooLong (k : Nat)
deriving DecidableEq, Repr

/-- Symbols 0 to 15 (R80). -/
def symRows0 : List Instr :=
  [Instr.sym0, Instr.sym1, Instr.sym2, Instr.sym3, Instr.sym4, Instr.sym5, Instr.sym6, Instr.sym7, Instr.sym8, Instr.sym9, Instr.sym10, Instr.sym11, Instr.sym12, Instr.sym13, Instr.sym14, Instr.sym15]

/-- Symbols 16 to 31 (R80). -/
def symRows1 : List Instr :=
  [Instr.sym16, Instr.sym17, Instr.sym18, Instr.sym19, Instr.sym20, Instr.sym21, Instr.sym22, Instr.sym23, Instr.sym24, Instr.sym25, Instr.sym26, Instr.sym27, Instr.sym28, Instr.sym29, Instr.sym30, Instr.sym31]

/-- Symbols 32 to 47 (R80). -/
def symRows2 : List Instr :=
  [Instr.sym32, Instr.sym33, Instr.sym34, Instr.sym35, Instr.sym36, Instr.sym37, Instr.sym38, Instr.sym39, Instr.sym40, Instr.sym41, Instr.sym42, Instr.sym43, Instr.sym44, Instr.sym45, Instr.sym46, Instr.sym47]

/-- Symbols 48 to 63 (R80). -/
def symRows3 : List Instr :=
  [Instr.sym48, Instr.sym49, Instr.sym50, Instr.sym51, Instr.sym52, Instr.sym53, Instr.sym54, Instr.sym55, Instr.sym56, Instr.sym57, Instr.sym58, Instr.sym59, Instr.sym60, Instr.sym61, Instr.sym62, Instr.sym63]

/-- The rows of the symbols, by index (R80). -/
def symRows : List Instr := symRows0 ++ symRows1 ++ symRows2 ++ symRows3

/-- SYM_i (R80); the argument is `val` of six bits, so below 64. -/
def symInstr (i : Nat) : Instr := symRows.getD i .sym0

/-- The row of a width-code (R76). -/
def wcInstr : WidthCode → Instr
  | .wc00 => .wc4
  | .wc01 => .wc7
  | .wc10 => .wc9
  | .wc11 => .wcRsvd

/-- The row of an element field (R79). -/
def elemInstr (w : Width) (v : Nat) : Instr :=
  match w with
  | .w4 => .elem4 (BitVec.ofNat 4 v)
  | .w7 => .elem7 (BitVec.ofNat 7 v)
  | .w9 => .elem9 (BitVec.ofNat 9 v)

/-- The row of a status code (R36); the argument is `val` of three bits. -/
def statusInstr : Nat → Instr
  | 0 => .stOk
  | 1 => .stRangeError
  | 2 => .stInvalidCharacter
  | 3 => .stInvalidWidthCode
  | 4 => .stLengthError
  | 5 => .stTruncatedInput
  | 6 => .stRsvd6
  | _ => .stRsvd7

/-- The first `n` bits as a number, and the bits after them; none if there are fewer. -/
def takeField (n : Nat) (b : Bits) : Option (Nat × Bits) :=
  if b.length < n then none else some (val (b.take n), b.drop n)

/-- A format of a fixed length `n`, its row made from the field's number. -/
def decodeFixed (f : Format) (n : Nat) (row : Nat → Instr) (b : Bits) : Except DecodeError (Instr × Bits) :=
  match takeField n b with
  | none => .error (.tooShort f)
  | some (v, rest) => .ok (row v, rest)

/-- HDR_SHORT from the 8 bits after a flag 0 (R72). -/
def hdrShortRow (v : Nat) : Instr := .hdrShort (BitVec.ofNat 6 (v / 4)) (wcOfNat (v % 4))

/-- HDR_LONG from the 12 bits after a flag 1 (R73). -/
def hdrLongRow (v : Nat) : Instr := .hdrLong (BitVec.ofNat 10 (v / 4)) (wcOfNat (v % 4))

/-- IN_BEAT from its 18 bits (R83). -/
def inBeatRow (v : Nat) : Instr :=
  .inBeat (decide (v / 2 ^ 17 % 2 = 1)) (decide (v / 2 ^ 16 % 2 = 1)) (BitVec.ofNat 16 (v % 2 ^ 16))

/-- OUT_BEAT from its 20 bits (R84). -/
def outBeatRow (v : Nat) : Instr :=
  .outBeat (decide (v / 2 ^ 19 % 2 = 1)) (BitVec.ofNat 16 (v / 8 % 2 ^ 16)) (BitVec.ofNat 3 (v % 8))

/-- The decoder: the row that stands at the head of the bits, read in a format, and the bits after it. -/
def decode (f : Format) (b : Bits) : Except DecodeError (Instr × Bits) :=
  match f with
  | .cmd => decodeFixed .cmd 1 (fun v => if v = 0 then .encodeCmd else .decodeCmd) b
  | .hdr =>
    match b with
    | [] => .error (.tooShort .hdr)
    | false :: rest => decodeFixed .hdr 8 hdrShortRow rest
    | true :: rest => decodeFixed .hdr 12 hdrLongRow rest
  | .wcode => decodeFixed .wcode 2 (fun v => wcInstr (wcOfNat v)) b
  | .elem w => decodeFixed (.elem w) (widthBits w) (elemInstr w) b
  | .padf k => if 5 < k then .error (.paddingTooLong k) else decodeFixed (.padf k) k (fun _ => .padf k) b
  | .sym => decodeFixed .sym 6 symInstr b
  | .inBeat => decodeFixed .inBeat 18 inBeatRow b
  | .outBeat => decodeFixed .outBeat 20 outBeatRow b
  | .status => decodeFixed .status 3 statusInstr b

/-- The encoder: the format of a row and its bits, from the encoding tables of 30_encoding.md; none for the rows of a unit,
which have no encoding of their own. Padding is written as zeros (R79). -/
def encode : Instr → Option (Format × Bits)
  | .encodeCmd => some (.cmd, [false])
  | .decodeCmd => some (.cmd, [true])
  | .hdrShort n c => some (.hdr, false :: (bin 6 n.toNat ++ bin 2 (wcNat c)))
  | .hdrLong n c => some (.hdr, true :: (bin 10 n.toNat ++ bin 2 (wcNat c)))
  | .wc4 => some (.wcode, [false, false])
  | .wc7 => some (.wcode, [false, true])
  | .wc9 => some (.wcode, [true, false])
  | .wcRsvd => some (.wcode, [true, true])
  | .elem4 v => some (.elem .w4, bin 4 v.toNat)
  | .elem7 v => some (.elem .w7, bin 7 v.toNat)
  | .elem9 v => some (.elem .w9, bin 9 v.toNat)
  | .padf k => some (.padf k, Machine.zeros k)
  | .inBeat op fin d => some (.inBeat, op :: fin :: bin 16 d.toNat)
  | .outBeat fin d st => some (.outBeat, fin :: (bin 16 d.toNat ++ bin 3 st.toNat))
  | .stOk => some (.status, [false, false, false])
  | .stRangeError => some (.status, [false, false, true])
  | .stInvalidCharacter => some (.status, [false, true, false])
  | .stInvalidWidthCode => some (.status, [false, true, true])
  | .stLengthError => some (.status, [true, false, false])
  | .stTruncatedInput => some (.status, [true, false, true])
  | .stRsvd6 => some (.status, [true, true, false])
  | .stRsvd7 => some (.status, [true, true, true])
  | .sym0 => some (.sym, bin 6 0)
  | .sym1 => some (.sym, bin 6 1)
  | .sym2 => some (.sym, bin 6 2)
  | .sym3 => some (.sym, bin 6 3)
  | .sym4 => some (.sym, bin 6 4)
  | .sym5 => some (.sym, bin 6 5)
  | .sym6 => some (.sym, bin 6 6)
  | .sym7 => some (.sym, bin 6 7)
  | .sym8 => some (.sym, bin 6 8)
  | .sym9 => some (.sym, bin 6 9)
  | .sym10 => some (.sym, bin 6 10)
  | .sym11 => some (.sym, bin 6 11)
  | .sym12 => some (.sym, bin 6 12)
  | .sym13 => some (.sym, bin 6 13)
  | .sym14 => some (.sym, bin 6 14)
  | .sym15 => some (.sym, bin 6 15)
  | .sym16 => some (.sym, bin 6 16)
  | .sym17 => some (.sym, bin 6 17)
  | .sym18 => some (.sym, bin 6 18)
  | .sym19 => some (.sym, bin 6 19)
  | .sym20 => some (.sym, bin 6 20)
  | .sym21 => some (.sym, bin 6 21)
  | .sym22 => some (.sym, bin 6 22)
  | .sym23 => some (.sym, bin 6 23)
  | .sym24 => some (.sym, bin 6 24)
  | .sym25 => some (.sym, bin 6 25)
  | .sym26 => some (.sym, bin 6 26)
  | .sym27 => some (.sym, bin 6 27)
  | .sym28 => some (.sym, bin 6 28)
  | .sym29 => some (.sym, bin 6 29)
  | .sym30 => some (.sym, bin 6 30)
  | .sym31 => some (.sym, bin 6 31)
  | .sym32 => some (.sym, bin 6 32)
  | .sym33 => some (.sym, bin 6 33)
  | .sym34 => some (.sym, bin 6 34)
  | .sym35 => some (.sym, bin 6 35)
  | .sym36 => some (.sym, bin 6 36)
  | .sym37 => some (.sym, bin 6 37)
  | .sym38 => some (.sym, bin 6 38)
  | .sym39 => some (.sym, bin 6 39)
  | .sym40 => some (.sym, bin 6 40)
  | .sym41 => some (.sym, bin 6 41)
  | .sym42 => some (.sym, bin 6 42)
  | .sym43 => some (.sym, bin 6 43)
  | .sym44 => some (.sym, bin 6 44)
  | .sym45 => some (.sym, bin 6 45)
  | .sym46 => some (.sym, bin 6 46)
  | .sym47 => some (.sym, bin 6 47)
  | .sym48 => some (.sym, bin 6 48)
  | .sym49 => some (.sym, bin 6 49)
  | .sym50 => some (.sym, bin 6 50)
  | .sym51 => some (.sym, bin 6 51)
  | .sym52 => some (.sym, bin 6 52)
  | .sym53 => some (.sym, bin 6 53)
  | .sym54 => some (.sym, bin 6 54)
  | .sym55 => some (.sym, bin 6 55)
  | .sym56 => some (.sym, bin 6 56)
  | .sym57 => some (.sym, bin 6 57)
  | .sym58 => some (.sym, bin 6 58)
  | .sym59 => some (.sym, bin 6 59)
  | .sym60 => some (.sym, bin 6 60)
  | .sym61 => some (.sym, bin 6 61)
  | .sym62 => some (.sym, bin 6 62)
  | .sym63 => some (.sym, bin 6 63)
  | .wsel _ | .wcode _ | .lflag _ | .lenw _ | .hdr _ _ | .rangechk _ | .emit _ _ | .pad _ | .totbits _ _ | .pack _ _
  | .chunk _ | .symenc _ | .symbols _ | .symdec _ | .expand _ | .unchunk _ | .read _ _ _ | .wdec _ | .hparse _
  | .elems _ _ _ _ | .unpack _ | .rdstep _ => none

/-- The formats a table word of so many bits (in whole bytes) is tried in, with the number of bits of each. A table word
does not say at which position it stands, and patterns of different formats coincide (`0` is ENCODE, WC_4, ST_OK and
SYM_0 at once), so the order is the model's convention (log 6, DESIGN CHOICE). -/
def tableFormats (nbits : Nat) : List (Format × Nat) :=
  if nbits = 8 then [(.cmd, 1), (.status, 3), (.sym, 6), (.elem .w7, 7)]
  else if nbits = 16 then [(.hdr, 9), (.elem .w9, 9), (.hdr, 13)]
  else if nbits = 24 then [(.inBeat, 18), (.outBeat, 20)]
  else []

/-- The first format of the list in which the word, written most significant bit first, is a whole row. -/
def decodeInFormats (w : Nat) : List (Format × Nat) → Option Instr
  | [] => none
  | (f, n) :: rest =>
    match (if w < 2 ^ n then decode f (bin n w) else .error (.tooShort f)) with
    | .ok (i, []) => some i
    | _ => decodeInFormats w rest

/-- The row the decoder reads from a word of spec/opcode_table.json: the pattern as a number, its first bit the most
significant (the table's own note). -/
def decodeTableWord (nbits w : Nat) : Option Instr := decodeInFormats w (tableFormats nbits)

end Sys2Proof
end

