-- ==== Sys2Proof/Machine/State.lean ====
section
/-! DEFINITION. The state of the block: the registers of 10_state.md R24, the element buffer (R40), the ports (R22), and
the model's own fields, which stand after them and say so. -/

namespace Sys2Proof.Machine

/-- The phase register `PH` (10_state.md R31). Codes 6 and 7 are unreachable and have no constructor (log 13). -/
inductive Phase where
  | idle
  | encLoad
  | encEmit
  | decLoad
  | decEmit
  | report
deriving DecidableEq, Repr

/-- The reader state `RS` (10_state.md R32): R_FLAG, R_LEN, R_WC, R_ELEM, R_DONE, R_BADWC. Codes 6 and 7 are unreachable
and have no constructor (log 13). -/
inductive ReaderState where
  | flag
  | len
  | wc
  | elem
  | done
  | badwc
deriving DecidableEq, Repr

/-- The element buffer `EBUF` (10_state.md R40): the entries whose content is known, by index, indices strictly rising. An
unlisted entry has no value: its content is unspecified (R41, 93_implementation_defined.md U6; log 3). -/
abbrev Memory := List (Nat × Entry)

/-- The input pins at one rising edge of `clk` (10_state.md R22). `go` is no pin: it is the block's own choice of timing at
this edge (10_state.md R34, 44_commands.md R205; log 1). -/
structure Pins where
  rst : Bool
  inValid : Bool
  inOp : Bool
  inEnd : Bool
  inData : CodeUnit
  outReady : Bool
  go : Bool
deriving DecidableEq, Repr

/-- What a combinational unit drives (00_scope.md R18): one constructor per kind of result. -/
inductive UnitValue where
  /-- RANGECHK answered ok. -/
  | pass
  /-- A width: WSEL, WDEC. -/
  | width (w : Width)
  /-- A bit: LFLAG. -/
  | bit (b : Bool)
  /-- A number: LENW, TOTBITS, SYMDEC. -/
  | num (n : Nat)
  /-- A bit string: WCODE, HDR, EMIT, PAD, PACK, EXPAND, UNCHUNK. -/
  | bits (b : Bits)
  /-- Chunks: CHUNK. -/
  | chunks (c : List Bits)
  /-- A code unit: SYMENC. -/
  | unit (c : CodeUnit)
  /-- Code units: SYMBOLS. -/
  | units (c : List CodeUnit)
  /-- Elements: ELEMS, UNPACK. -/
  | values (v : List Nat)
  /-- A value and the new cursor: READ. -/
  | readAt (v cursor : Nat)
  /-- Count, width and cursor: HPARSE. -/
  | header (n : Nat) (w : Width) (cursor : Nat)
deriving DecidableEq, Repr

/-- The state of the machine. -/
structure State where
  /-- `PH` -/
  ph : Phase
  /-- `CNT` -/
  cnt : BitVec 10
  /-- `MAX` -/
  max : Entry
  /-- `WID` -/
  wid : BitVec 4
  /-- `EIDX` -/
  eidx : BitVec 10
  /-- `HDONE` -/
  hdone : Bool
  /-- `ACC`, oldest bit first (R44) -/
  acc : Bits
  /-- `NACC` -/
  nacc : BitVec 4
  /-- `RS` -/
  rs : ReaderState
  /-- `FLAG` -/
  flag : Bool
  /-- `BCNT` -/
  bcnt : BitVec 4
  /-- `SH` -/
  sh : BitVec 10
  /-- `RERR` -/
  rerr : Bool
  /-- `OVF` -/
  ovf : Bool
  /-- `ICERR` -/
  icerr : Bool
  /-- `BADC` -/
  badc : CodeUnit
  /-- `STATUS` -/
  status : BitVec 3
  /-- `INFO` -/
  info : CodeUnit
  /-- `EBUF` -/
  ebuf : Memory
  /-- The input pins sampled at the edge being processed. -/
  pins : Pins
  /-- `out_valid` raised for a beat not yet transferred (R34). -/
  outValid : Bool
  /-- MODEL's own: the pins of the clock edges to come (log 1, log 2). -/
  edges : List Pins
  /-- MODEL's own: the beat the host presents and the block has not accepted yet (70_reset_and_hazards.md R250.1; log 14). -/
  pend : Option InBeat
  /-- MODEL's own: the result the last unit operation drives (log 7). -/
  unitOut : Option (Result UnitValue)
  /-- MODEL's own: the input beats transferred so far, oldest first (log 8). -/
  inLog : List InBeat
  /-- MODEL's own: the output beats transferred so far, oldest first (log 8). -/
  outLog : List OutBeat
deriving DecidableEq, Repr

/-- Why the machine stops with a fault. Neither is reachable from reset. -/
inductive Fault where
  /-- A read of an EBUF entry that nothing has written since reset: its content is unspecified (10_state.md R41,
  93_implementation_defined.md U6: "A model may equally make reading an unwritten entry a fault"). Raised by ENC_EMIT E3
  and DEC_EMIT X1. Safe. -/
  | ebufUnwritten (index : Nat)
  /-- A write of EBUF index 1023, which does not exist (20_memory.md R61). Raised by RDSTEP. Safe. -/
  | ebufIndex (index : Nat)
deriving DecidableEq, Repr

/-- Why an operation has no meaning. -/
inductive Refusal where
  /-- The arm of exec is not modelled yet. Raised by Machine/Dispatch.lean only. Safe. -/
  | notModelled (mnemonic : String)
  /-- The operation is not the step enabled in this phase and position (44_commands.md R205: "In each phase the set of
  enabled steps is given"; log 10). Raised by the rows of formats and by RDSTEP. Safe. -/
  | notEnabled
  /-- A reserved status code, "never produced" (10_state.md R36, 93_implementation_defined.md U9; log 10). Raised by
  ST_RSVD_6 and ST_RSVD_7. Safe. -/
  | reservedStatus (code : Nat)
  /-- The host changed or withdrew a beat it had presented (70_reset_and_hazards.md R250.1, R251,
  93_implementation_defined.md U7; log 14). Raised by the step. Safe. -/
  | hostUnstable
  /-- A register holds a value the spec says it never has where a rule reads it: `WID` off the ladder (10_state.md R27), an
  element wider than `WID` (R123), `SH'` above 3 in R_WC (R172), a fetched word that is no row (log 10). Raised by the
  fetch and by RDSTEP. Safe. -/
  | unreachable
deriving DecidableEq, Repr

/-- The outcome of an operation on the machine. -/
abbrev Out := Host.Outcome State Fault Refusal

/-- All input pins low: the host drives nothing. -/
def Pins.low : Pins :=
  { rst := false, inValid := false, inOp := false, inEnd := false, inData := 0, outReady := false, go := false }

/-- The block after reset (10_state.md R24, 70_reset_and_hazards.md R241): every register at its reset value, `out_valid` 0,
nothing known of EBUF (R241: "`EBUF` is not reset and its content is unspecified"). The model's own fields and the input
pins hold the values of log 16. -/
def State.reset : State :=
  { ph := .idle, cnt := 0, max := 0, wid := 0, eidx := 0, hdone := false, acc := [], nacc := 0, rs := .flag,
    flag := false, bcnt := 0, sh := 0, rerr := false, ovf := false, icerr := false, badc := 0, status := 0, info := 0,
    ebuf := [], pins := Pins.low, outValid := false, edges := [], pend := none, unitOut := none, inLog := [],
    outLog := [] }

end Sys2Proof.Machine
end

