-- ==== Sys2Proof/Machine/Ops.lean ====
section
/-! DEFINITION. The named operations over the element buffer and the registers: reading and writing EBUF, setting the
registers to their reset values, the accumulator, what is offered on the output channel, taking an error and the return
from one, and which word the position of the machine holds. -/

namespace Sys2Proof.Machine

/-! ## The element buffer (10_state.md R40, R59) -/

/-- The entry at an index, none where the content is unspecified (R41, U6; log 3). -/
def Memory.read (m : Memory) (i : Nat) : Option Entry :=
  match m with
  | [] => none
  | (j, v) :: rest => if i = j then some v else Memory.read rest i

/-- The buffer after `EBUF[i] <- v`. -/
def Memory.write (m : Memory) (i : Nat) (v : Entry) : Memory :=
  match m with
  | [] => [(i, v)]
  | (j, u) :: rest =>
    if i < j then (i, v) :: (j, u) :: rest
    else if i = j then (i, v) :: rest
    else (j, u) :: Memory.write rest i v

/-- Every index is above `lo` and the indices rise strictly. -/
def Memory.risingAbove (lo : Nat) (m : Memory) : Bool :=
  match m with
  | [] => true
  | (j, _) :: rest => decide (lo < j) && Memory.risingAbove j rest

/-- The canonical form: indices strictly rising and all below 1023 (20_memory.md R61). An unlisted index reads as nothing,
so no listed entry equals what an unlisted one reads as. -/
def Memory.wf (m : Memory) : Bool :=
  (match m with
    | [] => true
    | (j, _) :: rest => Memory.risingAbove j rest) && m.all fun c => decide (c.1 < Config.ebufDepth)

/-! ## Reset and the start of a transaction -/

/-- Every register of R24 at its reset value; EBUF, the ports and the model's own fields as they are (R183 (a)). -/
def initRegs (s : State) : State :=
  { s with
    ph := .idle, cnt := 0, max := 0, wid := 0, eidx := 0, hdone := false, acc := [], nacc := 0, rs := .flag,
    flag := false, bcnt := 0, sh := 0, rerr := false, ovf := false, icerr := false, badc := 0, status := 0, info := 0 }

/-- A rising edge with `rst` = 1 (70_reset_and_hazards.md R240, R241): every register takes its reset value, `out_valid` is
0, no beat moves, the content of EBUF becomes unspecified (log 3), and the host presents anew (R244; log 14). -/
def resetEdge (s : State) : State :=
  { initRegs s with ebuf := [], outValid := false, pend := none }

/-- Leaving IDLE, parts (a) and (b) of R183: the registers at their reset values, then the load phase of the command. -/
def startTransaction (op : Bool) (s : State) : State :=
  { initRegs s with ph := if op then .decLoad else .encLoad }

/-! ## The accumulator (10_state.md R44) -/

/-- "Push b": append after the bits held (R44). More than 14 bits never occur; here `NACC` keeps its low 4 bits beyond 15, and
`ACC` all bits (log 17, DESIGN CHOICE). -/
def pushBits (b : Bits) (s : State) : State :=
  { s with acc := s.acc ++ b, nacc := s.nacc + BitVec.ofNat 4 b.length }

/-- "Pop 6": remove the 6 oldest bits. -/
def popSymbol (s : State) : State :=
  { s with acc := s.acc.drop 6, nacc := s.nacc - 6 }

/-- E2 of R187: the header pushed. -/
def pushHeader (b : Bits) (s : State) : State := { pushBits b s with hdone := true }

/-- E3 of R187: the element's bits pushed. -/
def pushElement (b : Bits) (s : State) : State := { pushBits b s with eidx := s.eidx + 1 }

/-- The five steps of ENC_EMIT (44_commands.md R187): E1, E2, E3, E4, E5. -/
inductive EmitStep where
  | symbol
  | header
  | element
  | padding
  | finish
deriving DecidableEq, Repr

/-- The step of ENC_EMIT that is enabled: "the first whose condition holds" (R187). -/
def emitStep (s : State) : EmitStep :=
  if 6 ≤ s.nacc.toNat then .symbol
  else if s.hdone = false then .header
  else if s.eidx.toNat < s.cnt.toNat then .element
  else if 0 < s.nacc.toNat then .padding
  else .finish

/-! ## What the machine's position holds -/

/-- The word that stands where the machine is: bits in a format, or the internal step to REPORT (E5, X2), or a stop. -/
inductive Fetch where
  | word (f : Format) (b : Bits)
  | finish
  | fault (r : Fault)
  | refused (r : Refusal)
deriving DecidableEq, Repr

/-- The element EBUF[EIDX], at the width `WID`, as bits (R187 E3). -/
def fetchElement (s : State) (w : Width) : Fetch :=
  match Memory.read s.ebuf s.eidx.toNat with
  | none => .fault (.ebufUnwritten s.eidx.toNat)
  | some v =>
    if v.toNat < 2 ^ widthBits w then .word (.elem w) (bin (widthBits w) v.toNat) else .refused .unreachable

/-- The word of ENC_EMIT (R187): the 6 oldest bits, the header, an element, the padding, or the step to REPORT. -/
def fetchEmit (s : State) : Fetch :=
  match emitStep s, widthOfReg s.wid with
  | .symbol, _ => .word .sym (s.acc.take 6)
  | .header, some w => .word .hdr (hdr s.cnt.toNat w)
  | .element, some w => fetchElement s w
  | .header, none => .refused .unreachable
  | .element, none => .refused .unreachable
  | .padding, _ => .word (.padf (6 - s.nacc.toNat)) (zeros (6 - s.nacc.toNat))
  | .finish, _ => .finish

/-- The bits of an output beat (30_encoding.md R84). -/
def outBeatBits (b : OutBeat) : Bits := b.fin :: (bin 16 b.data.toNat ++ bin 3 b.status.toNat)

/-- The data beat of DEC_EMIT for an element (R196 X1). -/
def elementBeat (v : Entry) : OutBeat := { fin := false, data := zext16 v, status := 0 }

/-- The end beat of REPORT (R188). -/
def endBeat (s : State) : OutBeat := { fin := true, data := s.info, status := s.status }

/-- The word of DEC_EMIT (R196): the data beat X1, or the step to REPORT X2. `EIDX` above `CNT` never occurs (R28) and R196 gives
it no step; here it takes X2 as `EIDX` = `CNT` does (log 17, DESIGN CHOICE). -/
def fetchDecEmit (s : State) : Fetch :=
  if s.eidx.toNat < s.cnt.toNat then
    match Memory.read s.ebuf s.eidx.toNat with
    | none => .fault (.ebufUnwritten s.eidx.toNat)
    | some v => .word .outBeat (outBeatBits (elementBeat v))
  else .finish

/-- The word at the machine's position (log 6): the command on `in_op` in IDLE (R183), the input beat in a load phase
(R185, R193), the word of ENC_EMIT or DEC_EMIT, the status code in REPORT (R188). -/
def fetch (s : State) : Fetch :=
  match s.ph with
  | .idle => .word .cmd [s.pins.inOp]
  | .encLoad | .decLoad => .word .inBeat (s.pins.inOp :: s.pins.inEnd :: bin 16 s.pins.inData.toNat)
  | .encEmit => fetchEmit s
  | .decEmit => fetchDecEmit s
  | .report => .word .status (bin 3 s.status.toNat)

/-! ## The output channel -/

/-- The beat the block offers in this state (10_state.md R31, R34): E1 of R187, X1 of R196, the end beat of R188. None where
`out_valid` is 0 for ever in this state: the output fields then have no value (U8; log 4). -/
def offer (s : State) : Option OutBeat :=
  match s.ph with
  | .encEmit =>
    if 6 ≤ s.nacc.toNat then some { fin := false, data := symenc (val (s.acc.take 6)), status := 0 } else none
  | .decEmit =>
    if s.eidx.toNat < s.cnt.toNat then (Memory.read s.ebuf s.eidx.toNat).map elementBeat else none
  | .report => some (endBeat s)
  | .idle | .encLoad | .decLoad => none

/-- What transferring the offered beat changes in the registers: pop 6 (R187 E1), `EIDX` + 1 (R196 X1), `PH` <- IDLE
(R188: the return from an error as from success, 60_exceptions.md R223). -/
def afterBeat (s : State) : State :=
  match s.ph with
  | .encEmit => popSymbol s
  | .decEmit => { s with eidx := s.eidx + 1 }
  | .report => { s with ph := .idle }
  | .idle | .encLoad | .decLoad => s

/-- An output beat is transferred: the host has it, and the registers move on. -/
def deliver (b : OutBeat) (s : State) : State := { afterBeat s with outLog := s.outLog ++ [b] }

/-- E5 of R187 and X2 of R196: the internal step to REPORT. -/
def toReport (s : State) : State := { s with ph := .report }

/-! ## Taking an error (60_exceptions.md R220, R222) -/

/-- Taking an error: the code in `STATUS`, the info word in `INFO`, `PH` <- REPORT; nothing else changes (R186, R194, R222). -/
def takeError (k : ErrKind) (info : CodeUnit) (s : State) : State :=
  { s with status := errCode k, info := info, ph := .report }

/-! ## Units -/

/-- A combinational unit drives a result; no register changes (log 7). -/
def drive (r : Result UnitValue) (s : State) : State := { s with unitOut := some r }

/-- The result of a unit as a `UnitValue`. -/
def asUnit {α : Type} (f : α → UnitValue) : Result α → Result UnitValue
  | .ok v => .ok (f v)
  | .err k info => .err k info

end Sys2Proof.Machine
end

