-- ==== Sys2Proof/Machine/Flags.lean ====
section
/-! DEFINITION. The block's only flags (10_state.md R30): `RERR`, `OVF`, `ICERR`, sticky within a transaction. Each is set
here and nowhere else, and cleared only with all registers (`initRegs`). -/

namespace Sys2Proof.Machine

/-- `RERR`: set by an element outside 1..300, else as it was (44_commands.md R185, 60_exceptions.md R211). -/
def flagRange (v : CodeUnit) (s : State) : State := if inRange v then s else { s with rerr := true }

/-- `OVF`: set by a 1024th or later element (R185, 60_exceptions.md R214). -/
def flagOverflow (s : State) : State := { s with ovf := true }

/-- `ICERR` and `BADC`: set by the first code unit outside the alphabet (R193, 60_exceptions.md R212, R218). -/
def flagInvalidCharacter (c : CodeUnit) (s : State) : State := { s with icerr := true, badc := c }

end Sys2Proof.Machine
end

