-- ==== Sys2Proof/Machine/Reader.lean ====
section
/-! DEFINITION. The bit-serial reader (43_bit_unpacker.md R171 to R176). -/

namespace Sys2Proof.Machine

/-- `BCNT' = BCNT - 1` (R172), in the 4 bits of `BCNT`. In R_LEN, R_WC and R_ELEM a `BCNT` of 0 never occurs and R172 gives its
decrement no value; here it wraps to 15 and the field goes on (log 17, DESIGN CHOICE). -/
def bitsLeft (s : State) : BitVec 4 := s.bcnt - 1

/-- A bit that is not the last of its field (R172): `SH <- SH'`, `BCNT <- BCNT'`. -/
def fieldBit (x : Bool) (s : State) : State := { s with sh := shiftIn s.sh x, bcnt := bitsLeft s }

/-- The last bit of the width-code has been read (R172, R_WC with `BCNT'` = 0). -/
def widthCodeRead (sh' : Nat) (s : State) : Out :=
  match sh' with
  | 0 => .next (setWidth .w4 s)
  | 1 => .next (setWidth .w7 s)
  | 2 => .next (setWidth .w9 s)
  | 3 => .next { s with sh := 0, eidx := 0, rs := .badwc }
  | _ => .refused .unreachable
where
  /-- `WID <- WDEC(SH')`, and R_DONE for a count of 0, else R_ELEM with `BCNT` the width. -/
  setWidth (w : Width) (s : State) : State :=
    if s.cnt = 0 then { s with sh := 0, eidx := 0, wid := widthReg w, rs := .done }
    else { s with sh := 0, eidx := 0, wid := widthReg w, rs := .elem, bcnt := widthReg w }

/-- The last bit of an element has been read (R172, R_ELEM with `BCNT'` = 0). Index 1023 does not exist (20_memory.md R61). -/
def elementRead (v : Entry) (s : State) : Out :=
  if s.eidx.toNat < Config.ebufDepth then
    if s.eidx + 1 = s.cnt then
      .next { s with ebuf := Memory.write s.ebuf s.eidx.toNat v, eidx := s.eidx + 1, sh := 0, rs := .done }
    else
      .next { s with ebuf := Memory.write s.ebuf s.eidx.toNat v, eidx := s.eidx + 1, sh := 0, bcnt := s.wid }
  else .fault (.ebufIndex s.eidx.toNat)

/-- RDSTEP (R172). -/
def rdstep (x : Bool) (s : State) : Out :=
  match s.rs with
  | .flag => .next { s with flag := x, bcnt := BitVec.ofNat 4 (lenw x), sh := 0, rs := .len }
  | .len =>
    if bitsLeft s = 0 then .next { s with cnt := shiftIn s.sh x, sh := 0, bcnt := 2, rs := .wc }
    else .next (fieldBit x s)
  | .wc => if bitsLeft s = 0 then widthCodeRead (shiftIn s.sh x).toNat s else .next (fieldBit x s)
  | .elem => if bitsLeft s = 0 then elementRead (shLow9 (shiftIn s.sh x)) s else .next (fieldBit x s)
  | .done | .badwc => .next s

/-- RDSTEP over bits in order (R173). -/
def feedBits : Bits → State → Out
  | [], s => .next s
  | x :: rest, s =>
    match rdstep x s with
    | .next t => feedBits rest t
    | .fault r => .fault r
    | .refused r => .refused r

/-- Bits that arrive at the reader in DEC_LOAD: ignored once `ICERR` is 1 (R193), else RDSTEP over them. -/
def readerInput (b : Bits) (s : State) : Out := if s.icerr then .next s else feedBits b s

end Sys2Proof.Machine
end

