-- ==== Sys2Proof/Machine/Commands.lean ====
section
/-! DEFINITION. The two commands and the beats of the two channels (44_commands.md). -/

namespace Sys2Proof.Machine

/-! ## ENC_LOAD -/

/-- An in-range element stored at `EBUF[CNT]`, the maximum updated (R185). -/
def storeElement (v : CodeUnit) (s : State) : State :=
  { s with
    ebuf := Memory.write s.ebuf s.cnt.toNat (low9 v), max := if s.max.toNat < (low9 v).toNat then low9 v else s.max }

/-- ENC_LOAD, data beat (R185): every element is examined; the 1024th and later are neither stored nor counted. -/
def encLoadData (v : CodeUnit) (s : State) : State :=
  if s.cnt.toNat = Config.cntMax then flagOverflow (flagRange v s)
  else if inRange v then { storeElement v s with cnt := s.cnt + 1 }
  else { flagRange v s with cnt := s.cnt + 1 }

/-- ENC_LOAD, end beat (R186; priority 60_exceptions.md R216). -/
def encLoadEnd (s : State) : State :=
  if s.rerr then takeError .rangeError 0 s
  else if s.ovf then takeError .lengthError 0 s
  else
    { s with
      wid := widthReg (wsel s.max.toNat), status := okCode, info := 0, eidx := 0, hdone := false, acc := [], nacc := 0,
      ph := .encEmit }

/-! ## DEC_LOAD -/

/-- DEC_LOAD, data beat (R193): only the first invalid code unit is recorded, and after it no bit reaches the reader. -/
def decLoadData (c : CodeUnit) (s : State) : Out :=
  if s.icerr then .next s
  else
    match symdec c with
    | none => .next (flagInvalidCharacter c s)
    | some i => feedBits (expand i) s

/-- DEC_LOAD, end beat (R194; priority 60_exceptions.md R217). -/
def decLoadEnd (s : State) : State :=
  if s.icerr then takeError .invalidCharacter s.badc s
  else
    match s.rs with
    | .badwc => takeError .invalidWidthCode 0 s
    | .done => { s with status := okCode, info := 0, eidx := 0, ph := .decEmit }
    | .flag | .len | .wc | .elem => takeError .truncatedInput 0 s

/-! ## Beats -/

/-- A beat processed by the rule of the load phase (R185, R186, R193, R194). -/
def loadBeat (b : InBeat) (s : State) : Out :=
  match s.ph with
  | .encLoad => .next (if b.fin then encLoadEnd s else encLoadData b.data s)
  | .decLoad => if b.fin then .next (decLoadEnd s) else decLoadData b.data s
  | .idle | .encEmit | .decEmit | .report => .next s

/-- The record of a transferred input beat (log 8). -/
def logIn (b : InBeat) (s : State) : State := { s with inLog := s.inLog ++ [b] }

/-- An input beat presented to the block: in IDLE it starts the transaction and is processed in the same step (R183), in a
load phase it is processed (R185, R186, R193, R194), and in the other phases `in_ready` is 0 and it waits (R34, R251). -/
def inputBeat (b : InBeat) (s : State) : Out :=
  match s.ph with
  | .idle => loadBeat b (startTransaction b.op (logIn b s))
  | .encLoad | .decLoad => loadBeat b (logIn b s)
  | .encEmit | .decEmit | .report => .next s

/-- The command bit `op` on `in_op` with the rest of the beat on the pins: read only in IDLE, without effect in every other
phase (R183: "`in_op` of every later beat of the transaction is ignored"; 20_memory.md R67). -/
def command (op : Bool) (s : State) : Out :=
  match s.ph with
  | .idle => inputBeat { op := op, fin := s.pins.inEnd, data := s.pins.inData } s
  | .encLoad | .encEmit | .decLoad | .decEmit | .report => .next s

/-- ENCODE (R71, R180, R183). -/
def execEncodeCmd (s : State) : Out := command false s

/-- DECODE (R71, R190, R183). -/
def execDecodeCmd (s : State) : Out := command true s

/-- IN_BEAT (30_encoding.md R83). -/
def execInBeat (op fin : Bool) (data : CodeUnit) (s : State) : Out := inputBeat { op := op, fin := fin, data := data } s

/-- OUT_BEAT (30_encoding.md R84): the offered beat is transferred; a beat that is not the offered one cannot be (R205). -/
def execOutBeat (fin : Bool) (data : CodeUnit) (status : BitVec 3) (s : State) : Out :=
  if offer s = some { fin := fin, data := data, status := status } then
    .next (deliver { fin := fin, data := data, status := status } s)
  else .refused .notEnabled

end Sys2Proof.Machine
end

