-- ==== Sys2Proof/Machine/Formats.lean ====
section
/-! DEFINITION. The fields of the bit string: headers, width-codes, elements, padding (30_encoding.md R72 to R79). In
ENC_EMIT a field is pushed into the accumulator when it is the word that is due (44_commands.md R187); in DEC_LOAD its bits
are what the reader reads next (43_bit_unpacker.md R160, R172; log 9). -/

namespace Sys2Proof.Machine

/-- A field in its place: pushed by `push` in ENC_EMIT when it is due, read in DEC_LOAD when the reader stands `atField`. -/
def bitField (i : Instr) (push : Bits → State → State) (atField : Bool) (s : State) : Out :=
  match encode i with
  | none => .refused .notEnabled
  | some (f, b) =>
    match s.ph with
    | .encEmit => if fetch s = .word f b then .next (push b s) else .refused .notEnabled
    | .decLoad => if atField then readerInput b s else .refused .notEnabled
    | .idle | .encLoad | .decEmit | .report => .refused .notEnabled

/-- The reader stands at the start of the header. -/
def atHeader (s : State) : Bool := decide (s.rs = .flag)

/-- The reader stands at the start of the width-code: 2 bits still to come (R172). -/
def atWidthCode (s : State) : Bool := decide (s.rs = .wc) && decide (s.bcnt = 2)

/-- The reader stands at the start of an element of the width (R172). -/
def atElement (w : Width) (s : State) : Bool :=
  decide (s.rs = .elem) && decide (s.bcnt = widthReg w) && decide (s.wid = widthReg w)

/-- The reader has read all it will read: every further bit is ignored (R167, R172). -/
def atPadding (s : State) : Bool := decide (s.rs = .done) || decide (s.rs = .badwc)

/-- HDR_SHORT (R72): E2 of R187, or the header read (R164). -/
def execHdrShort (count : BitVec 6) (wc : WidthCode) (s : State) : Out :=
  bitField (.hdrShort count wc) pushHeader (atHeader s) s

/-- HDR_LONG (R73): E2 of R187, or the header read (R164), with any count (R86). -/
def execHdrLong (count : BitVec 10) (wc : WidthCode) (s : State) : Out :=
  bitField (.hdrLong count wc) pushHeader (atHeader s) s

/-- A width-code on its own: the reader reads it after the length (R162, R172). The encoder writes it only inside the
header, which E2 pushes whole (R187), so it is never due alone in ENC_EMIT (log 9). -/
def widthCodeField (i : Instr) (s : State) : Out := bitField i pushBits (atWidthCode s) s

/-- WC_4 (R76). -/
def execWc4 (s : State) : Out := widthCodeField .wc4 s

/-- WC_7 (R76). -/
def execWc7 (s : State) : Out := widthCodeField .wc7 s

/-- WC_9 (R76). -/
def execWc9 (s : State) : Out := widthCodeField .wc9 s

/-- WC_RSVD (R78): the reader goes to R_BADWC, and DECODE ends with INVALID_WIDTH_CODE (R162, R194, R213). -/
def execWcRsvd (s : State) : Out := widthCodeField .wcRsvd s

/-- ELEM_4 (R79): E3 of R187, or an element read (R166). -/
def execElem4 (v : BitVec 4) (s : State) : Out := bitField (.elem4 v) pushElement (atElement .w4 s) s

/-- ELEM_7 (R79): E3 of R187, or an element read (R166). -/
def execElem7 (v : BitVec 7) (s : State) : Out := bitField (.elem7 v) pushElement (atElement .w7 s) s

/-- ELEM_9 (R79): E3 of R187, or an element read (R166). -/
def execElem9 (v : BitVec 9) (s : State) : Out := bitField (.elem9 v) pushElement (atElement .w9 s) s

/-- PADF (R79): E4 of R187, or bits the reader ignores (R167). Padding of 0 bits pushes nothing (41_bit_packer.md R129: "nothing
when `NACC` = 0"), where E5 is due. -/
def execPadf (k : Nat) (s : State) : Out :=
  if k = 0 ∧ s.ph = .encEmit ∧ emitStep s = .finish then .next s
  else bitField (.padf k) pushBits (atPadding s) s

end Sys2Proof.Machine
end

