-- ==== Sys2Proof/Machine/Symbols.lean ====
section
/-! DEFINITION. The 64 symbols (30_encoding.md R80): one meaning per row, each one line over `symbolRow`. -/

namespace Sys2Proof.Machine

/-- The symbol of index `i`. In ENC_EMIT it is the output data beat of E1 when the 6 oldest bits are its chunk (R187); in
DEC_LOAD its 6 bits go to the reader, most significant first (R173), unless `ICERR` is 1 (R193). -/
def symbolRow (i : Nat) (s : State) : Out :=
  match s.ph with
  | .encEmit =>
    if fetch s = .word .sym (expand i) then .next (deliver { fin := false, data := symenc i, status := 0 } s)
    else .refused .notEnabled
  | .decLoad => readerInput (expand i) s
  | .idle | .encLoad | .decEmit | .report => .refused .notEnabled

/-- SYM_0: the character `A`, code unit 65. -/
def execSym0 (s : State) : Out := symbolRow 0 s

/-- SYM_1: the character `B`, code unit 66. -/
def execSym1 (s : State) : Out := symbolRow 1 s

/-- SYM_2: the character `C`, code unit 67. -/
def execSym2 (s : State) : Out := symbolRow 2 s

/-- SYM_3: the character `D`, code unit 68. -/
def execSym3 (s : State) : Out := symbolRow 3 s

/-- SYM_4: the character `E`, code unit 69. -/
def execSym4 (s : State) : Out := symbolRow 4 s

/-- SYM_5: the character `F`, code unit 70. -/
def execSym5 (s : State) : Out := symbolRow 5 s

/-- SYM_6: the character `G`, code unit 71. -/
def execSym6 (s : State) : Out := symbolRow 6 s

/-- SYM_7: the character `H`, code unit 72. -/
def execSym7 (s : State) : Out := symbolRow 7 s

/-- SYM_8: the character `I`, code unit 73. -/
def execSym8 (s : State) : Out := symbolRow 8 s

/-- SYM_9: the character `J`, code unit 74. -/
def execSym9 (s : State) : Out := symbolRow 9 s

/-- SYM_10: the character `K`, code unit 75. -/
def execSym10 (s : State) : Out := symbolRow 10 s

/-- SYM_11: the character `L`, code unit 76. -/
def execSym11 (s : State) : Out := symbolRow 11 s

/-- SYM_12: the character `M`, code unit 77. -/
def execSym12 (s : State) : Out := symbolRow 12 s

/-- SYM_13: the character `N`, code unit 78. -/
def execSym13 (s : State) : Out := symbolRow 13 s

/-- SYM_14: the character `O`, code unit 79. -/
def execSym14 (s : State) : Out := symbolRow 14 s

/-- SYM_15: the character `P`, code unit 80. -/
def execSym15 (s : State) : Out := symbolRow 15 s

/-- SYM_16: the character `Q`, code unit 81. -/
def execSym16 (s : State) : Out := symbolRow 16 s

/-- SYM_17: the character `R`, code unit 82. -/
def execSym17 (s : State) : Out := symbolRow 17 s

/-- SYM_18: the character `S`, code unit 83. -/
def execSym18 (s : State) : Out := symbolRow 18 s

/-- SYM_19: the character `T`, code unit 84. -/
def execSym19 (s : State) : Out := symbolRow 19 s

/-- SYM_20: the character `U`, code unit 85. -/
def execSym20 (s : State) : Out := symbolRow 20 s

/-- SYM_21: the character `V`, code unit 86. -/
def execSym21 (s : State) : Out := symbolRow 21 s

/-- SYM_22: the character `W`, code unit 87. -/
def execSym22 (s : State) : Out := symbolRow 22 s

/-- SYM_23: the character `X`, code unit 88. -/
def execSym23 (s : State) : Out := symbolRow 23 s

/-- SYM_24: the character `Y`, code unit 89. -/
def execSym24 (s : State) : Out := symbolRow 24 s

/-- SYM_25: the character `Z`, code unit 90. -/
def execSym25 (s : State) : Out := symbolRow 25 s

/-- SYM_26: the character `a`, code unit 97. -/
def execSym26 (s : State) : Out := symbolRow 26 s

/-- SYM_27: the character `b`, code unit 98. -/
def execSym27 (s : State) : Out := symbolRow 27 s

/-- SYM_28: the character `c`, code unit 99. -/
def execSym28 (s : State) : Out := symbolRow 28 s

/-- SYM_29: the character `d`, code unit 100. -/
def execSym29 (s : State) : Out := symbolRow 29 s

/-- SYM_30: the character `e`, code unit 101. -/
def execSym30 (s : State) : Out := symbolRow 30 s

/-- SYM_31: the character `f`, code unit 102. -/
def execSym31 (s : State) : Out := symbolRow 31 s

/-- SYM_32: the character `g`, code unit 103. -/
def execSym32 (s : State) : Out := symbolRow 32 s

/-- SYM_33: the character `h`, code unit 104. -/
def execSym33 (s : State) : Out := symbolRow 33 s

/-- SYM_34: the character `i`, code unit 105. -/
def execSym34 (s : State) : Out := symbolRow 34 s

/-- SYM_35: the character `j`, code unit 106. -/
def execSym35 (s : State) : Out := symbolRow 35 s

/-- SYM_36: the character `k`, code unit 107. -/
def execSym36 (s : State) : Out := symbolRow 36 s

/-- SYM_37: the character `l`, code unit 108. -/
def execSym37 (s : State) : Out := symbolRow 37 s

/-- SYM_38: the character `m`, code unit 109. -/
def execSym38 (s : State) : Out := symbolRow 38 s

/-- SYM_39: the character `n`, code unit 110. -/
def execSym39 (s : State) : Out := symbolRow 39 s

/-- SYM_40: the character `o`, code unit 111. -/
def execSym40 (s : State) : Out := symbolRow 40 s

/-- SYM_41: the character `p`, code unit 112. -/
def execSym41 (s : State) : Out := symbolRow 41 s

/-- SYM_42: the character `q`, code unit 113. -/
def execSym42 (s : State) : Out := symbolRow 42 s

/-- SYM_43: the character `r`, code unit 114. -/
def execSym43 (s : State) : Out := symbolRow 43 s

/-- SYM_44: the character `s`, code unit 115. -/
def execSym44 (s : State) : Out := symbolRow 44 s

/-- SYM_45: the character `t`, code unit 116. -/
def execSym45 (s : State) : Out := symbolRow 45 s

/-- SYM_46: the character `u`, code unit 117. -/
def execSym46 (s : State) : Out := symbolRow 46 s

/-- SYM_47: the character `v`, code unit 118. -/
def execSym47 (s : State) : Out := symbolRow 47 s

/-- SYM_48: the character `w`, code unit 119. -/
def execSym48 (s : State) : Out := symbolRow 48 s

/-- SYM_49: the character `x`, code unit 120. -/
def execSym49 (s : State) : Out := symbolRow 49 s

/-- SYM_50: the character `y`, code unit 121. -/
def execSym50 (s : State) : Out := symbolRow 50 s

/-- SYM_51: the character `z`, code unit 122. -/
def execSym51 (s : State) : Out := symbolRow 51 s

/-- SYM_52: the character `0`, code unit 48. -/
def execSym52 (s : State) : Out := symbolRow 52 s

/-- SYM_53: the character `1`, code unit 49. -/
def execSym53 (s : State) : Out := symbolRow 53 s

/-- SYM_54: the character `2`, code unit 50. -/
def execSym54 (s : State) : Out := symbolRow 54 s

/-- SYM_55: the character `3`, code unit 51. -/
def execSym55 (s : State) : Out := symbolRow 55 s

/-- SYM_56: the character `4`, code unit 52. -/
def execSym56 (s : State) : Out := symbolRow 56 s

/-- SYM_57: the character `5`, code unit 53. -/
def execSym57 (s : State) : Out := symbolRow 57 s

/-- SYM_58: the character `6`, code unit 54. -/
def execSym58 (s : State) : Out := symbolRow 58 s

/-- SYM_59: the character `7`, code unit 55. -/
def execSym59 (s : State) : Out := symbolRow 59 s

/-- SYM_60: the character `8`, code unit 56. -/
def execSym60 (s : State) : Out := symbolRow 60 s

/-- SYM_61: the character `9`, code unit 57. -/
def execSym61 (s : State) : Out := symbolRow 61 s

/-- SYM_62: the character `+`, code unit 43. -/
def execSym62 (s : State) : Out := symbolRow 62 s

/-- SYM_63: the character `/`, code unit 47. -/
def execSym63 (s : State) : Out := symbolRow 63 s

end Sys2Proof.Machine
end

