-- ==== Sys2Proof/Machine/Status.lean ====
section
/-! DEFINITION. The status codes (10_state.md R36): in REPORT the end beat that carries the code is transferred (R188). -/

namespace Sys2Proof.Machine

/-- REPORT with `STATUS` = `code` (R188): the end beat (1, `INFO`, `STATUS`) is transferred and `PH` <- IDLE. -/
def reportStatus (code : BitVec 3) (s : State) : Out :=
  if s.ph = .report ∧ s.status = code then .next (deliver (endBeat s) s) else .refused .notEnabled

/-- A reserved status code is never produced (R36): there is no transaction that reports it
(93_implementation_defined.md U9: "If a model's state type admits them, `refuse`"). -/
def reservedCode (code : Nat) (_ : State) : Out := .refused (.reservedStatus code)

/-- ST_OK (R210): success. -/
def execStOk (s : State) : Out := reportStatus 0 s

/-- ST_RANGE_ERROR (R211). -/
def execStRangeError (s : State) : Out := reportStatus 1 s

/-- ST_INVALID_CHARACTER (R212); the info word is the offending code unit (R37). -/
def execStInvalidCharacter (s : State) : Out := reportStatus 2 s

/-- ST_INVALID_WIDTH_CODE (R213). -/
def execStInvalidWidthCode (s : State) : Out := reportStatus 3 s

/-- ST_LENGTH_ERROR (R214). -/
def execStLengthError (s : State) : Out := reportStatus 4 s

/-- ST_TRUNCATED_INPUT (R215). -/
def execStTruncatedInput (s : State) : Out := reportStatus 5 s

/-- ST_RSVD_6 (R36). -/
def execStRsvd6 (s : State) : Out := reservedCode 6 s

/-- ST_RSVD_7 (R36). -/
def execStRsvd7 (s : State) : Out := reservedCode 7 s

end Sys2Proof.Machine
end

