-- ==== Sys2Proof/Machine/Units.lean ====
section
/-! DEFINITION. The rows of the units (00_scope.md R18): each drives the value its rule gives, or its error (R14), and
changes no register ("pure function with no state, no flags", files 40 to 43). RDSTEP is the one that changes state. -/

namespace Sys2Proof.Machine

/-- WSEL (R100). -/
def execWsel (m : Nat) (s : State) : Out := .next (drive (.ok (.width (wsel m))) s)

/-- WCODE (R103). -/
def execWcode (w : Width) (s : State) : Out := .next (drive (.ok (.bits (wcode w))) s)

/-- LFLAG (R105). -/
def execLflag (n : BitVec 10) (s : State) : Out := .next (drive (.ok (.bit (lflag n.toNat))) s)

/-- LENW (R106). -/
def execLenw (f : Bool) (s : State) : Out := .next (drive (.ok (.num (lenw f))) s)

/-- HDR (R108). -/
def execHdr (n : BitVec 10) (w : Width) (s : State) : Out := .next (drive (.ok (.bits (hdr n.toNat w))) s)

/-- RANGECHK (R120). The flag `RERR` is set by the load phase (R30, R185). -/
def execRangechk (seq : List Int) (s : State) : Out := .next (drive (asUnit (fun _ => .pass) (rangechk seq)) s)

/-- `bin_w(v)` of an element; a free value where v needs more than w bits (R12; log 11). -/
def elementField (w : Width) (v : Nat) : Bits :=
  if v < 2 ^ widthBits w then bin (widthBits w) v else Config.binUnstated (widthBits w) v

/-- EMIT on any operands: `emit` where every element fits (R123). -/
def emitField : List Nat → Width → Bits
  | [], _ => []
  | v :: rest, w => elementField w v ++ emitField rest w

/-- HDR on any count; a free value from 1024 on (R107; log 11). -/
def headerField (n : Nat) (w : Width) : Bits := if n ≤ Config.cntMax then hdr n w else Config.hdrUnstated n w

/-- EMIT (R123). -/
def execEmit (seq : List Nat) (w : Width) (s : State) : Out := .next (drive (.ok (.bits (emitField seq w))) s)

/-- PAD (R125). -/
def execPad (b : Bits) (s : State) : Out := .next (drive (.ok (.bits (pad b))) s)

/-- TOTBITS (R127). -/
def execTotbits (n : Nat) (w : Width) (s : State) : Out := .next (drive (.ok (.num (totbits n w))) s)

/-- PACK (R128): PAD of the header and the elements. -/
def execPack (seq : List Nat) (w : Width) (s : State) : Out :=
  .next (drive (.ok (.bits (pad (headerField seq.length w ++ emitField seq w)))) s)

/-- CHUNK (R140); a free value where the length is no multiple of 6 (log 11). -/
def execChunk (b : Bits) (s : State) : Out :=
  .next (drive (.ok (.chunks (if b.length % 6 = 0 then chunk b else Config.chunkUnstated b))) s)

/-- SYMENC (R142). -/
def execSymenc (i : BitVec 6) (s : State) : Out := .next (drive (.ok (.unit (symenc i.toNat))) s)

/-- SYMBOLS (R143); a free value where the length is no multiple of 6 (log 11). -/
def execSymbols (b : Bits) (s : State) : Out :=
  .next (drive (.ok (.units (if b.length % 6 = 0 then symbols b else Config.symbolsUnstated b))) s)

/-- The index of a code unit, or InvalidCharacter with it (R145). -/
def symdecResult (c : CodeUnit) : Result Nat :=
  match symdec c with
  | some i => .ok i
  | none => .err .invalidCharacter c

/-- SYMDEC (R145). The flag `ICERR` and `BADC` are set by the load phase (R30, R193). -/
def execSymdec (c : CodeUnit) (s : State) : Out := .next (drive (asUnit .num (symdecResult c)) s)

/-- EXPAND (R147). -/
def execExpand (i : BitVec 6) (s : State) : Out := .next (drive (.ok (.bits (expand i.toNat))) s)

/-- UNCHUNK (R148). -/
def execUnchunk (t : List CodeUnit) (s : State) : Out := .next (drive (asUnit .bits (unchunk t)) s)

/-- READ (R161). -/
def execRead (b : Bits) (p k : Nat) (s : State) : Out :=
  .next (drive (asUnit (fun r => .readAt r.1 r.2) (read b p k)) s)

/-- WDEC (R162). -/
def execWdec (c : WidthCode) (s : State) : Out := .next (drive (asUnit .width (wdec c)) s)

/-- HPARSE (R164). -/
def execHparse (b : Bits) (s : State) : Out :=
  .next (drive (asUnit (fun r => .header r.1 r.2.1 r.2.2) (hparse b)) s)

/-- ELEMS (R166). -/
def execElems (b : Bits) (p n : Nat) (w : Width) (s : State) : Out :=
  .next (drive (asUnit .values (elems b p n w)) s)

/-- UNPACK (R168). -/
def execUnpack (b : Bits) (s : State) : Out := .next (drive (asUnit .values (unpack b)) s)

/-- RDSTEP (R172), in DEC_LOAD, the only phase in which the reader's registers are written (10_state.md R24). -/
def execRdstep (x : Bool) (s : State) : Out :=
  if s.ph = .decLoad then rdstep x s else .refused .notEnabled

end Sys2Proof.Machine
end

