-- ==== Sys2Proof/Machine/Dispatch.lean ====
section
/-! DEFINITION. One arm per constructor of Instr, in the order of spec/opcode_table.json. -/

namespace Sys2Proof.Machine

def exec (i : Instr) (s : State) : Host.Outcome State Fault Refusal :=
  match i with
  | .encodeCmd => Sys2Proof.Machine.execEncodeCmd s
  | .decodeCmd => Sys2Proof.Machine.execDecodeCmd s
  | .hdrShort count wc => Sys2Proof.Machine.execHdrShort count wc s
  | .hdrLong count wc => Sys2Proof.Machine.execHdrLong count wc s
  | .wc4 => Sys2Proof.Machine.execWc4 s
  | .wc7 => Sys2Proof.Machine.execWc7 s
  | .wc9 => Sys2Proof.Machine.execWc9 s
  | .wcRsvd => Sys2Proof.Machine.execWcRsvd s
  | .elem4 v => Sys2Proof.Machine.execElem4 v s
  | .elem7 v => Sys2Proof.Machine.execElem7 v s
  | .elem9 v => Sys2Proof.Machine.execElem9 v s
  | .padf k => Sys2Proof.Machine.execPadf k s
  | .inBeat op fin data => Sys2Proof.Machine.execInBeat op fin data s
  | .outBeat fin data status => Sys2Proof.Machine.execOutBeat fin data status s
  | .stOk => Sys2Proof.Machine.execStOk s
  | .stRangeError => Sys2Proof.Machine.execStRangeError s
  | .stInvalidCharacter => Sys2Proof.Machine.execStInvalidCharacter s
  | .stInvalidWidthCode => Sys2Proof.Machine.execStInvalidWidthCode s
  | .stLengthError => Sys2Proof.Machine.execStLengthError s
  | .stTruncatedInput => Sys2Proof.Machine.execStTruncatedInput s
  | .stRsvd6 => Sys2Proof.Machine.execStRsvd6 s
  | .stRsvd7 => Sys2Proof.Machine.execStRsvd7 s
  | .sym0 => Sys2Proof.Machine.execSym0 s
  | .sym1 => Sys2Proof.Machine.execSym1 s
  | .sym2 => Sys2Proof.Machine.execSym2 s
  | .sym3 => Sys2Proof.Machine.execSym3 s
  | .sym4 => Sys2Proof.Machine.execSym4 s
  | .sym5 => Sys2Proof.Machine.execSym5 s
  | .sym6 => Sys2Proof.Machine.execSym6 s
  | .sym7 => Sys2Proof.Machine.execSym7 s
  | .sym8 => Sys2Proof.Machine.execSym8 s
  | .sym9 => Sys2Proof.Machine.execSym9 s
  | .sym10 => Sys2Proof.Machine.execSym10 s
  | .sym11 => Sys2Proof.Machine.execSym11 s
  | .sym12 => Sys2Proof.Machine.execSym12 s
  | .sym13 => Sys2Proof.Machine.execSym13 s
  | .sym14 => Sys2Proof.Machine.execSym14 s
  | .sym15 => Sys2Proof.Machine.execSym15 s
  | .sym16 => Sys2Proof.Machine.execSym16 s
  | .sym17 => Sys2Proof.Machine.execSym17 s
  | .sym18 => Sys2Proof.Machine.execSym18 s
  | .sym19 => Sys2Proof.Machine.execSym19 s
  | .sym20 => Sys2Proof.Machine.execSym20 s
  | .sym21 => Sys2Proof.Machine.execSym21 s
  | .sym22 => Sys2Proof.Machine.execSym22 s
  | .sym23 => Sys2Proof.Machine.execSym23 s
  | .sym24 => Sys2Proof.Machine.execSym24 s
  | .sym25 => Sys2Proof.Machine.execSym25 s
  | .sym26 => Sys2Proof.Machine.execSym26 s
  | .sym27 => Sys2Proof.Machine.execSym27 s
  | .sym28 => Sys2Proof.Machine.execSym28 s
  | .sym29 => Sys2Proof.Machine.execSym29 s
  | .sym30 => Sys2Proof.Machine.execSym30 s
  | .sym31 => Sys2Proof.Machine.execSym31 s
  | .sym32 => Sys2Proof.Machine.execSym32 s
  | .sym33 => Sys2Proof.Machine.execSym33 s
  | .sym34 => Sys2Proof.Machine.execSym34 s
  | .sym35 => Sys2Proof.Machine.execSym35 s
  | .sym36 => Sys2Proof.Machine.execSym36 s
  | .sym37 => Sys2Proof.Machine.execSym37 s
  | .sym38 => Sys2Proof.Machine.execSym38 s
  | .sym39 => Sys2Proof.Machine.execSym39 s
  | .sym40 => Sys2Proof.Machine.execSym40 s
  | .sym41 => Sys2Proof.Machine.execSym41 s
  | .sym42 => Sys2Proof.Machine.execSym42 s
  | .sym43 => Sys2Proof.Machine.execSym43 s
  | .sym44 => Sys2Proof.Machine.execSym44 s
  | .sym45 => Sys2Proof.Machine.execSym45 s
  | .sym46 => Sys2Proof.Machine.execSym46 s
  | .sym47 => Sys2Proof.Machine.execSym47 s
  | .sym48 => Sys2Proof.Machine.execSym48 s
  | .sym49 => Sys2Proof.Machine.execSym49 s
  | .sym50 => Sys2Proof.Machine.execSym50 s
  | .sym51 => Sys2Proof.Machine.execSym51 s
  | .sym52 => Sys2Proof.Machine.execSym52 s
  | .sym53 => Sys2Proof.Machine.execSym53 s
  | .sym54 => Sys2Proof.Machine.execSym54 s
  | .sym55 => Sys2Proof.Machine.execSym55 s
  | .sym56 => Sys2Proof.Machine.execSym56 s
  | .sym57 => Sys2Proof.Machine.execSym57 s
  | .sym58 => Sys2Proof.Machine.execSym58 s
  | .sym59 => Sys2Proof.Machine.execSym59 s
  | .sym60 => Sys2Proof.Machine.execSym60 s
  | .sym61 => Sys2Proof.Machine.execSym61 s
  | .sym62 => Sys2Proof.Machine.execSym62 s
  | .sym63 => Sys2Proof.Machine.execSym63 s
  | .wsel m => Sys2Proof.Machine.execWsel m s
  | .wcode w => Sys2Proof.Machine.execWcode w s
  | .lflag n => Sys2Proof.Machine.execLflag n s
  | .lenw f => Sys2Proof.Machine.execLenw f s
  | .hdr n w => Sys2Proof.Machine.execHdr n w s
  | .rangechk seq => Sys2Proof.Machine.execRangechk seq s
  | .emit seq w => Sys2Proof.Machine.execEmit seq w s
  | .pad b => Sys2Proof.Machine.execPad b s
  | .totbits n w => Sys2Proof.Machine.execTotbits n w s
  | .pack seq w => Sys2Proof.Machine.execPack seq w s
  | .chunk b => Sys2Proof.Machine.execChunk b s
  | .symenc idx => Sys2Proof.Machine.execSymenc idx s
  | .symbols b => Sys2Proof.Machine.execSymbols b s
  | .symdec c => Sys2Proof.Machine.execSymdec c s
  | .expand idx => Sys2Proof.Machine.execExpand idx s
  | .unchunk t => Sys2Proof.Machine.execUnchunk t s
  | .read b p k => Sys2Proof.Machine.execRead b p k s
  | .wdec c => Sys2Proof.Machine.execWdec c s
  | .hparse b => Sys2Proof.Machine.execHparse b s
  | .elems b p n w => Sys2Proof.Machine.execElems b p n w s
  | .unpack b => Sys2Proof.Machine.execUnpack b s
  | .rdstep x => Sys2Proof.Machine.execRdstep x s

end Sys2Proof.Machine
end

