-- ==== Sys2Proof/Machine/Sequencer.lean ====
section
/-! DEFINITION. One rising edge of `clk` (44_commands.md R205): the handshakes of the two channels (10_state.md R22, R23,
R34), and the run of the row that stands at the machine's position. -/

namespace Sys2Proof.Machine

/-- The beat on the input pins (30_encoding.md R83). -/
def Pins.beat (e : Pins) : InBeat := { op := e.inOp, fin := e.inEnd, data := e.inData }

/-- The phases in which `in_ready` can be 1 (10_state.md R31, R34). -/
def acceptsInput (s : State) : Bool := decide (s.ph = .idle) || decide (s.ph = .encLoad) || decide (s.ph = .decLoad)

/-- `in_ready` at an edge (10_state.md R31, R34; 0 while `rst` is 1, 70_reset_and_hazards.md R240). -/
def inReady (e : Pins) (s : State) : Bool := acceptsInput s && e.go && !e.rst

/-- An output beat is due (10_state.md R31: the condition of `out_valid`). -/
def beatDue (s : State) : Bool :=
  match s.ph with
  | .encEmit => decide (emitStep s = .symbol)
  | .decEmit => decide (s.eidx.toNat < s.cnt.toNat)
  | .report => true
  | .idle | .encLoad | .decLoad => false

/-- `out_valid` at an edge: once 1 it stays 1 until the beat is transferred (10_state.md R34; log 1). -/
def outValidAt (e : Pins) (s : State) : Bool := beatDue s && (s.outValid || e.go) && !e.rst

/-- The host breaks R250.1: it had presented a beat that is not accepted yet, and does not keep it. -/
def hostBreaks (e : Pins) (s : State) : Bool :=
  match s.pend with
  | none => false
  | some b => !(e.inValid && decide (e.beat = b))

/-- What the host presents and the block does not accept at this edge stays presented (R250.1). -/
def keepPresented (e : Pins) (s : State) : State := { s with pend := if e.inValid then some e.beat else none }

/-- The machine runs the row that stands at its position: decoded in the position's format, then executed; or takes the
internal step to REPORT. -/
def runPosition (s : State) : Out :=
  match fetch s with
  | .finish => .next (toReport s)
  | .fault r => .fault r
  | .refused r => .refused r
  | .word f b =>
    match decode f b with
    | .ok (i, []) => exec i s
    | .ok (_, _ :: _) => .refused .unreachable
    | .error _ => .refused .unreachable

/-- An edge of a phase that takes input: the beat is transferred if `in_valid` and `in_ready` are 1 (R23), else nothing moves. -/
def inputEdge (e : Pins) (s : State) : Out :=
  if e.inValid && e.go then runPosition { s with pend := none } else .next (keepPresented e s)

/-- An edge with an output beat due: it is transferred if `out_valid` and `out_ready` are 1 (R23), stays offered if only
`out_valid` is 1 (R34), and is not offered yet otherwise. -/
def outputEdge (e : Pins) (s : State) : Out :=
  if s.outValid || e.go then
    if e.outReady then runPosition { keepPresented e s with outValid := false }
    else .next { keepPresented e s with outValid := true }
  else .next (keepPresented e s)

/-- An edge with an internal step enabled (E2 to E5, X2): it happens when the block chooses (R205). -/
def internalEdge (e : Pins) (s : State) : Out :=
  if e.go then runPosition (keepPresented e s) else .next (keepPresented e s)

/-- One rising edge of `clk` with the pins `e`: reset first (R240), then the host's obligation (R250.1, U7), then the phase. -/
def clockEdge (e : Pins) (s : State) : Out :=
  if e.rst then .next (resetEdge s)
  else if hostBreaks e s then .refused .hostUnstable
  else if acceptsInput s then inputEdge e s
  else if beatDue s then outputEdge e s
  else internalEdge e s

/-- The next edge of the script is processed; with no edge to come nothing changes (log 2). -/
def nextEdge (s : State) : Out :=
  match s.edges with
  | [] => .next s
  | e :: rest => clockEdge e { s with edges := rest, pins := e }

/-! ## Placing a table word where the next step fetches -/

/-- An edge at which both sides are willing: the host presents the beat, accepts output, and the block acts. -/
def willingEdge (op fin : Bool) (data : CodeUnit) : Pins :=
  { rst := false, inValid := true, inOp := op, inEnd := fin, inData := data, outReady := true, go := true }

/-- An edge at which the host presents nothing and accepts output, and the block acts. -/
def drainEdge : Pins := { Pins.low with outReady := true, go := true }

/-- ENC_EMIT with nothing pushed yet and the given count and width: the position of a header (R187 E2). -/
def atHeaderDue (count : BitVec 10) (wid : BitVec 4) (s : State) : State :=
  { s with ph := .encEmit, cnt := count, wid := wid, hdone := false, acc := [], nacc := 0 }

/-- ENC_EMIT with one element, of the given value and width, to push next: the position of an element (R187 E3). -/
def atElementDue (v : Nat) (w : Width) (s : State) : State :=
  { s with
    ph := .encEmit, cnt := 1, wid := widthReg w, eidx := 0, hdone := true, acc := [], nacc := 0,
    ebuf := Memory.write s.ebuf 0 (BitVec.ofNat 9 v) }

/-- The value of `WID` for a width-code; none is chosen for the reserved one. -/
def widReg (c : WidthCode) : BitVec 4 :=
  match wdec c with
  | .ok w => widthReg w
  | .err _ _ => 0

/-- The position at which a row stands, and the pins of the edge that runs it (log 6). A width-code and a row of a unit have
no position of their own between two steps: only the pins are set. -/
def placeRow (i : Instr) (s : State) : State × Pins :=
  match i with
  | .encodeCmd => ({ s with ph := .idle }, willingEdge false false 0)
  | .decodeCmd => ({ s with ph := .idle }, willingEdge true false 0)
  | .inBeat op fin data => ({ s with ph := if op then .decLoad else .encLoad }, willingEdge op fin data)
  | .hdrShort n c => (atHeaderDue (n.zeroExtend 10) (widReg c) s, drainEdge)
  | .hdrLong n c => (atHeaderDue n (widReg c) s, drainEdge)
  | .elem4 v => (atElementDue v.toNat .w4 s, drainEdge)
  | .elem7 v => (atElementDue v.toNat .w7 s, drainEdge)
  | .elem9 v => (atElementDue v.toNat .w9 s, drainEdge)
  | .padf k =>
    ({ s with ph := .encEmit, cnt := 0, eidx := 0, hdone := true, acc := zeros (6 - k), nacc := BitVec.ofNat 4 (6 - k) },
      drainEdge)
  | .outBeat fin data status =>
    (if fin then { s with ph := .report, status := status, info := data }
      else { s with ph := .decEmit, cnt := 1, eidx := 0, ebuf := Memory.write s.ebuf 0 (low9 data) }, drainEdge)
  | i =>
    match encode i with
    | some (.status, b) => ({ s with ph := .report, status := BitVec.ofNat 3 (val b) }, drainEdge)
    | some (.sym, b) => ({ s with ph := .encEmit, acc := b, nacc := 6 }, drainEdge)
    | _ => (s, drainEdge)

/-- The state with a table word placed where the next step fetches (log 5, log 6). -/
def placeWord (s : State) (nbits w : Nat) : State :=
  match decodeTableWord nbits w with
  | none => s
  | some i =>
    { (placeRow i s).1 with edges := (placeRow i s).2 :: s.edges, pend := none }

end Sys2Proof.Machine
end

