-- ==== Sys2Proof/Machine/Step.lean ====
section
/-! DEFINITION. One step of the machine: one rising edge of `clk` (Machine/Sequencer.lean). -/

namespace Sys2Proof.Machine

/-- One step (44_commands.md R205). -/
def step (s : State) : Host.Outcome State Fault Refusal := nextEdge s

/-- The state with a word of spec/opcode_table.json placed where step fetches its next row (log 5, log 6). -/
def State.withFetchWord (s : State) (nbits w : Nat) : State := placeWord s nbits w

end Sys2Proof.Machine
end

