-- ==== Sys2Proof/Machine/Fairness.lean ====
section
/-! DEFINITION. The block on an unending clock, and what the spec requires of the block and of the host there beyond single
steps: the weak fairness of the block (70_reset_and_hazards.md R255, 44_commands.md R205, 10_state.md R34; decision D14) and
the host's obligations (70_reset_and_hazards.md R250). State holds a finite script of edges (log 1); a `Clock` is a script
without an end, and is no part of State. -/

namespace Sys2Proof.Machine

/-- The pins at every rising edge to come. -/
abbrev Clock := Nat → Pins

/-- The outcome after the first `k` edges of the clock: one step an edge, each with that edge as its script. -/
def afterEdges (c : Clock) (s : State) : Nat → Out
  | 0 => .next s
  | k + 1 =>
    match afterEdges c s k with
    | .next t => step { t with edges := [c k] }
    | .fault r => .fault r
    | .refused r => .refused r

/-- Something waits for the block in this state: `in_ready` to rise in IDLE and the load phases, `out_valid` to rise where a
beat is due, or an internal step (R255). Not so only while a beat is offered: there the block waits for the host. -/
def awaitsBlock (s : State) : Bool := !(beatDue s && s.outValid)

/-- WEAK FAIRNESS of the block (R255, U12): what waits for the block does not wait for ever. From every edge on there is one at
which the block acts, unless there is one at which nothing waits for it: a beat is offered, or `rst` is 1 (R240). No bound is
given on how many edges pass before it. -/
def WeaklyFair (c : Clock) (s : State) : Prop :=
  ∀ n, ∃ m, n ≤ m ∧
    ((c m).go = true ∨ (c m).rst = true ∨ ∃ t, afterEdges c s m = .next t ∧ awaitsBlock t = false)

/-- R250 item 1, stability: the host keeps what it presents until it is transferred. -/
def HostStable (c : Clock) (s : State) : Prop :=
  ∀ n t, afterEdges c s n = .next t → (c n).rst = true ∨ hostBreaks (c n) t = false

/-- R250 item 3, completion: a host that has begun a transaction eventually presents its end beat. -/
def HostCompletes (c : Clock) (s : State) : Prop :=
  ∀ n t, afterEdges c s n = .next t → t.ph = .encLoad ∨ t.ph = .decLoad →
    ∃ m, n ≤ m ∧ (c m).inValid = true ∧ (c m).inEnd = true

/-- R250 item 4, draining: the host eventually raises `out_ready` whenever `out_valid` is 1. -/
def HostDrains (c : Clock) (s : State) : Prop :=
  ∀ n t, afterEdges c s n = .next t → outValidAt (c n) t = true → ∃ m, n ≤ m ∧ (c m).outReady = true

end Sys2Proof.Machine
end

