-- ==== Sys2Proof/Safety.lean ====
section
/-! DEFINITION. What counts as a safe state, and what the host is owed for the beats it sent, in the terms the statements
use. Nothing here is read by the machine. -/

namespace Sys2Proof.Machine

/-! ## The invariant -/

/-- Entries 0 to `n`-1 of the buffer are known and lie between `lo` and `hi` (10_state.md R41). -/
def Buffered (m : Memory) (n lo hi : Nat) : Prop :=
  ∀ i, i < n → ∃ v, Memory.read m i = some v ∧ lo ≤ v.toNat ∧ v.toNat ≤ hi

/-- `WID` holds 0 or a width of the ladder (10_state.md R27). -/
def LadderOrUnset (r : BitVec 4) : Prop := r = 0 ∨ ∃ w, r = widthReg w

/-- The reader's registers at each reader state (43_bit_unpacker.md R172; 10_state.md R29, R32). -/
def ReaderInv (s : State) : Prop :=
  match s.rs with
  | .flag => s.eidx = 0
  | .len => s.eidx = 0 ∧ 1 ≤ s.bcnt.toNat ∧ s.bcnt.toNat ≤ lenw s.flag ∧ s.sh.toNat < 2 ^ (lenw s.flag - s.bcnt.toNat)
  | .wc => s.eidx = 0 ∧ ((s.bcnt = 2 ∧ s.sh = 0) ∨ (s.bcnt = 1 ∧ s.sh.toNat ≤ 1))
  | .elem => ∃ w, s.wid = widthReg w ∧ 1 ≤ s.bcnt.toNat ∧ s.bcnt.toNat ≤ widthBits w ∧
      s.sh.toNat < 2 ^ (widthBits w - s.bcnt.toNat) ∧ s.eidx.toNat < s.cnt.toNat ∧
      Buffered s.ebuf s.eidx.toNat 0 (2 ^ widthBits w - 1)
  | .done => ∃ w, s.wid = widthReg w ∧ Buffered s.ebuf s.cnt.toNat 0 (2 ^ widthBits w - 1)
  | .badwc => True

/-- What holds in each phase (10_state.md R31; 44_commands.md R185 to R196). -/
def PhaseInv (s : State) : Prop :=
  match s.ph with
  | .idle => True
  | .encLoad => s.max.toNat ≤ Config.vMax ∧ (s.rerr = false → Buffered s.ebuf s.cnt.toNat Config.vMin s.max.toNat)
  | .encEmit => s.status = okCode ∧ s.info = 0 ∧ s.max.toNat ≤ Config.vMax ∧ s.wid = widthReg (wsel s.max.toNat) ∧
      s.eidx.toNat ≤ s.cnt.toNat ∧ Buffered s.ebuf s.cnt.toNat Config.vMin s.max.toNat ∧
      (s.hdone = false → s.acc = [] ∧ s.eidx = 0)
  | .decLoad => ReaderInv s ∧ (s.icerr = true → symdec s.badc = none)
  | .decEmit => s.status = okCode ∧ s.info = 0 ∧ s.eidx.toNat ≤ s.cnt.toNat ∧ Buffered s.ebuf s.cnt.toNat 0 511
  | .report => (s.status = 2 → symdec s.info = none) ∧ (s.status ≠ 2 → s.info = 0)

/-- The invariant of the block: EBUF is in its canonical form, `NACC` is the length of `ACC` and at most 14 (10_state.md R44),
`WID` stays on the ladder (R27), `STATUS` is one of the codes that are produced (R36), the phase's own facts hold, and
`out_valid` is raised only while a beat is due (R31). -/
structure Inv (s : State) : Prop where
  ebuf : Memory.wf s.ebuf = true
  nacc : s.nacc.toNat = s.acc.length
  room : s.acc.length ≤ 14
  wid : LadderOrUnset s.wid
  status : s.status.toNat ≤ 5
  phase : PhaseInv s
  valid : s.outValid = true → beatDue s = true

/-! ## What the host is owed -/

/-- The beats of a result (30_encoding.md R84): its items, then the end beat; on an error the end beat alone. -/
def responseOf {α : Type} (item : α → CodeUnit) : Result (List α) → List OutBeat
  | .ok vs => vs.map (fun v => { fin := false, data := item v, status := 0 }) ++
      [{ fin := true, data := 0, status := okCode }]
  | .err k info => [{ fin := true, data := info, status := errCode k }]

/-- The output of a transaction with this command and these `in_data` values (44_commands.md R200). -/
def respond (op : Bool) (data : List CodeUnit) : List OutBeat :=
  if op then responseOf (fun v => BitVec.ofNat 16 v) (decodeFn data)
  else responseOf (fun c => c) (encodeFn (data.map fun d => (d.toNat : Int)))

/-- The command of a transaction: `in_op` of its first beat (R183). -/
def firstOp : List InBeat → Bool
  | [] => false
  | b :: _ => b.op

/-- The output owed for a list of input beats, cut into transactions at the end beats; `cur` holds the data beats of the
transaction in progress. Nothing is owed for a transaction whose end beat has not come. -/
def responses (cur : List InBeat) : List InBeat → List OutBeat
  | [] => []
  | b :: rest =>
    if b.fin then respond (firstOp (cur ++ [b])) (cur.map InBeat.data) ++ responses [] rest
    else responses (cur ++ [b]) rest

/-! ## Where the machine goes -/

/-- An input beat is transferred at the edge (R23). -/
def beatTaken (e : Pins) (s : State) : Bool := e.inValid && inReady e s

/-- An output beat is transferred at the edge (R23). -/
def beatGiven (e : Pins) (s : State) : Bool := outValidAt e s && e.outReady

/-- The table of 44_commands.md R201: the phase after an edge without reset, by phase and event. -/
def phaseAfter (e : Pins) (s : State) : Phase :=
  match s.ph with
  | .idle =>
    if beatTaken e s then
      match e.inOp, e.inEnd with
      | false, false => .encLoad
      | false, true => .encEmit
      | true, false => .decLoad
      | true, true => .report
    else .idle
  | .encLoad =>
    if beatTaken e s && e.inEnd then if s.rerr || s.ovf then .report else .encEmit else .encLoad
  | .encEmit => if e.go && decide (emitStep s = .finish) then .report else .encEmit
  | .decLoad =>
    if beatTaken e s && e.inEnd then if !s.icerr && decide (s.rs = .done) then .decEmit else .report else .decLoad
  | .decEmit => if e.go && decide (s.eidx = s.cnt) then .report else .decEmit
  | .report => if beatGiven e s then .idle else .report

/-- The reader's registers after a width-code has been read (43_bit_unpacker.md R172): R_BADWC on `11`, R_DONE for a count of
0, else R_ELEM with the width in `WID` and `BCNT`. -/
def afterWidthCode (c : WidthCode) (s : State) : State :=
  match c with
  | .wc00 => toElements 4 s
  | .wc01 => toElements 7 s
  | .wc10 => toElements 9 s
  | .wc11 => { s with sh := 0, eidx := 0, bcnt := 1, rs := .badwc }
where
  /-- `WID` set, and R_DONE or R_ELEM. -/
  toElements (w : BitVec 4) (s : State) : State :=
    if s.cnt = 0 then { s with sh := 0, eidx := 0, bcnt := 1, wid := w, rs := .done }
    else { s with sh := 0, eidx := 0, bcnt := w, wid := w, rs := .elem }

/-! ## Runs -/

/-- `k` steps of the machine. -/
def runSteps (k : Nat) (s : State) : Out := Host.Core.run core k s

/-- `u` is `t` after some waiting: every register, EBUF and the records of beats are the same; only the pins, the script, what
the host presents and `out_valid` may differ. -/
def Waited (t u : State) : Prop :=
  u = { t with pins := u.pins, outValid := u.outValid, edges := u.edges, pend := u.pend }

/-- No edge of the script resets the block. -/
def noReset (edges : List Pins) : Prop := ∀ e ∈ edges, e.rst = false

/-- The willing edges of one transaction (70_reset_and_hazards.md R250): its data beats, its end beat, then edges at which
the host accepts output; the block acts at each. -/
def willingScript (op : Bool) (data : List CodeUnit) (drains : Nat) : List Pins :=
  data.map (willingEdge op false) ++ willingEdge op true 0 :: List.replicate drains drainEdge

/-- The steps after the input end beat that a transaction may take (R255): the internal steps, one a symbol or element, and
the end beat. -/
def drainBound (op : Bool) (data : List CodeUnit) : Nat :=
  if op then (respond op data).length + 1 else (respond op data).length + data.length + 3

end Sys2Proof.Machine
end

