-- ==== Sys2Proof/Certificates/Slice0/Obligations.lean ====
section
/-! DEFINITION. The statements for the provers. Each docstring names the rule it formalises; a statement that rests on a
choice of the model names the log entry, and one that rests on a rule the spec itself marks `[derived: …]` says so. Bits are
lists, first bit first; `.next t` is a next state. -/

open Sys2Proof Sys2Proof.Machine

/-! ## Encodings -/

/-- Every well-formed row with an encoding decodes to itself, whatever bits follow (30_encoding.md R70 to R84). -/
def Obligations.DecodeInvertsEncode : Prop :=
  ∀ (i : Instr) (f : Format) (b rest : Bits), wellFormed i = true → encode i = some (f, b) →
    decode f (b ++ rest) = .ok (i, rest)

/-- Bits that decode to a row are that row's encoding, bit for bit; only padding bits may have any value (R79, R86). -/
def Obligations.DecodedBitsAreTheEncoding : Prop :=
  ∀ (f : Format) (b rest : Bits) (i : Instr), decode f b = .ok (i, rest) →
    ∃ b', b = b' ++ rest ∧ (encode i = some (f, b') ∨ ∃ k, f = .padf k ∧ i = .padf k ∧ b'.length = k)

/-- Words written out from 30_encoding.md decode to their rows: the commands (R71), a short and a long header (R72, R73), the
reserved width-code (R78), an element (R79), 'k' (R80), a beat of each channel (R83, R84), a status code (10_state.md R36). -/
def Obligations.WrittenWordsDecode : Prop :=
  decode .cmd [false] = .ok (.encodeCmd, []) ∧
  decode .cmd [true] = .ok (.decodeCmd, []) ∧
  decode .hdr [false, false, false, false, false, true, true, false, false] = .ok (.hdrShort 3 .wc00, []) ∧
  decode .hdr [true, false, true, false, false, true, false, true, true, false, false, true, false]
    = .ok (.hdrLong 300 .wc10, []) ∧
  decode .wcode [true, true] = .ok (.wcRsvd, []) ∧
  decode (.elem .w9) [true, false, false, true, false, true, true, false, false] = .ok (.elem9 300, []) ∧
  decode .sym [true, false, false, true, false, false] = .ok (.sym36, []) ∧
  decode .inBeat (true :: false :: bin 16 66) = .ok (.inBeat true false 66, []) ∧
  decode .outBeat (true :: (bin 16 35 ++ [false, true, false])) = .ok (.outBeat true 35 2, []) ∧
  decode .status [true, false, true] = .ok (.stTruncatedInput, [])

/-- R81: the symbol table as arithmetic, both ways, on every index and on all 65536 code units.
The spec marks the rule as derived. -/
def Obligations.SymbolTableIsArithmetic : Prop :=
  (∀ i, i < 64 → (symenc i).toNat =
    if i ≤ 25 then 65 + i else if i ≤ 51 then 71 + i else if i ≤ 61 then i - 4 else if i = 62 then 43 else 47) ∧
  (∀ c : CodeUnit, symdec c =
    if 65 ≤ c.toNat ∧ c.toNat ≤ 90 then some (c.toNat - 65)
    else if 97 ≤ c.toNat ∧ c.toNat ≤ 122 then some (c.toNat - 71)
    else if 48 ≤ c.toNat ∧ c.toNat ≤ 57 then some (c.toNat + 4)
    else if c.toNat = 43 then some 62 else if c.toNat = 47 then some 63 else none)

/-! ## The function level -/

/-- R146, R149: SYMDEC and SYMENC are inverse to each other, and UNCHUNK undoes SYMBOLS.
The spec marks both rules as derived. -/
def Obligations.SymbolCodecInverses : Prop :=
  (∀ i, i < 64 → symdec (symenc i) = some i) ∧
  (∀ (c : CodeUnit) (i : Nat), symdec c = some i → i < 64 ∧ symenc i = c) ∧
  (∀ b : Bits, b.length % 6 = 0 → unchunk (symbols b) = .ok b)

/-- R165: HPARSE undoes HDR, whatever bits follow.
The spec marks the rule as derived. -/
def Obligations.HparseInvertsHdr : Prop :=
  ∀ (n : Nat) (w : Width) (x : Bits), n ≤ 1023 → hparse (hdr n w ++ x) = .ok (n, w, hlen n)

/-- R60: the map of the bit string. Header fields, every element, padding, total length and number of symbols, by position.
The spec marks the rule as derived. -/
def Obligations.BitStringMap : Prop :=
  ∀ (seq : List Nat) (w : Width), seq.length ≤ 1023 → (∀ v ∈ seq, v < 2 ^ widthBits w) →
    let n := seq.length
    let f := decide (64 ≤ n)
    let len := if f then 10 else 6
    let h := 1 + len + 2
    let p := 6 * ((h + n * widthBits w + 5) / 6)
    (pack seq w).length = p ∧ (symbols (pack seq w)).length = (h + n * widthBits w + 5) / 6 ∧
    (pack seq w).head? = some f ∧
    ((pack seq w).drop 1).take len = bin len n ∧
    ((pack seq w).drop (1 + len)).take 2 = wcode w ∧
    (∀ i v, seq[i]? = some v → ((pack seq w).drop (h + i * widthBits w)).take (widthBits w) = bin (widthBits w) v) ∧
    (pack seq w).drop (h + n * widthBits w) = zeros (p - (h + n * widthBits w))

/-- R216: ENCODE reports RANGE_ERROR whenever an element is out of range, else LENGTH_ERROR from 1024 elements on, else a
symbol string. -/
def Obligations.EncodeErrorPriority : Prop :=
  ∀ seq : List Int,
    ((∃ v ∈ seq, v < 1 ∨ 300 < v) → encodeFn seq = .err .rangeError 0) ∧
    ((∀ v ∈ seq, 1 ≤ v ∧ v ≤ 300) → 1024 ≤ seq.length → encodeFn seq = .err .lengthError 0) ∧
    ((∀ v ∈ seq, 1 ≤ v ∧ v ≤ 300) → seq.length ≤ 1023 → ∃ t, encodeFn seq = .ok t)

/-- R217: DECODE reports the first that applies: a code unit outside the alphabet anywhere, the header cut short, the
width-code `11`, the elements cut short; otherwise exactly `count` elements. -/
def Obligations.DecodeErrorPriority : Prop :=
  (∀ (t : List CodeUnit) (c : CodeUnit), t.find? (fun x => (symdec x).isNone) = some c →
    decodeFn t = .err .invalidCharacter c) ∧
  (∀ (t : List CodeUnit) (b : Bits), unchunk t = .ok b →
    let h := if b.head? = some true then 13 else 9
    let n := val ((b.drop 1).take (h - 3))
    let c := val ((b.drop (h - 2)).take 2)
    let need := h + n * (if c = 0 then 4 else if c = 1 then 7 else 9)
    (b.length < h → decodeFn t = .err .truncatedInput 0) ∧
    (h ≤ b.length → c = 3 → decodeFn t = .err .invalidWidthCode 0) ∧
    (h ≤ b.length → c ≠ 3 → b.length < need → decodeFn t = .err .truncatedInput 0) ∧
    (h ≤ b.length → c ≠ 3 → need ≤ b.length → ∃ vs, decodeFn t = .ok vs ∧ vs.length = n))

/-- R167: the bits after the last element have no effect on the result, whatever their number and values. -/
def Obligations.LeftoverBitsIgnored : Prop :=
  ∀ (b x : Bits) (n p : Nat) (w : Width), hparse b = .ok (n, w, p) → p + n * widthBits w ≤ b.length →
    unpack (b.take (p + n * widthBits w) ++ x) = unpack b

/-- R144, R181: every symbol of an encoded string is in the alphabet (no terminator, no line break), and the length of the
string.
The spec marks both rules as derived. -/
def Obligations.EncodedAlphabetAndLength : Prop :=
  ∀ (seq : List Int) (t : List CodeUnit), encodeFn seq = .ok t →
    (∀ c ∈ t, c ∈ alphabet) ∧
    t.length = (hlen seq.length + seq.length * widthBits (seqWidth (seq.map Int.toNat)) + 5) / 6 ∧
    2 ≤ t.length ∧ t.length ≤ 1537

/-- R101: one width for the whole sequence, chosen by the decimal thresholds on its maximum: the header of the encoded
string says so. -/
def Obligations.WidthFollowsMaximum : Prop :=
  ∀ (seq : List Int) (t : List CodeUnit), encodeFn seq = .ok t →
    ∃ b w, unchunk t = .ok b ∧ hparse b = .ok (seq.length, w, hlen seq.length) ∧
      ((∃ v ∈ seq, 100 ≤ v) → w = .w9) ∧
      ((∃ v ∈ seq, 10 ≤ v) → (∀ v ∈ seq, v ≤ 99) → w = .w7) ∧
      ((∀ v ∈ seq, v ≤ 9) → w = .w4)

/-- R203: the round trip, for 0 to 1023 elements in 1..300; the converse is false ("AB" decodes to the empty sequence, which
encodes to "AA").
The spec marks the rule as derived. -/
def Obligations.RoundTrip : Prop :=
  (∀ seq : List Nat, seq.length ≤ 1023 → (∀ v ∈ seq, 1 ≤ v ∧ v ≤ 300) →
    ∃ t, encodeFn (seq.map fun v => (v : Int)) = .ok t ∧ decodeFn t = .ok seq) ∧
  (∃ t u : List CodeUnit, decodeFn t = .ok [] ∧ encodeFn [] = .ok u ∧ u ≠ t)

/-- R175: the bit-serial reader, run over any bit string from its start state, agrees with UNPACK; and once it is in R_DONE or
R_BADWC further bits change nothing.
The spec marks the rule as derived. -/
def Obligations.SerialReaderAgrees : Prop :=
  (∀ (b : Bits) (s : State), s.rs = .flag → s.flag = false → s.bcnt = 0 → s.sh = 0 → s.cnt = 0 → s.wid = 0 →
    s.eidx = 0 →
    ∃ t, feedBits b s = .next t ∧
      match unpack b with
      | .ok vs => t.rs = .done ∧ t.cnt.toNat = vs.length ∧
          (∃ w p, hparse b = .ok (vs.length, w, p) ∧ t.wid = widthReg w) ∧
          (∀ i v, vs[i]? = some v → ∃ u, Memory.read t.ebuf i = some u ∧ u.toNat = v)
      | .err .invalidWidthCode _ => t.rs = .badwc
      | .err _ _ => t.rs = .flag ∨ t.rs = .len ∨ t.rs = .wc ∨ t.rs = .elem) ∧
  (∀ (b : Bits) (s : State), s.rs = .done ∨ s.rs = .badwc → feedBits b s = .next s)

/-! ## The units as operations -/

/-- R100, R103, R105, R106, R108: the header formatter's units drive these results and change no register. -/
def Obligations.HeaderUnitsResult : Prop :=
  (∀ m s, exec (.wsel m) s =
    .next { s with unitOut := some (.ok (.width (if m < 10 then .w4 else if m < 100 then .w7 else .w9))) }) ∧
  (∀ s, exec (.wcode .w4) s = .next { s with unitOut := some (.ok (.bits [false, false])) } ∧
    exec (.wcode .w7) s = .next { s with unitOut := some (.ok (.bits [false, true])) } ∧
    exec (.wcode .w9) s = .next { s with unitOut := some (.ok (.bits [true, false])) }) ∧
  (∀ n s, exec (.lflag n) s = .next { s with unitOut := some (.ok (.bit (decide (64 ≤ n.toNat)))) }) ∧
  (∀ s, exec (.lenw false) s = .next { s with unitOut := some (.ok (.num 6)) } ∧
    exec (.lenw true) s = .next { s with unitOut := some (.ok (.num 10)) }) ∧
  (∀ n w s, exec (.hdr n w) s = .next { s with unitOut := some (.ok (.bits
    (if n.toNat < 64 then false :: (bin 6 n.toNat ++ wcode w) else true :: (bin 10 n.toNat ++ wcode w)))) })

/-- R120, R125, R127: RANGECHK passes exactly when every element is in 1..300, and raises RangeError otherwise; PAD appends the
fewest zeros that make the length a multiple of 6; TOTBITS is HLEN + n*w. The spec marks R127 as derived. -/
def Obligations.RangechkPadTotbitsResult : Prop :=
  (∀ (seq : List Int) (s : State), (∀ v ∈ seq, 1 ≤ v ∧ v ≤ 300) →
    exec (.rangechk seq) s = .next { s with unitOut := some (.ok .pass) }) ∧
  (∀ (seq : List Int) (s : State), (∃ v ∈ seq, v < 1 ∨ 300 < v) →
    exec (.rangechk seq) s = .next { s with unitOut := some (.err .rangeError 0) }) ∧
  (∀ (b : Bits) (s : State), ∃ k, k ≤ 5 ∧ (b.length + k) % 6 = 0 ∧
    exec (.pad b) s = .next { s with unitOut := some (.ok (.bits (b ++ zeros k))) }) ∧
  (∀ (n : Nat) (w : Width) (s : State), exec (.totbits n w) s =
    .next { s with unitOut := some (.ok (.num ((if n < 64 then 9 else 13) + n * widthBits w))) })

/-- R123, R128: EMIT drives n*w bits, element i at the width from bit i*w on; PACK drives header and elements with the fewest
zeros after them that make the length a multiple of 6. -/
def Obligations.EmitAndPackResult : Prop :=
  ∀ (seq : List Nat) (w : Width) (s : State), (∀ v ∈ seq, v < 2 ^ widthBits w) →
    ∃ b, exec (.emit seq w) s = .next { s with unitOut := some (.ok (.bits b)) } ∧
      b.length = seq.length * widthBits w ∧
      (∀ i v, seq[i]? = some v → (b.drop (i * widthBits w)).take (widthBits w) = bin (widthBits w) v) ∧
      (seq.length ≤ 1023 → ∃ k, k ≤ 5 ∧ (hlen seq.length + b.length + k) % 6 = 0 ∧
        exec (.pack seq w) s =
          .next { s with unitOut := some (.ok (.bits (hdr seq.length w ++ b ++ zeros k))) })

/-- R140, R143: CHUNK cuts a string of a length that is a multiple of 6 into its consecutive chunks of 6 bits, and SYMBOLS
maps each chunk's value to its symbol, in order. -/
def Obligations.ChunkAndSymbolsResult : Prop :=
  ∀ (b : Bits) (s : State), b.length % 6 = 0 →
    ∃ cs, exec (.chunk b) s = .next { s with unitOut := some (.ok (.chunks cs)) } ∧
      cs.flatten = b ∧ (∀ c ∈ cs, c.length = 6) ∧ cs.length = b.length / 6 ∧
      exec (.symbols b) s = .next { s with unitOut := some (.ok (.units (cs.map fun c => symenc (val c)))) }

/-- R142, R145, R147, R148: SYMENC drives the code unit at its index of the alphabet, SYMDEC the index of a code unit or
InvalidCharacter with it, EXPAND the six bits of an index, UNCHUNK the bits of the indices in order or InvalidCharacter with
the first code unit outside the alphabet, wherever it stands. -/
def Obligations.SymbolUnitsResult : Prop :=
  (∀ (i : BitVec 6) (s : State), ∃ c, alphabet[i.toNat]? = some c ∧
    exec (.symenc i) s = .next { s with unitOut := some (.ok (.unit c)) }) ∧
  (∀ (i : Nat) (c : CodeUnit) (s : State), alphabet[i]? = some c →
    exec (.symdec c) s = .next { s with unitOut := some (.ok (.num i)) }) ∧
  (∀ (c : CodeUnit) (s : State), c ∉ alphabet →
    exec (.symdec c) s = .next { s with unitOut := some (.err .invalidCharacter c) }) ∧
  (∀ (i : BitVec 6) (s : State), exec (.expand i) s = .next { s with unitOut := some (.ok (.bits (bin 6 i.toNat))) }) ∧
  (∀ (is : List Nat) (s : State), (∀ i ∈ is, i < 64) →
    exec (.unchunk (is.map symenc)) s = .next { s with unitOut := some (.ok (.bits (is.map (bin 6)).flatten)) }) ∧
  (∀ (is : List Nat) (c : CodeUnit) (rest : List CodeUnit) (s : State), (∀ i ∈ is, i < 64) → c ∉ alphabet →
    exec (.unchunk (is.map symenc ++ c :: rest)) s = .next { s with unitOut := some (.err .invalidCharacter c) })

/-- R161, R162: READ drives the value of the next k bits and the cursor after them, or TruncatedInput when they pass the
end; WDEC maps 0, 1, 2 to 4, 7, 9 and raises InvalidWidthCode on 3. -/
def Obligations.ReadAndWdecResult : Prop :=
  (∀ (x y z : Bits) (s : State), exec (.read (x ++ y ++ z) x.length y.length) s =
    .next { s with unitOut := some (.ok (.readAt (val y) (x.length + y.length))) }) ∧
  (∀ (b : Bits) (p k : Nat) (s : State), b.length < p + k →
    exec (.read b p k) s = .next { s with unitOut := some (.err .truncatedInput 0) }) ∧
  (∀ s, exec (.wdec .wc00) s = .next { s with unitOut := some (.ok (.width .w4)) } ∧
    exec (.wdec .wc01) s = .next { s with unitOut := some (.ok (.width .w7)) } ∧
    exec (.wdec .wc10) s = .next { s with unitOut := some (.ok (.width .w9)) } ∧
    exec (.wdec .wc11) s = .next { s with unitOut := some (.err .invalidWidthCode 0) })

/-- R164: HPARSE on a header of either length followed by anything, and on bits that end inside a header. -/
def Obligations.HparseResult : Prop :=
  (∀ (n : Nat) (c : WidthCode) (w : Width) (x : Bits) (s : State), n < 64 → wdec c = .ok w →
    exec (.hparse (false :: (bin 6 n ++ bin 2 (wcNat c) ++ x))) s =
      .next { s with unitOut := some (.ok (.header n w 9)) }) ∧
  (∀ (n : Nat) (c : WidthCode) (w : Width) (x : Bits) (s : State), n < 1024 → wdec c = .ok w →
    exec (.hparse (true :: (bin 10 n ++ bin 2 (wcNat c) ++ x))) s =
      .next { s with unitOut := some (.ok (.header n w 13)) }) ∧
  (∀ (l : Bits) (f : Bool) (x : Bits) (s : State), l.length = (if f then 10 else 6) →
    exec (.hparse (f :: (l ++ true :: true :: x))) s =
      .next { s with unitOut := some (.err .invalidWidthCode 0) }) ∧
  (∀ (b : Bits) (s : State), b.length < 9 ∨ (b.head? = some true ∧ b.length < 13) →
    exec (.hparse b) s = .next { s with unitOut := some (.err .truncatedInput 0) })

/-- R166, R168: ELEMS reads n consecutive values of w bits from the cursor, or raises TruncatedInput when they pass the end;
UNPACK is the header parser and then the element reader, with the first error that arises. -/
def Obligations.ElemsAndUnpackResult : Prop :=
  (∀ (x z : Bits) (vs : List Nat) (w : Width) (s : State), (∀ v ∈ vs, v < 2 ^ widthBits w) →
    exec (.elems (x ++ emit vs w ++ z) x.length vs.length w) s = .next { s with unitOut := some (.ok (.values vs)) }) ∧
  (∀ (b : Bits) (p n : Nat) (w : Width) (s : State), p ≤ b.length → b.length < p + n * widthBits w →
    exec (.elems b p n w) s = .next { s with unitOut := some (.err .truncatedInput 0) }) ∧
  (∀ (b : Bits) (n p : Nat) (w : Width) (vs : List Nat) (s : State), hparse b = .ok (n, w, p) → elems b p n w = .ok vs →
    exec (.unpack b) s = .next { s with unitOut := some (.ok (.values vs)) }) ∧
  (∀ (b : Bits) (n p : Nat) (w : Width) (k : ErrKind) (i : CodeUnit) (s : State), hparse b = .ok (n, w, p) →
    elems b p n w = .err k i → exec (.unpack b) s = .next { s with unitOut := some (.err k i) }) ∧
  (∀ (b : Bits) (k : ErrKind) (i : CodeUnit) (s : State), hparse b = .err k i →
    exec (.unpack b) s = .next { s with unitOut := some (.err k i) })

/-- Files 40 to 43 ("pure function with no state, no flags"): every row of a unit but RDSTEP completes in every state, on any
operands, and changes no register, flag, entry of EBUF or beat; only the driven result changes (that it has a field of its
own, and that operands outside a rule's domain run with a free value, are the model's choices, log 7 and log 11). -/
def Obligations.UnitRowsChangeNoRegister : Prop :=
  ∀ (i : Instr) (s : State), encode i = none → (∀ x, i ≠ .rdstep x) →
    ∃ r, exec i s = .next { s with unitOut := some r }

/-! ## The reader -/

/-- R172: RDSTEP at each reader state. `SH'` = 2*SH + x, `BCNT'` = BCNT - 1. That the second and third clauses also hold for a
`BCNT` of 0 (it wraps to 15) and a `SH` above 511 (the low 10 bits are kept), which never occur, is the model's choice (log 17). -/
def Obligations.RdstepFollowsItsTable : Prop :=
  ∀ (x : Bool) (s : State), s.ph = .decLoad →
    let sh' := 2 * s.sh.toNat + x.toNat
    (s.rs = .flag → exec (.rdstep x) s =
      .next { s with flag := x, bcnt := if x then 10 else 6, sh := 0, rs := .len }) ∧
    ((s.rs = .len ∨ s.rs = .wc ∨ s.rs = .elem) → s.bcnt ≠ 1 → exec (.rdstep x) s =
      .next { s with sh := BitVec.ofNat 10 sh', bcnt := s.bcnt - 1 }) ∧
    (s.rs = .len → s.bcnt = 1 → exec (.rdstep x) s =
      .next { s with cnt := BitVec.ofNat 10 sh', sh := 0, bcnt := 2, rs := .wc }) ∧
    (s.rs = .wc → s.bcnt = 1 → sh' = 3 → exec (.rdstep x) s = .next { s with sh := 0, eidx := 0, rs := .badwc }) ∧
    (s.rs = .wc → s.bcnt = 1 → sh' < 3 → s.cnt = 0 → exec (.rdstep x) s =
      .next { s with sh := 0, eidx := 0, wid := if sh' = 0 then 4 else if sh' = 1 then 7 else 9, rs := .done }) ∧
    (s.rs = .wc → s.bcnt = 1 → sh' < 3 → s.cnt ≠ 0 → exec (.rdstep x) s =
      .next { s with sh := 0, eidx := 0, wid := if sh' = 0 then 4 else if sh' = 1 then 7 else 9,
                     bcnt := if sh' = 0 then 4 else if sh' = 1 then 7 else 9, rs := .elem }) ∧
    (s.rs = .elem → s.bcnt = 1 → s.eidx.toNat < 1023 → s.eidx + 1 = s.cnt → exec (.rdstep x) s =
      .next { s with ebuf := Memory.write s.ebuf s.eidx.toNat (BitVec.ofNat 9 sh'), eidx := s.eidx + 1, sh := 0,
                     rs := .done }) ∧
    (s.rs = .elem → s.bcnt = 1 → s.eidx.toNat < 1023 → s.eidx + 1 ≠ s.cnt → exec (.rdstep x) s =
      .next { s with ebuf := Memory.write s.ebuf s.eidx.toNat (BitVec.ofNat 9 sh'), eidx := s.eidx + 1, sh := 0,
                     bcnt := s.wid }) ∧
    ((s.rs = .done ∨ s.rs = .badwc) → exec (.rdstep x) s = .next s)

/-- R72, R73, R76, R78, R162, R164: a header of either form read by the reader from R_FLAG leaves its flag, its count and what
its width-code says (every count is accepted in a long header, R86); a width-code read on its own where the reader expects
one sets the width, or goes to R_BADWC on `11`. That such a row, executed in DEC_LOAD, is its bits going through RDSTEP is the
model's deduction (log 9, DEDUCED). -/
def Obligations.HeaderAndWidthCodeRead : Prop :=
  (∀ (s : State) (c : WidthCode), s.ph = .decLoad → s.icerr = false → s.rs = .flag →
    (∀ n : BitVec 6, exec (.hdrShort n c) s =
      .next (afterWidthCode c { s with flag := false, cnt := n.zeroExtend 10 })) ∧
    (∀ n : BitVec 10, exec (.hdrLong n c) s = .next (afterWidthCode c { s with flag := true, cnt := n }))) ∧
  (∀ s : State, s.ph = .decLoad → s.icerr = false → s.rs = .wc → s.bcnt = 2 → s.sh = 0 →
    exec .wc4 s = .next (afterWidthCode .wc00 s) ∧ exec .wc7 s = .next (afterWidthCode .wc01 s) ∧
    exec .wc9 s = .next (afterWidthCode .wc10 s) ∧ exec .wcRsvd s = .next (afterWidthCode .wc11 s))

/-- R79, R172, R206: an element read by the reader is stored at `EBUF[EIDX]`, and nowhere else; no range check (R169). That the row,
executed in DEC_LOAD, is its bits going through RDSTEP is the model's deduction (log 9, DEDUCED). -/
def Obligations.ElementRead : Prop :=
  ∀ (s : State) (w : Width) (v : Nat), s.ph = .decLoad → s.icerr = false → s.rs = .elem → s.wid = widthReg w →
    s.bcnt = widthReg w → s.sh = 0 → s.eidx.toNat < 1023 → v < 2 ^ widthBits w →
    ∃ m, exec (elemInstr w v) s = .next { s with
        ebuf := m, eidx := s.eidx + 1, sh := 0, rs := if s.eidx + 1 = s.cnt then .done else .elem,
        bcnt := if s.eidx + 1 = s.cnt then 1 else s.wid } ∧
      Memory.read m s.eidx.toNat = some (BitVec.ofNat 9 v) ∧
      ∀ a, a ≠ s.eidx.toNat → Memory.read m a = Memory.read s.ebuf a

/-! ## Starting a transaction -/

/-- R183, R185, R186, R201: what ENCODE leaves after its first beat, for the empty sequence and for a first element in and out
of range. -/
def Obligations.EncodeCommandResult : Prop :=
  ∀ s : State, s.ph = .idle →
    let s0 := { initRegs s with inLog := s.inLog ++ [InBeat.mk false s.pins.inEnd s.pins.inData] }
    (s.pins.inEnd = true → exec .encodeCmd s = .next { s0 with wid := 4, ph := .encEmit }) ∧
    (s.pins.inEnd = false → 1 ≤ s.pins.inData.toNat → s.pins.inData.toNat ≤ 300 → exec .encodeCmd s =
      .next { s0 with ph := .encLoad, cnt := 1, max := low9 s.pins.inData,
                      ebuf := Memory.write s.ebuf 0 (low9 s.pins.inData) }) ∧
    (s.pins.inEnd = false → s.pins.inData.toNat = 0 ∨ 300 < s.pins.inData.toNat → exec .encodeCmd s =
      .next { s0 with ph := .encLoad, cnt := 1, rerr := true })

/-- R183, R193, R194, R201: what DECODE leaves after its first beat: TRUNCATED_INPUT for the empty string, `ICERR` and `BADC`
for a code unit outside the alphabet, and for a symbol the length-flag and the first length bits (20_memory.md R51). -/
def Obligations.DecodeCommandResult : Prop :=
  ∀ s : State, s.ph = .idle →
    let s0 := { initRegs s with inLog := s.inLog ++ [InBeat.mk true s.pins.inEnd s.pins.inData] }
    (s.pins.inEnd = true → exec .decodeCmd s = .next { s0 with status := 5, ph := .report }) ∧
    (s.pins.inEnd = false → s.pins.inData ∉ alphabet → exec .decodeCmd s =
      .next { s0 with ph := .decLoad, icerr := true, badc := s.pins.inData }) ∧
    (∀ i, i < 32 → s.pins.inEnd = false → s.pins.inData = symenc i → exec .decodeCmd s =
      .next { s0 with ph := .decLoad, rs := .len, flag := false, bcnt := 1, sh := BitVec.ofNat 10 i }) ∧
    (∀ i, 32 ≤ i → i < 64 → s.pins.inEnd = false → s.pins.inData = symenc i → exec .decodeCmd s =
      .next { s0 with ph := .decLoad, rs := .len, flag := true, bcnt := 5, sh := BitVec.ofNat 10 (i - 32) })

/-- R183, R67: leaving IDLE sets every register to its reset value (EBUF is left as it is) and the phase by `in_op`, and the
same beat is then processed by that phase's rule; the command rows take the rest of the beat from the pins. `in_op` is read
on that beat only: on any later beat of the transaction it has no effect (it is only in the record of the beats, log 8). -/
def Obligations.CommandBitReadOnce : Prop :=
  (∀ (s : State) (op fin : Bool) (d : CodeUnit), s.ph = .idle →
    let s0 := { s with
      ph := if op then .decLoad else .encLoad, cnt := 0, max := 0, wid := 0, eidx := 0, hdone := false, acc := [],
      nacc := 0, rs := .flag, flag := false, bcnt := 0, sh := 0, rerr := false, ovf := false, icerr := false, badc := 0,
      status := 0, info := 0 }
    exec (.inBeat op fin d) s = exec (.inBeat op fin d) s0 ∧
    exec .encodeCmd s = exec (.inBeat false s.pins.inEnd s.pins.inData) s ∧
    exec .decodeCmd s = exec (.inBeat true s.pins.inEnd s.pins.inData) s) ∧
  (∀ s : State, s.ph ≠ .idle → exec .encodeCmd s = .next s ∧ exec .decodeCmd s = .next s) ∧
  (∀ (s t u : State) (fin : Bool) (d : CodeUnit), s.ph ≠ .idle → exec (.inBeat false fin d) s = .next t →
    exec (.inBeat true fin d) s = .next u → { u with inLog := t.inLog } = t)

/-! ## The load phases -/

/-- R185, R206: an element beat in ENC_LOAD. An element in range is stored at `EBUF[CNT]`, its low 9 bits, and no other entry
changes (the index is the one the meaning computes, `CNT`); otherwise no entry changes. -/
def Obligations.EncLoadDataBeat : Prop :=
  ∀ (s : State) (op : Bool) (v : CodeUnit), s.ph = .encLoad →
    let s1 := { s with inLog := s.inLog ++ [InBeat.mk op false v] }
    let good := 1 ≤ v.toNat ∧ v.toNat ≤ 300
    (s.cnt = 1023 → good → exec (.inBeat op false v) s = .next { s1 with ovf := true }) ∧
    (s.cnt = 1023 → ¬ good → exec (.inBeat op false v) s = .next { s1 with ovf := true, rerr := true }) ∧
    (s.cnt ≠ 1023 → good → ∃ m, exec (.inBeat op false v) s =
        .next { s1 with ebuf := m, cnt := s.cnt + 1, max := if s.max.toNat < v.toNat then low9 v else s.max } ∧
      Memory.read m s.cnt.toNat = some (BitVec.ofNat 9 v.toNat) ∧
      ∀ a, a ≠ s.cnt.toNat → Memory.read m a = Memory.read s.ebuf a) ∧
    (s.cnt ≠ 1023 → ¬ good → exec (.inBeat op false v) s = .next { s1 with rerr := true, cnt := s.cnt + 1 })

/-- R186: the end beat in ENC_LOAD: RANGE_ERROR, LENGTH_ERROR, or the width fixed and ENC_EMIT. -/
def Obligations.EncLoadEndBeat : Prop :=
  ∀ (s : State) (op : Bool) (d : CodeUnit), s.ph = .encLoad →
    let s1 := { s with inLog := s.inLog ++ [InBeat.mk op true d] }
    (s.rerr = true → exec (.inBeat op true d) s = .next { s1 with status := 1, info := 0, ph := .report }) ∧
    (s.rerr = false → s.ovf = true →
      exec (.inBeat op true d) s = .next { s1 with status := 4, info := 0, ph := .report }) ∧
    (s.rerr = false → s.ovf = false → exec (.inBeat op true d) s =
      .next { s1 with wid := if s.max.toNat < 10 then 4 else if s.max.toNat < 100 then 7 else 9, status := 0, info := 0,
                      eidx := 0, hdone := false, acc := [], nacc := 0, ph := .encEmit })

/-- R193: a character beat in DEC_LOAD: ignored once `ICERR` is 1, recorded if it is the first outside the alphabet, else its
six bits through the reader, most significant first. -/
def Obligations.DecLoadDataBeat : Prop :=
  ∀ (s : State) (op : Bool) (c : CodeUnit), s.ph = .decLoad →
    let s1 := { s with inLog := s.inLog ++ [InBeat.mk op false c] }
    (s.icerr = true → exec (.inBeat op false c) s = .next s1) ∧
    (s.icerr = false → c ∉ alphabet → exec (.inBeat op false c) s = .next { s1 with icerr := true, badc := c }) ∧
    (∀ i, i < 64 → s.icerr = false → c = symenc i → exec (.inBeat op false c) s =
      feedBits [decide (i / 32 % 2 = 1), decide (i / 16 % 2 = 1), decide (i / 8 % 2 = 1), decide (i / 4 % 2 = 1),
        decide (i / 2 % 2 = 1), decide (i % 2 = 1)] s1)

/-- R194: the end beat in DEC_LOAD: INVALID_CHARACTER with `BADC`, INVALID_WIDTH_CODE, OK and DEC_EMIT, or TRUNCATED_INPUT. -/
def Obligations.DecLoadEndBeat : Prop :=
  ∀ (s : State) (op : Bool) (d : CodeUnit), s.ph = .decLoad →
    let s1 := { s with inLog := s.inLog ++ [InBeat.mk op true d] }
    (s.icerr = true → exec (.inBeat op true d) s = .next { s1 with status := 2, info := s.badc, ph := .report }) ∧
    (s.icerr = false → s.rs = .badwc →
      exec (.inBeat op true d) s = .next { s1 with status := 3, info := 0, ph := .report }) ∧
    (s.icerr = false → s.rs = .done →
      exec (.inBeat op true d) s = .next { s1 with status := 0, info := 0, eidx := 0, ph := .decEmit }) ∧
    (s.icerr = false → s.rs ≠ .badwc → s.rs ≠ .done →
      exec (.inBeat op true d) s = .next { s1 with status := 5, info := 0, ph := .report })

/-! ## The emit phases -/

/-- R187 E2 (R72, R73, R105, R108): the header of the registers is pushed, short below 64 elements and long from 64 on. E2 runs
with `ACC` empty; what it leaves in `NACC` when bits are held (the low 4 bits of the sum) is the model's choice (log 17). -/
def Obligations.HeaderPushed : Prop :=
  ∀ (s : State) (w : Width), s.ph = .encEmit → s.nacc.toNat < 6 → s.hdone = false → s.wid = widthReg w →
    (s.cnt.toNat < 64 → exec (.hdrShort (BitVec.ofNat 6 s.cnt.toNat) (wcOfWidth w)) s =
      .next { s with acc := s.acc ++ false :: (bin 6 s.cnt.toNat ++ wcode w), nacc := s.nacc + 9, hdone := true }) ∧
    (64 ≤ s.cnt.toNat → exec (.hdrLong s.cnt (wcOfWidth w)) s =
      .next { s with acc := s.acc ++ true :: (bin 10 s.cnt.toNat ++ wcode w), nacc := s.nacc + 13, hdone := true })

/-- R187 E3 (R79, R123): the element `EBUF[EIDX]` is pushed at the width `WID`. -/
def Obligations.ElementPushed : Prop :=
  ∀ (s : State) (w : Width) (v : Entry), s.ph = .encEmit → s.nacc.toNat < 6 → s.hdone = true →
    s.eidx.toNat < s.cnt.toNat → s.wid = widthReg w → Memory.read s.ebuf s.eidx.toNat = some v →
    v.toNat < 2 ^ widthBits w →
    exec (elemInstr w v.toNat) s =
      .next { s with acc := s.acc ++ bin (widthBits w) v.toNat, nacc := s.nacc + widthReg w, eidx := s.eidx + 1 }

/-- R187 E4, R129, R167: the padding is `zeros(6 - NACC)` when 0 < `NACC` < 6 and nothing when `NACC` = 0; the reader ignores
padding bits, and all bits after the last element or after the width-code `11`. That padding of 0 bits changes nothing where E5
is due, and that the row executed in DEC_LOAD is its bits going through RDSTEP, is the model's deduction (log 9, DEDUCED). -/
def Obligations.PaddingPushedOrIgnored : Prop :=
  (∀ s : State, s.ph = .encEmit → s.nacc.toNat < 6 → s.hdone = true → s.cnt.toNat ≤ s.eidx.toNat →
    (0 < s.nacc.toNat → exec (.padf (6 - s.nacc.toNat)) s =
      .next { s with acc := s.acc ++ zeros (6 - s.nacc.toNat), nacc := 6 }) ∧
    (s.nacc.toNat = 0 → exec (.padf 0) s = .next s)) ∧
  (∀ (s : State) (k : Nat), k ≤ 5 → s.ph = .decLoad → s.rs = .done ∨ s.rs = .badwc → exec (.padf k) s = .next s)

/-- R187 E1 (R80, R84): the symbol of the 6 oldest bits is sent and they are popped. All 64 rows SYM_0 to SYM_63. -/
def Obligations.SymbolSent : Prop :=
  ∀ (s : State) (i : Nat), i < 64 → s.ph = .encEmit → 6 ≤ s.nacc.toNat → s.acc.take 6 = bin 6 i →
    exec (symInstr i) s = .next { s with
      acc := s.acc.drop 6, nacc := s.nacc - 6, outLog := s.outLog ++ [OutBeat.mk false (symenc i) 0] }

/-- R173, R193: in DEC_LOAD the six bits of a symbol go through the reader, unless `ICERR` is 1. All 64 rows. -/
def Obligations.SymbolRead : Prop :=
  ∀ (s : State) (i : Nat), i < 64 → s.ph = .decLoad →
    (s.icerr = false → exec (symInstr i) s = feedBits (bin 6 i) s) ∧
    (s.icerr = true → exec (symInstr i) s = .next s)

/-- R196 X1: in DEC_EMIT the element `EBUF[EIDX]` is sent, zero-extended, and `EIDX` counts on. -/
def Obligations.ElementSent : Prop :=
  ∀ (s : State) (v : Entry), s.ph = .decEmit → s.eidx.toNat < s.cnt.toNat → Memory.read s.ebuf s.eidx.toNat = some v →
    exec (.outBeat false (BitVec.ofNat 16 v.toNat) 0) s = .next { s with
      eidx := s.eidx + 1, outLog := s.outLog ++ [OutBeat.mk false (BitVec.ofNat 16 v.toNat) 0] }

/-- R187 E5, R196 X2: with nothing left to send the block goes to REPORT; no beat moves and no other register changes. -/
def Obligations.EmitPhasesEndInReport : Prop :=
  ∀ (s : State) (e : Pins) (rest : List Pins), s.edges = e :: rest → e.rst = false → hostBreaks e s = false →
    e.go = true →
    (s.ph = .encEmit → s.hdone = true → s.cnt.toNat ≤ s.eidx.toNat → s.nacc = 0 → step s = .next { s with
      ph := .report, edges := rest, pins := e, pend := if e.inValid then some e.beat else none }) ∧
    (s.ph = .decEmit → s.eidx = s.cnt → step s = .next { s with
      ph := .report, edges := rest, pins := e, pend := if e.inValid then some e.beat else none })

/-- R188: REPORT offers the end beat (1, `INFO`, `STATUS`); when it is transferred `PH` <- IDLE and no other register
changes. As an output beat, and as the row of its status code. -/
def Obligations.ReportSendsEndBeat : Prop :=
  ∀ s : State, s.ph = .report →
    let t := { s with ph := .idle, outLog := s.outLog ++ [OutBeat.mk true s.info s.status] }
    offer s = some { fin := true, data := s.info, status := s.status } ∧
    (∀ e : Pins, e.rst = false → e.go = true → outValidAt e s = true) ∧
    exec (.outBeat true s.info s.status) s = .next t ∧
    (s.status = 0 → exec .stOk s = .next t) ∧ (s.status = 1 → exec .stRangeError s = .next t) ∧
    (s.status = 2 → exec .stInvalidCharacter s = .next t) ∧ (s.status = 3 → exec .stInvalidWidthCode s = .next t) ∧
    (s.status = 4 → exec .stLengthError s = .next t) ∧ (s.status = 5 → exec .stTruncatedInput s = .next t)

/-- 10_state.md section 5 (status codes 6 and 7 are "never produced"), 93_implementation_defined.md U9: the reserved rows stop. -/
def Obligations.ReservedStatusStops : Prop :=
  ∀ s : State, exec .stRsvd6 s = .refused (.reservedStatus 6) ∧ exec .stRsvd7 s = .refused (.reservedStatus 7)

/-- The model's choice (log 10), from R205 ("In each phase the set of enabled steps is given"): a row that is not due is refused
by name. Fields of the bit string and symbols in IDLE, ENC_LOAD, DEC_EMIT and REPORT; in ENC_EMIT where another word is due
(but for padding of 0 bits at the end, log 9); in DEC_LOAD where the reader does not stand at the start of that field; an
output beat that is not the offered one; a status code that is not the one to report; RDSTEP outside DEC_LOAD. An input beat
and a command bit are not refused: they wait (UntakenBeatsWait, CommandBitReadOnce). -/
def Obligations.RefusedByName : Prop :=
  (∀ (i : Instr) (f : Format) (b : Bits) (s : State), encode i = some (f, b) →
    (f = .hdr ∨ f = .wcode ∨ f = .sym ∨ (∃ w, f = .elem w) ∨ ∃ k, f = .padf k) →
    ((s.ph = .idle ∨ s.ph = .encLoad ∨ s.ph = .decEmit ∨ s.ph = .report) → exec i s = .refused .notEnabled) ∧
    (s.ph = .encEmit → fetch s ≠ .word f b → (f = .padf 0 → emitStep s ≠ .finish) →
      exec i s = .refused .notEnabled) ∧
    (s.ph = .decLoad → f = .hdr → s.rs ≠ .flag → exec i s = .refused .notEnabled) ∧
    (s.ph = .decLoad → f = .wcode → (s.rs ≠ .wc ∨ s.bcnt ≠ 2) → exec i s = .refused .notEnabled) ∧
    (s.ph = .decLoad → (∃ w, f = .elem w ∧ (s.rs ≠ .elem ∨ s.bcnt ≠ widthReg w ∨ s.wid ≠ widthReg w)) →
      exec i s = .refused .notEnabled) ∧
    (s.ph = .decLoad → (∃ k, f = .padf k) → s.rs ≠ .done → s.rs ≠ .badwc → exec i s = .refused .notEnabled)) ∧
  (∀ (fin : Bool) (d : CodeUnit) (st : BitVec 3) (s : State), offer s ≠ some (OutBeat.mk fin d st) →
    exec (.outBeat fin d st) s = .refused .notEnabled) ∧
  (∀ (k : Nat) (s : State), k ≤ 5 → s.ph ≠ .report ∨ s.status.toNat ≠ k →
    exec (statusInstr k) s = .refused .notEnabled) ∧
  (∀ (x : Bool) (s : State), s.ph ≠ .decLoad → exec (.rdstep x) s = .refused .notEnabled)

/-! ## The step -/

/-- A STEP RUNS THE DECODED ROW. At an edge without reset, with the host stable and the handshake of the position met, if
the bits at the position decode to a row then step is exec of that row, on the state with the edge taken from the script,
its pins sampled, and the handshake's own bits settled. -/
def Obligations.StepRunsDecodedRow : Prop :=
  ∀ (s : State) (e : Pins) (rest : List Pins) (f : Format) (b : Bits) (i : Instr),
    s.edges = e :: rest → e.rst = false → hostBreaks e s = false → wellFormed i = true →
    fetch { s with edges := rest, pins := e } = .word f b → decode f b = .ok (i, []) →
    let shown := if e.inValid then some e.beat else none
    (acceptsInput s = true → e.inValid = true → e.go = true →
      step s = exec i { s with edges := rest, pins := e, pend := none }) ∧
    (beatDue s = true → e.outReady = true → s.outValid = true ∨ e.go = true →
      step s = exec i { s with edges := rest, pins := e, pend := shown, outValid := false }) ∧
    (acceptsInput s = false → beatDue s = false → e.go = true →
      step s = exec i { s with edges := rest, pins := e, pend := shown })

/-- 10_state.md section 2 (R23): exactly the beats of the edges with valid and ready both 1 and `rst` 0 are transferred, with
the fields on the pins (input) or offered (output). -/
def Obligations.OnlyHandshakesMoveBeats : Prop :=
  ∀ (s t : State) (e : Pins) (rest : List Pins), s.edges = e :: rest → step s = .next t →
    (beatTaken e s = true → t.inLog = s.inLog ++ [InBeat.mk e.inOp e.inEnd e.inData]) ∧
    (beatTaken e s = false → t.inLog = s.inLog) ∧
    (beatGiven e s = true → ∃ o, offer s = some o ∧ t.outLog = s.outLog ++ [o]) ∧
    (beatGiven e s = false → t.outLog = s.outLog)

/-- R23, R34, R251 ("it keeps its state and resumes when the host acts"): what is not transferred waits, and waiting changes no
register and no entry of EBUF. An input beat in the emit phases and in REPORT. At an edge without reset and with the host
stable: in IDLE and the load phases, nothing presented or a beat not accepted; where a beat is due, one the host does not take
stays offered with its fields, and one the block does not offer yet; where an internal step is enabled, one the block does
not take yet. Only the pins, the script, what the host presents (the model's fields, log 1, log 14) and `out_valid` change. -/
def Obligations.UntakenBeatsWait : Prop :=
  (∀ (s : State) (op fin : Bool) (d : CodeUnit), s.ph = .encEmit ∨ s.ph = .decEmit ∨ s.ph = .report →
    exec (.inBeat op fin d) s = .next s) ∧
  (∀ (s : State) (e : Pins) (rest : List Pins), s.edges = e :: rest → e.rst = false → hostBreaks e s = false →
    let t := { s with edges := rest, pins := e, pend := if e.inValid then some e.beat else none }
    (acceptsInput s = true → e.inValid = false ∨ e.go = false → step s = .next t) ∧
    (beatDue s = true → s.outValid = true ∨ e.go = true → e.outReady = false →
      step s = .next { t with outValid := true } ∧ beatDue { t with outValid := true } = true ∧
      offer { t with outValid := true } = offer s) ∧
    (beatDue s = true → s.outValid = false → e.go = false → step s = .next t) ∧
    (acceptsInput s = false → beatDue s = false → e.go = false → step s = .next t))

/-- R241: the registers right after reset, with `out_valid` 0. -/
def Obligations.ResetValues : Prop :=
  let s := State.reset
  s.ph = .idle ∧ s.rs = .flag ∧ s.cnt = 0 ∧ s.max = 0 ∧ s.wid = 0 ∧ s.eidx = 0 ∧ s.hdone = false ∧ s.nacc = 0 ∧
  s.flag = false ∧ s.bcnt = 0 ∧ s.sh = 0 ∧ s.rerr = false ∧ s.ovf = false ∧ s.icerr = false ∧ s.badc = 0 ∧
  s.status = 0 ∧ s.info = 0 ∧ s.acc = [] ∧ offer s = none ∧ ∀ e, outValidAt e s = false

/-- R240: at an edge with `rst` = 1 the block drives `in_ready` = 0 and `out_valid` = 0, no beat moves on either channel and
every register takes its reset value, whatever the phase; nothing of the transaction in progress is left to be sent. -/
def Obligations.ResetEdge : Prop :=
  ∀ (s : State) (e : Pins) (rest : List Pins), s.edges = e :: rest → e.rst = true →
    inReady e s = false ∧ outValidAt e s = false ∧
    ∃ t, step s = .next t ∧ t.edges = rest ∧ t.inLog = s.inLog ∧ t.outLog = s.outLog ∧ offer t = none ∧
      t.outValid = false ∧
      t = { State.reset with
        ebuf := t.ebuf, pins := e, edges := rest, pend := t.pend, unitOut := s.unitOut, inLog := s.inLog,
        outLog := s.outLog }

/-- R201: the phase transitions, complete: after an edge without reset the phase is the one the table gives; after one with
reset it is IDLE. -/
def Obligations.PhaseTransitions : Prop :=
  ∀ (s t : State) (e : Pins) (rest : List Pins), Inv s → s.edges = e :: rest → step s = .next t →
    t.ph = if e.rst then .idle else phaseAfter e s

/-- 10_state.md section 3 (R30): within a transaction the flags are sticky, and only the load phases set them. -/
def Obligations.StickyFlags : Prop :=
  ∀ (s t : State) (e : Pins) (rest : List Pins), s.edges = e :: rest → e.rst = false → s.ph ≠ .idle → step s = .next t →
    (s.rerr = true → t.rerr = true) ∧ (s.ovf = true → t.ovf = true) ∧
    (s.icerr = true → t.icerr = true ∧ t.badc = s.badc) ∧
    (t.rerr = true → s.rerr = true ∨
      (s.ph = .encLoad ∧ e.inEnd = false ∧ (e.inData.toNat < 1 ∨ 300 < e.inData.toNat))) ∧
    (t.ovf = true → s.ovf = true ∨ (s.ph = .encLoad ∧ e.inEnd = false ∧ s.cnt = 1023)) ∧
    (t.icerr = true → s.icerr = true ∨ (s.ph = .decLoad ∧ e.inEnd = false ∧ e.inData ∉ alphabet ∧ t.badc = e.inData))

/-- R202: `out_valid` is 0 in IDLE and in the load phases, a data beat is offered only in an emit phase, and there the status
is OK; once an emit phase is entered nothing can fail: no step stops but where the host breaks R250.1, and the status stays
OK into REPORT.
The spec marks the rule as derived. -/
def Obligations.NoDataBeatBeforeOk : Prop :=
  (∀ (s : State) (e : Pins), s.ph = .idle ∨ s.ph = .encLoad ∨ s.ph = .decLoad →
    offer s = none ∧ outValidAt e s = false) ∧
  (∀ (s : State) (o : OutBeat), offer s = some o → o.fin = false → s.ph = .encEmit ∨ s.ph = .decEmit) ∧
  (∀ s : State, Inv s → s.ph = .encEmit ∨ s.ph = .decEmit → s.status = 0) ∧
  (∀ (s : State) (e : Pins) (rest : List Pins), Inv s → s.ph = .encEmit ∨ s.ph = .decEmit → s.edges = e :: rest →
    e.rst = false → hostBreaks e s = false →
    ∃ t, step s = .next t ∧ (t.ph = s.ph ∨ t.ph = .report) ∧ t.status = 0)

/-- 44_commands.md section 3 (R206), 43_bit_unpacker.md section 2 (R176): a step without reset changes at most the entry at
`CNT` while elements are loaded, or the entries `EIDX` passes while symbols are read. -/
def Obligations.OnlyLoadsWriteTheBuffer : Prop :=
  ∀ (s t : State) (e : Pins) (rest : List Pins), Inv s → s.edges = e :: rest → e.rst = false → step s = .next t →
    ∀ a, Memory.read t.ebuf a = Memory.read s.ebuf a ∨
      (s.ph = .idle ∧ t.ph = .encLoad ∧ a = 0) ∨
      (s.ph = .encLoad ∧ a = s.cnt.toNat) ∨
      (s.ph = .decLoad ∧ s.eidx.toNat ≤ a ∧ a < t.eidx.toNat)

/-! ## The machine as a whole -/

/-- The invariant holds after reset. -/
def Obligations.InvariantAtReset : Prop := Inv State.reset

/-- The invariant is kept by every step, from every state and for every edge, reset included. -/
def Obligations.StepKeepsInvariant : Prop :=
  ∀ s t : State, Inv s → step s = .next t → Inv t

/-- From a state with the invariant a step never faults, and stops only where the host breaks R250.1 (R251). Two clauses are the
model's choices: that a step with no edge to come changes nothing (log 2), and the refusal (log 14). -/
def Obligations.InvariantRulesOutStops : Prop :=
  ∀ s : State, Inv s →
    (s.edges = [] → step s = .next s) ∧
    (∀ e rest, s.edges = e :: rest → e.rst = true ∨ hostBreaks e s = false → ∃ t, step s = .next t) ∧
    (∀ e rest, s.edges = e :: rest → e.rst = false → hostBreaks e s = true → step s = .refused .hostUnstable)

/-- R200: the beat level refines the function level, for every timing of both channels and every number of transactions.
From IDLE with no beat moved yet, whenever the block is in IDLE again the output beats are exactly those owed for the
input beats: `encode` or `decode` of each transaction's data, then its end beat.
The spec marks the rule as derived. -/
def Obligations.BeatLevelRefinesFunctionLevel : Prop :=
  ∀ (s t : State) (k : Nat), s.ph = .idle → s.inLog = [] → s.outLog = [] → noReset s.edges → runSteps k s = .next t →
    t.ph = .idle → t.outLog = responses [] t.inLog

/-- 70_reset_and_hazards.md section 4 (R255): with both sides willing, a transaction of n data beats is over within n + 1 input
beats and at most 1 + n + 1 + 1 internal steps (ENCODE) or 1 (DECODE), its output beats and the end beat. -/
def Obligations.TransactionCompletes : Prop :=
  ∀ (s : State) (op : Bool) (data : List CodeUnit) (drains : Nat), s.ph = .idle → s.pend = none →
    drainBound op data ≤ drains → s.edges = willingScript op data drains →
    ∃ t, runSteps (data.length + 1 + drains) s = .next t ∧ t.ph = .idle ∧ t.edges = [] ∧
      t.outLog = s.outLog ++ respond op data

/-- 10_state.md section 1 (R21), 70_reset_and_hazards.md section 1 (R242): what the block did before does not show. Two blocks
in IDLE with any registers and any EBUF, given the same edges, answer with the same beats and are in the same phase. -/
def Obligations.PastDoesNotShow : Prop :=
  ∀ (s s' t : State) (k : Nat), s.ph = .idle → s'.ph = .idle → s.edges = s'.edges → s.pend = s'.pend →
    s.outValid = s'.outValid → s.inLog = [] → s'.inLog = [] → s.outLog = [] → s'.outLog = [] → noReset s.edges →
    runSteps k s = .next t →
    ∃ t', runSteps k s' = .next t' ∧ t'.ph = t.ph ∧ t'.inLog = t.inLog ∧ t'.outLog = t.outLog

/-- R255, R34 (the spec decides both: D14): liveness. On an unending clock, with the block weakly fair, the host stable and no
more reset: in IDLE and the load phases `in_ready` rises, a beat that is due is offered, and an enabled internal step happens,
each after finitely many edges, with nothing changed before it. -/
def Obligations.EnabledStepsHappen : Prop :=
  ∀ (c : Clock) (s t : State) (n : Nat), Inv s → WeaklyFair c s → HostStable c s → (∀ m, n ≤ m → (c m).rst = false) →
    afterEdges c s n = .next t →
    (acceptsInput t = true →
      ∃ m u, n ≤ m ∧ afterEdges c s m = .next u ∧ Waited t u ∧ inReady (c m) u = true) ∧
    (beatDue t = true →
      ∃ m u, n ≤ m ∧ afterEdges c s m = .next u ∧ Waited t u ∧ outValidAt (c m) u = true) ∧
    (acceptsInput t = false → beatDue t = false →
      ∃ m u r, n ≤ m ∧ runPosition t = .next r ∧ afterEdges c s (m + 1) = .next u ∧ Waited r u)

/-- R255, R250, R208: every transaction ends. On an unending clock, with the block weakly fair, the host keeping its
obligations 1, 3 and 4 and no more reset, a block that is not in IDLE comes to IDLE after finitely many edges, and the beat
transferred last is then an end beat. -/
def Obligations.FairTransactionsEnd : Prop :=
  ∀ (c : Clock) (s t : State) (n : Nat), Inv s → WeaklyFair c s → HostStable c s → HostCompletes c s → HostDrains c s →
    (∀ m, n ≤ m → (c m).rst = false) → afterEdges c s n = .next t → t.ph ≠ .idle →
    ∃ m u, n < m ∧ afterEdges c s m = .next u ∧ u.ph = .idle ∧ ∃ o, u.outLog.getLast? = some o ∧ o.fin = true
end

