-- ==== Sys2Proof/Laws/Bits.lean ====
section
/-! SUPPORT. Bit strings: lengths, `val` and `bin` as inverses, fields read from and after an encoding. -/

namespace Sys2Proof.Machine

@[simp] theorem bin_length (n v : Nat) : (bin n v).length = n := by
  induction n with
  | zero => rfl
  | succ n ih => simp [bin, ih]

@[simp] theorem zeros_length (k : Nat) : (zeros k).length = k := by simp [zeros]

theorem valFrom_eq (a : Nat) (b : Bits) : valFrom a b = a * 2 ^ b.length + val b := by
  induction b generalizing a with
  | nil => simp [valFrom, val]
  | cons x b ih =>
    simp only [val, valFrom, List.length_cons]
    rw [ih, ih (2 * 0 + x.toNat)]
    ring

theorem val_cons (x : Bool) (b : Bits) : val (x :: b) = x.toNat * 2 ^ b.length + val b := by
  simp [val, valFrom]
  rw [valFrom_eq]
  simp [val]

theorem val_append (a b : Bits) : val (a ++ b) = val a * 2 ^ b.length + val b := by
  induction a with
  | nil => simp [val, valFrom]
  | cons x a ih => simp only [List.cons_append, val_cons, ih, List.length_append]; ring

theorem val_lt (b : Bits) : val b < 2 ^ b.length := by
  induction b with
  | nil => simp [val, valFrom]
  | cons x b ih =>
    rw [val_cons, List.length_cons, pow_succ]
    cases x <;> simp <;> omega

/-- `val` reads back what `bin` wrote, up to the bits of the field. -/
theorem val_bin (n v : Nat) : val (bin n v) = v % 2 ^ n := by
  induction n with
  | zero => simp [bin, val, valFrom, Nat.mod_one]
  | succ n ih =>
    rw [bin, val_cons, ih, bin_length, pow_succ, Nat.mod_mul]
    have h : (decide (v / 2 ^ n % 2 = 1)).toNat = v / 2 ^ n % 2 := by
      rcases Nat.mod_two_eq_zero_or_one (v / 2 ^ n) with h | h <;> simp [h]
    rw [h]; ring

theorem val_bin_of_lt {n v : Nat} (h : v < 2 ^ n) : val (bin n v) = v := by
  rw [val_bin, Nat.mod_eq_of_lt h]

/-- `bin` depends on the field's bits only. -/
theorem bin_mod (n v : Nat) : bin n (v % 2 ^ n) = bin n v := by
  suffices h : ∀ m, n ≤ m → bin n (v % 2 ^ m) = bin n v from h n le_rfl
  induction n with
  | zero => intros; rfl
  | succ n ih =>
    intro m hm
    have hd : v % 2 ^ m / 2 ^ n % 2 = v / 2 ^ n % 2 := by
      have : (v % 2 ^ m).testBit n = v.testBit n := by
        rw [Nat.testBit_mod_two_pow]; simp; omega
      simp only [Nat.testBit_eq_decide_div_mod_eq, decide_eq_decide] at this
      omega
    rw [bin, bin, hd, ih m (by omega)]

/-- Bits are the numeral of their own value. -/
theorem bin_val (b : Bits) : bin b.length (val b) = b := by
  induction b with
  | nil => rfl
  | cons x b ih =>
    have hlt := val_lt b
    rw [List.length_cons, bin, val_cons]
    congr 1
    · rw [Nat.mul_comm, Nat.mul_add_div (by positivity), Nat.div_eq_of_lt hlt]
      cases x <;> simp
    · rw [← bin_mod, Nat.mul_add_mod_self_right, Nat.mod_eq_of_lt hlt, ih]

/-- The value of a field does not change under its own numeral. -/
theorem bin_injective {n u v : Nat} (hu : u < 2 ^ n) (hv : v < 2 ^ n) (h : bin n u = bin n v) : u = v := by
  have := congrArg val h
  rwa [val_bin_of_lt hu, val_bin_of_lt hv] at this

/-- A field written in front of other bits is read back, with those bits left. -/
theorem takeField_append {n : Nat} {b : Bits} (rest : Bits) (h : b.length = n) :
    takeField n (b ++ rest) = some (val b, rest) := by
  simp [takeField, ← h]

/-- What a field that could be read was: its bits and the bits after it. -/
theorem takeField_eq_some {n v : Nat} {b rest : Bits} (h : takeField n b = some (v, rest)) :
    ∃ x, b = x ++ rest ∧ x.length = n ∧ val x = v := by
  unfold takeField at h
  split at h
  · cases h
  · rename_i hl
    simp only [Option.some.injEq, Prod.mk.injEq] at h
    exact ⟨b.take n, by rw [← h.2, List.take_append_drop], by simp; omega, h.1⟩

/-- A format of fixed length reads the row of its field's value. -/
theorem decodeFixed_append {f : Format} {n : Nat} {row : Nat → Instr} {b : Bits} (rest : Bits) (h : b.length = n) :
    decodeFixed f n row (b ++ rest) = .ok (row (val b), rest) := by
  simp [decodeFixed, takeField_append rest h]

end Sys2Proof.Machine
end

