-- ==== Sys2Proof/Laws/Memory.lean ====
section
/-! SUPPORT. The element buffer: read after write, and the canonical form. -/

namespace Sys2Proof.Machine

@[simp] theorem Memory.read_nil (i : Nat) : Memory.read [] i = none := rfl

/-- A read after a write to the same entry gives the value written (20_memory.md R63). -/
@[simp] theorem Memory.read_write_same (m : Memory) (i : Nat) (v : Entry) :
    Memory.read (Memory.write m i v) i = some v := by
  induction m with
  | nil => simp [Memory.write, Memory.read]
  | cons c rest ih =>
    obtain ⟨j, u⟩ := c
    simp only [Memory.write]
    split
    · simp [Memory.read]
    · split
      · simp [Memory.read]
      · rename_i h; simp [Memory.read, h, ih]

/-- A write leaves every other entry alone. -/
theorem Memory.read_write_ne (m : Memory) {i a : Nat} (v : Entry) (h : a ≠ i) :
    Memory.read (Memory.write m i v) a = Memory.read m a := by
  induction m with
  | nil => simp [Memory.write, Memory.read, h]
  | cons c rest ih =>
    obtain ⟨j, u⟩ := c
    simp only [Memory.write]
    split
    · simp [Memory.read, h]
    · split
      · rename_i hij; subst hij; simp [Memory.read, h]
      · simp only [Memory.read]; split
        · rfl
        · exact ih

/-- Read after write, both cases. -/
theorem Memory.read_write (m : Memory) (i a : Nat) (v : Entry) :
    Memory.read (Memory.write m i v) a = if a = i then some v else Memory.read m a := by
  split
  · next h => subst h; simp
  · next h => exact Memory.read_write_ne m v h

theorem Memory.risingAbove_write {m : Memory} {lo i : Nat} (v : Entry) (hlo : lo < i)
    (h : Memory.risingAbove lo m = true) : Memory.risingAbove lo (Memory.write m i v) = true := by
  induction m generalizing lo with
  | nil => simp [Memory.write, Memory.risingAbove, hlo]
  | cons c rest ih =>
    obtain ⟨j, u⟩ := c
    simp only [Memory.risingAbove, Bool.and_eq_true, decide_eq_true_eq] at h
    simp only [Memory.write]
    split
    · simp [Memory.risingAbove, *]
    · split
      · next hij => subst hij; simp [Memory.risingAbove, *]
      · simp only [Memory.risingAbove, Bool.and_eq_true, decide_eq_true_eq]
        exact ⟨h.1, ih (by omega) h.2⟩

theorem Memory.bounded_write {m : Memory} {i n : Nat} (v : Entry) (hi : i < n)
    (h : (m.all fun c => decide (c.1 < n)) = true) :
    ((Memory.write m i v).all fun c => decide (c.1 < n)) = true := by
  induction m with
  | nil => simp [Memory.write, hi]
  | cons c rest ih =>
    obtain ⟨j, u⟩ := c
    simp only [List.all_cons, Bool.and_eq_true, decide_eq_true_eq] at h
    simp only [Memory.write]
    split
    · simp only [List.all_cons, Bool.and_eq_true, decide_eq_true_eq]; exact ⟨hi, h.1, h.2⟩
    · split
      · simp only [List.all_cons, Bool.and_eq_true, decide_eq_true_eq]; exact ⟨hi, h.2⟩
      · simp only [List.all_cons, Bool.and_eq_true, decide_eq_true_eq]; exact ⟨h.1, ih h.2⟩

/-- A write to an entry that exists keeps the canonical form. -/
theorem Memory.wf_write {m : Memory} {i : Nat} (v : Entry) (hi : i < Config.ebufDepth) (h : Memory.wf m = true) :
    Memory.wf (Memory.write m i v) = true := by
  unfold Memory.wf at *
  simp only [Bool.and_eq_true] at *
  refine ⟨?_, Memory.bounded_write v hi h.2⟩
  cases m with
  | nil => rfl
  | cons c rest =>
    obtain ⟨j, u⟩ := c
    simp only at h
    simp only [Memory.write]
    by_cases hlt : i < j
    · rw [if_pos hlt]; simp [Memory.risingAbove, hlt, h.1]
    · rw [if_neg hlt]
      by_cases hij : i = j
      · rw [if_pos hij]; subst hij; exact h.1
      · rw [if_neg hij]; exact Memory.risingAbove_write v (by omega) h.1

/-- The empty buffer, as at reset, is in its canonical form. -/
theorem Memory.wf_nil : Memory.wf [] = true := rfl

end Sys2Proof.Machine
end

