-- ==== Sys2Proof/Laws/Reader.lean ====
section
/-! SUPPORT. What one bit, or several, can do at the bit-serial reader: every case, and what stays. -/

namespace Sys2Proof.Machine

/-- `t` differs from `s` in the reader's registers and EBUF at most. -/
def ReaderOnly (s t : State) : Prop :=
  t = { s with
    cnt := t.cnt, wid := t.wid, eidx := t.eidx, rs := t.rs, flag := t.flag, bcnt := t.bcnt, sh := t.sh, ebuf := t.ebuf }

theorem ReaderOnly.refl (s : State) : ReaderOnly s s := rfl

theorem ReaderOnly.trans {s t u : State} (h : ReaderOnly s t) (k : ReaderOnly t u) : ReaderOnly s u := by
  unfold ReaderOnly at *
  rw [k, h]

/-- `BCNT'` = 0 exactly when `BCNT` = 1. -/
theorem bitsLeft_eq_zero (s : State) : bitsLeft s = 0 ↔ s.bcnt = 1 := by
  have : ∀ b : BitVec 4, b - 1 = 0 ↔ b = 1 := by decide
  exact this s.bcnt

/-- `SH'` as a number. -/
theorem shiftIn_toNat (sh : BitVec 10) (x : Bool) : (shiftIn sh x).toNat = (2 * sh.toNat + x.toNat) % 1024 := by
  simp [shiftIn]

theorem widthReg_toNat (w : Width) : (widthReg w).toNat = widthBits w := by cases w <;> rfl

theorem widthReg_injective {v w : Width} (h : widthReg v = widthReg w) : v = w := by
  revert h; cases v <;> cases w <;> decide

@[simp] theorem widthOfReg_widthReg (w : Width) : widthOfReg (widthReg w) = some w := by cases w <;> rfl

/-- Everything that reading the last bit of a width-code can do. -/
theorem widthCodeRead_next {n : Nat} {s t : State} (h : widthCodeRead n s = .next t) :
    (n = 3 ∧ t = { s with sh := 0, eidx := 0, rs := .badwc }) ∨
    ∃ w, wdec (wcOfNat n) = .ok w ∧ n < 3 ∧
      ((s.cnt = 0 ∧ t = { s with sh := 0, eidx := 0, wid := widthReg w, rs := .done }) ∨
       (s.cnt ≠ 0 ∧ t = { s with sh := 0, eidx := 0, wid := widthReg w, rs := .elem, bcnt := widthReg w })) := by
  unfold widthCodeRead widthCodeRead.setWidth at h
  split at h
  case h_4 => cases h; exact .inl ⟨rfl, rfl⟩
  case h_5 => cases h
  all_goals
    refine .inr ⟨_, rfl, by decide, ?_⟩
    split at h
    · next hc => cases h; exact .inl ⟨hc, rfl⟩
    · next hc => cases h; exact .inr ⟨hc, rfl⟩

/-- Everything that reading the last bit of an element can do. -/
theorem elementRead_next {v : Entry} {s t : State} (h : elementRead v s = .next t) :
    s.eidx.toNat < Config.ebufDepth ∧
    ((s.eidx + 1 = s.cnt ∧
        t = { s with ebuf := Memory.write s.ebuf s.eidx.toNat v, eidx := s.eidx + 1, sh := 0, rs := .done }) ∨
     (s.eidx + 1 ≠ s.cnt ∧
        t = { s with ebuf := Memory.write s.ebuf s.eidx.toNat v, eidx := s.eidx + 1, sh := 0, bcnt := s.wid })) := by
  unfold elementRead at h
  split at h
  · next hi =>
    refine ⟨hi, ?_⟩
    split at h
    · next hc => cases h; exact .inl ⟨hc, rfl⟩
    · next hc => cases h; exact .inr ⟨hc, rfl⟩
  · cases h

/-! RDSTEP at each reader state, as equations. -/

theorem rdstep_flag {x : Bool} {s : State} (h : s.rs = .flag) :
    rdstep x s = .next { s with flag := x, bcnt := BitVec.ofNat 4 (lenw x), sh := 0, rs := .len } := by
  unfold rdstep; rw [h]

theorem rdstep_fieldBit {x : Bool} {s : State} (h : s.rs = .len ∨ s.rs = .wc ∨ s.rs = .elem) (hb : s.bcnt ≠ 1) :
    rdstep x s = .next (fieldBit x s) := by
  have hb : ¬ bitsLeft s = 0 := fun e => hb ((bitsLeft_eq_zero s).1 e)
  unfold rdstep
  rcases h with h | h | h <;> rw [h] <;> exact if_neg hb

theorem rdstep_lengthRead {x : Bool} {s : State} (h : s.rs = .len) (hb : s.bcnt = 1) :
    rdstep x s = .next { s with cnt := shiftIn s.sh x, sh := 0, bcnt := 2, rs := .wc } := by
  unfold rdstep; rw [h]; exact if_pos ((bitsLeft_eq_zero s).2 hb)

theorem rdstep_widthCodeRead {x : Bool} {s : State} (h : s.rs = .wc) (hb : s.bcnt = 1) :
    rdstep x s = widthCodeRead (shiftIn s.sh x).toNat s := by
  unfold rdstep; rw [h]; exact if_pos ((bitsLeft_eq_zero s).2 hb)

theorem rdstep_elementRead {x : Bool} {s : State} (h : s.rs = .elem) (hb : s.bcnt = 1) :
    rdstep x s = elementRead (shLow9 (shiftIn s.sh x)) s := by
  unfold rdstep; rw [h]; exact if_pos ((bitsLeft_eq_zero s).2 hb)

theorem rdstep_ignored {x : Bool} {s : State} (h : s.rs = .done ∨ s.rs = .badwc) : rdstep x s = .next s := by
  unfold rdstep; rcases h with h | h <;> rw [h]

/-- Everything RDSTEP can do when it gives a next state (43_bit_unpacker.md R172). -/
theorem rdstep_next {x : Bool} {s t : State} (h : rdstep x s = .next t) :
    (s.rs = .flag ∧ t = { s with flag := x, bcnt := BitVec.ofNat 4 (lenw x), sh := 0, rs := .len }) ∨
    ((s.rs = .len ∨ s.rs = .wc ∨ s.rs = .elem) ∧ s.bcnt ≠ 1 ∧ t = fieldBit x s) ∨
    (s.rs = .len ∧ s.bcnt = 1 ∧ t = { s with cnt := shiftIn s.sh x, sh := 0, bcnt := 2, rs := .wc }) ∨
    (s.rs = .wc ∧ s.bcnt = 1 ∧ widthCodeRead (shiftIn s.sh x).toNat s = .next t) ∨
    (s.rs = .elem ∧ s.bcnt = 1 ∧ elementRead (shLow9 (shiftIn s.sh x)) s = .next t) ∨
    ((s.rs = .done ∨ s.rs = .badwc) ∧ t = s) := by
  unfold rdstep at h
  split at h
  · next hr => cases h; exact .inl ⟨hr, rfl⟩
  · next hr =>
    split at h
    · next hb => cases h; exact .inr (.inr (.inl ⟨hr, (bitsLeft_eq_zero s).1 hb, rfl⟩))
    · next hb => cases h; exact .inr (.inl ⟨.inl hr, fun e => hb ((bitsLeft_eq_zero s).2 e), rfl⟩)
  · next hr =>
    split at h
    · next hb => exact .inr (.inr (.inr (.inl ⟨hr, (bitsLeft_eq_zero s).1 hb, h⟩)))
    · next hb => cases h; exact .inr (.inl ⟨.inr (.inl hr), fun e => hb ((bitsLeft_eq_zero s).2 e), rfl⟩)
  · next hr =>
    split at h
    · next hb => exact .inr (.inr (.inr (.inr (.inl ⟨hr, (bitsLeft_eq_zero s).1 hb, h⟩))))
    · next hb => cases h; exact .inr (.inl ⟨.inr (.inr hr), fun e => hb ((bitsLeft_eq_zero s).2 e), rfl⟩)
  · next hr => cases h; exact .inr (.inr (.inr (.inr (.inr ⟨.inl hr, rfl⟩))))
  · next hr => cases h; exact .inr (.inr (.inr (.inr (.inr ⟨.inr hr, rfl⟩))))

/-- RDSTEP changes the reader's registers and EBUF at most. -/
theorem rdstep_frame {x : Bool} {s t : State} (h : rdstep x s = .next t) : ReaderOnly s t := by
  rcases rdstep_next h with ⟨-, rfl⟩ | ⟨-, -, rfl⟩ | ⟨-, -, rfl⟩ | ⟨-, -, h⟩ | ⟨-, -, h⟩ | ⟨-, rfl⟩
  · rfl
  · rfl
  · rfl
  · rcases widthCodeRead_next h with ⟨-, rfl⟩ | ⟨w, -, -, ⟨-, rfl⟩ | ⟨-, rfl⟩⟩ <;> rfl
  · rcases elementRead_next h with ⟨-, ⟨-, rfl⟩ | ⟨-, rfl⟩⟩ <;> rfl
  · rfl

@[simp] theorem feedBits_nil (s : State) : feedBits [] s = .next s := rfl

/-- Bits before bits: the second run starts where the first ended. -/
theorem feedBits_append {a b : Bits} {s t : State} (h : feedBits a s = .next t) :
    feedBits (a ++ b) s = feedBits b t := by
  induction a generalizing s with
  | nil => cases h; rfl
  | cons x a ih =>
    simp only [List.cons_append, feedBits] at h ⊢
    split at h
    · next u hu => simpa [hu] using ih h
    · cases h
    · cases h

/-- A run over bits that gives a next state, from its first bit on. -/
theorem feedBits_cons_next {x : Bool} {b : Bits} {s t : State} (h : feedBits (x :: b) s = .next t) :
    ∃ u, rdstep x s = .next u ∧ feedBits b u = .next t := by
  simp only [feedBits] at h
  split at h
  · next u hu => exact ⟨u, hu, h⟩
  · cases h
  · cases h

/-- What holds before and after every bit holds after a run. -/
theorem feedBits_induction {P : State → Prop} (hP : ∀ x s t, P s → rdstep x s = .next t → P t) {b : Bits}
    {s t : State} (hs : P s) (h : feedBits b s = .next t) : P t := by
  induction b generalizing s with
  | nil => cases h; exact hs
  | cons x b ih =>
    obtain ⟨u, hu, h'⟩ := feedBits_cons_next h
    exact ih (hP x s u hs hu) h'

/-- A run changes the reader's registers and EBUF at most. -/
theorem feedBits_frame {b : Bits} {s t : State} (h : feedBits b s = .next t) : ReaderOnly s t :=
  feedBits_induction (P := fun u => ReaderOnly s u) (fun _ _ _ hs hx => hs.trans (rdstep_frame hx)) (.refl s) h

/-- Bits that do not end the field are shifted in (R172): `SH` takes them, `BCNT` counts them. -/
theorem feedBits_field {b : Bits} {s : State} (h : s.rs = .len ∨ s.rs = .wc ∨ s.rs = .elem)
    (hb : b.length < s.bcnt.toNat) :
    feedBits b s = .next { s with
      sh := BitVec.ofNat 10 (s.sh.toNat * 2 ^ b.length + val b), bcnt := s.bcnt - BitVec.ofNat 4 b.length } := by
  induction b generalizing s with
  | nil => simp [feedBits, val, valFrom]
  | cons x b ih =>
    rw [List.length_cons] at hb
    have h1 : s.bcnt ≠ 1 := by intro e; rw [e] at hb; simp at hb
    have h2 : (s.bcnt - 1).toNat = s.bcnt.toNat - 1 := by
      have := s.bcnt.isLt
      simp [BitVec.toNat_sub]; omega
    have hr : (fieldBit x s).rs = .len ∨ (fieldBit x s).rs = .wc ∨ (fieldBit x s).rs = .elem := h
    have hs := ih hr (show b.length < (s.bcnt - 1).toNat by omega)
    simp only [feedBits, rdstep_fieldBit h h1]
    rw [hs]
    have e1 : BitVec.ofNat 10 ((shiftIn s.sh x).toNat * 2 ^ b.length + val b) =
        BitVec.ofNat 10 (s.sh.toNat * 2 ^ (b.length + 1) + val (x :: b)) := by
      apply BitVec.eq_of_toNat_eq
      simp only [BitVec.toNat_ofNat, shiftIn_toNat, val_cons]
      rw [Nat.add_mod, Nat.mul_mod, Nat.mod_mod, ← Nat.mul_mod, ← Nat.add_mod]
      congr 1; ring
    have e2 : s.bcnt - 1 - BitVec.ofNat 4 b.length = s.bcnt - BitVec.ofNat 4 (b.length + 1) := by
      rw [BitVec.ofNat_add, BitVec.sub_sub, BitVec.add_comm]; rfl
    simp only [fieldBit, bitsLeft, e1, e2, List.length_cons]

/-- After the last element, and after the reserved width-code, every bit is ignored (R167, R172). -/
theorem feedBits_ignored {s : State} (h : s.rs = .done ∨ s.rs = .badwc) (b : Bits) : feedBits b s = .next s := by
  induction b with
  | nil => rfl
  | cons x b ih => rcases h with h | h <;> simpa [feedBits, rdstep, h] using ih

/-- Everything that bits arriving in DEC_LOAD can do. -/
theorem readerInput_next {b : Bits} {s t : State} (h : readerInput b s = .next t) :
    (s.icerr = true ∧ t = s) ∨ (s.icerr = false ∧ feedBits b s = .next t) := by
  unfold readerInput at h
  split at h
  · next hi => cases h; exact .inl ⟨hi, rfl⟩
  · next hi => exact .inr ⟨by simpa using hi, h⟩

theorem readerInput_frame {b : Bits} {s t : State} (h : readerInput b s = .next t) : ReaderOnly s t := by
  rcases readerInput_next h with ⟨-, rfl⟩ | ⟨-, h⟩
  · exact .refl _
  · exact feedBits_frame h

end Sys2Proof.Machine
end

