-- ==== Sys2Proof/Laws/Commands.lean ====
section
/-! SUPPORT. What a beat, a field, a symbol or a status code can do: every case in which there is a next state. -/

namespace Sys2Proof.Machine

/-! ## The load phases -/

/-- Everything an element beat can do in ENC_LOAD (44_commands.md R185). -/
theorem encLoadData_cases (v : CodeUnit) (s : State) :
    (s.cnt.toNat = Config.cntMax ∧ inRange v = true ∧ encLoadData v s = { s with ovf := true }) ∨
    (s.cnt.toNat = Config.cntMax ∧ inRange v = false ∧ encLoadData v s = { s with rerr := true, ovf := true }) ∨
    (s.cnt.toNat ≠ Config.cntMax ∧ inRange v = true ∧ encLoadData v s = { storeElement v s with cnt := s.cnt + 1 }) ∨
    (s.cnt.toNat ≠ Config.cntMax ∧ inRange v = false ∧ encLoadData v s = { s with rerr := true, cnt := s.cnt + 1 }) := by
  by_cases hc : s.cnt.toNat = Config.cntMax <;> cases hr : inRange v <;>
    simp [encLoadData, flagRange, flagOverflow, hc, hr]

/-- Everything the end beat can do in ENC_LOAD (R186). -/
theorem encLoadEnd_cases (s : State) :
    (s.rerr = true ∧ encLoadEnd s = takeError .rangeError 0 s) ∨
    (s.rerr = false ∧ s.ovf = true ∧ encLoadEnd s = takeError .lengthError 0 s) ∨
    (s.rerr = false ∧ s.ovf = false ∧ encLoadEnd s =
      { s with
        wid := widthReg (wsel s.max.toNat), status := okCode, info := 0, eidx := 0, hdone := false, acc := [],
        nacc := 0, ph := .encEmit }) := by
  cases hr : s.rerr <;> cases ho : s.ovf <;> simp [encLoadEnd, hr, ho]

/-- Everything a character beat can do in DEC_LOAD (R193). -/
theorem decLoadData_next {c : CodeUnit} {s t : State} (h : decLoadData c s = .next t) :
    (s.icerr = true ∧ t = s) ∨
    (s.icerr = false ∧ symdec c = none ∧ t = { s with icerr := true, badc := c }) ∨
    (s.icerr = false ∧ ∃ i, symdec c = some i ∧ feedBits (expand i) s = .next t) := by
  unfold decLoadData at h
  split at h
  · next hi => cases h; exact .inl ⟨hi, rfl⟩
  · next hi =>
    have hi : s.icerr = false := by simpa using hi
    split at h
    · next hc => cases h; exact .inr (.inl ⟨hi, hc, rfl⟩)
    · next i hc => exact .inr (.inr ⟨hi, i, hc, h⟩)

/-- Everything the end beat can do in DEC_LOAD (R194). -/
theorem decLoadEnd_cases (s : State) :
    (s.icerr = true ∧ decLoadEnd s = takeError .invalidCharacter s.badc s) ∨
    (s.icerr = false ∧ s.rs = .badwc ∧ decLoadEnd s = takeError .invalidWidthCode 0 s) ∨
    (s.icerr = false ∧ s.rs = .done ∧
      decLoadEnd s = { s with status := okCode, info := 0, eidx := 0, ph := .decEmit }) ∨
    (s.icerr = false ∧ s.rs ≠ .badwc ∧ s.rs ≠ .done ∧ decLoadEnd s = takeError .truncatedInput 0 s) := by
  cases hi : s.icerr <;> cases hr : s.rs <;> simp [decLoadEnd, hi, hr]

/-- Everything a beat can do by the rule of its phase. -/
theorem loadBeat_next {b : InBeat} {s t : State} (h : loadBeat b s = .next t) :
    (s.ph = .encLoad ∧ b.fin = true ∧ t = encLoadEnd s) ∨
    (s.ph = .encLoad ∧ b.fin = false ∧ t = encLoadData b.data s) ∨
    (s.ph = .decLoad ∧ b.fin = true ∧ t = decLoadEnd s) ∨
    (s.ph = .decLoad ∧ b.fin = false ∧ decLoadData b.data s = .next t) ∨
    (s.ph ≠ .encLoad ∧ s.ph ≠ .decLoad ∧ t = s) := by
  unfold loadBeat at h
  cases hp : s.ph <;> cases hf : b.fin <;> simp_all

/-- Everything a presented beat can do (R183, R185, R186, R193, R194; 10_state.md R34). -/
theorem inputBeat_next {b : InBeat} {s t : State} (h : inputBeat b s = .next t) :
    (s.ph = .idle ∧ loadBeat b (startTransaction b.op (logIn b s)) = .next t) ∨
    ((s.ph = .encLoad ∨ s.ph = .decLoad) ∧ loadBeat b (logIn b s) = .next t) ∨
    ((s.ph = .encEmit ∨ s.ph = .decEmit ∨ s.ph = .report) ∧ t = s) := by
  unfold inputBeat at h
  cases hp : s.ph <;> simp_all

/-- Everything a command can do (R183; 20_memory.md R67). -/
theorem command_next {op : Bool} {s t : State} (h : command op s = .next t) :
    (s.ph = .idle ∧ inputBeat { op := op, fin := s.pins.inEnd, data := s.pins.inData } s = .next t) ∨
    (s.ph ≠ .idle ∧ t = s) := by
  unfold command at h
  cases hp : s.ph <;> simp_all

/-! ## Output -/

/-- Everything an output beat can do (30_encoding.md R84). -/
theorem execOutBeat_next {fin : Bool} {data : CodeUnit} {status : BitVec 3} {s t : State}
    (h : execOutBeat fin data status s = .next t) :
    offer s = some { fin := fin, data := data, status := status } ∧
      t = deliver { fin := fin, data := data, status := status } s := by
  unfold execOutBeat at h
  split at h
  · next ho => cases h; exact ⟨ho, rfl⟩
  · cases h

/-- Everything a status code can do (44_commands.md R188). -/
theorem reportStatus_next {code : BitVec 3} {s t : State} (h : reportStatus code s = .next t) :
    s.ph = .report ∧ s.status = code ∧ t = deliver (endBeat s) s := by
  unfold reportStatus at h
  split at h
  · next hc => cases h; exact ⟨hc.1, hc.2, rfl⟩
  · cases h

/-! ## Fields and symbols -/

/-- Everything a field of the bit string can do (R187; 43_bit_unpacker.md R172). -/
theorem bitField_next {i : Instr} {push : Bits → State → State} {atField : Bool} {s t : State}
    (h : bitField i push atField s = .next t) :
    ∃ f b, encode i = some (f, b) ∧
      ((s.ph = .encEmit ∧ fetch s = .word f b ∧ t = push b s) ∨
       (s.ph = .decLoad ∧ atField = true ∧ readerInput b s = .next t)) := by
  unfold bitField at h
  split at h
  · cases h
  · next f b he =>
    refine ⟨f, b, he, ?_⟩
    cases hp : s.ph <;> simp only [hp] at h <;> try cases h
    all_goals
      split at h
      · next hf => simp_all
      · cases h

/-- Everything a symbol can do (R187 E1; R173, R193). -/
theorem symbolRow_next {i : Nat} {s t : State} (h : symbolRow i s = .next t) :
    (s.ph = .encEmit ∧ fetch s = .word .sym (expand i) ∧
      t = deliver { fin := false, data := symenc i, status := 0 } s) ∨
    (s.ph = .decLoad ∧ readerInput (expand i) s = .next t) := by
  unfold symbolRow at h
  cases hp : s.ph <;> simp only [hp] at h <;> try cases h
  · split at h
    · next hf => simp_all
    · cases h
  · exact .inr ⟨rfl, h⟩

/-! ## What is offered -/

/-- The step of ENC_EMIT that is enabled, by its condition (R187). -/
theorem emitStep_cases (s : State) :
    (emitStep s = .symbol ∧ 6 ≤ s.nacc.toNat) ∨
    (emitStep s = .header ∧ s.nacc.toNat < 6 ∧ s.hdone = false) ∨
    (emitStep s = .element ∧ s.nacc.toNat < 6 ∧ s.hdone = true ∧ s.eidx.toNat < s.cnt.toNat) ∨
    (emitStep s = .padding ∧ s.nacc.toNat < 6 ∧ s.hdone = true ∧ s.cnt.toNat ≤ s.eidx.toNat ∧ 0 < s.nacc.toNat) ∨
    (emitStep s = .finish ∧ s.hdone = true ∧ s.cnt.toNat ≤ s.eidx.toNat ∧ s.nacc.toNat = 0) := by
  unfold emitStep
  by_cases h1 : 6 ≤ s.nacc.toNat
  · simp [h1]
  · cases h2 : s.hdone <;> by_cases h3 : s.eidx.toNat < s.cnt.toNat <;> by_cases h4 : 0 < s.nacc.toNat <;>
      simp [h1, h3, h4] <;> omega

/-- Everything that can be offered (10_state.md R31, R34). -/
theorem offer_cases {s : State} {o : OutBeat} (h : offer s = some o) :
    (s.ph = .encEmit ∧ 6 ≤ s.nacc.toNat ∧ o = { fin := false, data := symenc (val (s.acc.take 6)), status := 0 }) ∨
    (s.ph = .decEmit ∧ s.eidx.toNat < s.cnt.toNat ∧
      ∃ v, Memory.read s.ebuf s.eidx.toNat = some v ∧ o = elementBeat v) ∨
    (s.ph = .report ∧ o = endBeat s) := by
  unfold offer at h
  cases hp : s.ph <;> simp only [hp] at h <;> try cases h
  · split at h
    · next hn => cases h; exact .inl ⟨rfl, hn, rfl⟩
    · cases h
  · split at h
    · next hn =>
      obtain ⟨v, hv, rfl⟩ := Option.map_eq_some_iff.1 h
      exact .inr (.inl ⟨rfl, hn, v, hv, rfl⟩)
    · cases h
  · exact .inr (.inr ⟨rfl, rfl⟩)

/-- Everything that the transfer of a beat changes in the registers. -/
theorem deliver_cases (b : OutBeat) (s : State) :
    (s.ph = .encEmit ∧ deliver b s = { popSymbol s with outLog := s.outLog ++ [b] }) ∨
    (s.ph = .decEmit ∧ deliver b s = { s with eidx := s.eidx + 1, outLog := s.outLog ++ [b] }) ∨
    (s.ph = .report ∧ deliver b s = { s with ph := .idle, outLog := s.outLog ++ [b] }) ∨
    ((s.ph = .idle ∨ s.ph = .encLoad ∨ s.ph = .decLoad) ∧ deliver b s = { s with outLog := s.outLog ++ [b] }) := by
  cases hp : s.ph <;> simp [deliver, afterBeat, hp]

end Sys2Proof.Machine
end

