-- ==== Sys2Proof/Laws/Position.lean ====
section
/-! SUPPORT. What running the row at the machine's position comes to, phase by phase: the beat rule of a phase that takes
input, one of the five steps of ENC_EMIT, one of the two of DEC_EMIT, or the end beat of REPORT. -/

namespace Sys2Proof.Machine

/-- `runPosition` at a word that is a whole row. -/
theorem runPosition_word {s : State} {f : Format} {b : Bits} {i : Instr} (hf : fetch s = .word f b)
    (hd : decode f b = .ok (i, [])) : runPosition s = exec i s := by
  simp [runPosition, hf, hd]

/-- IDLE: the beat on the pins starts the transaction (R183). -/
theorem runPosition_idle {s : State} (h : s.ph = .idle) : runPosition s = inputBeat s.pins.beat s := by
  have hf : fetch s = .word .cmd [s.pins.inOp] := by simp [fetch, h]
  cases ho : s.pins.inOp <;> rw [ho] at hf
  · rw [runPosition_word (i := .encodeCmd) hf rfl]
    show command false s = _
    simp [command, h, Pins.beat, ho]
  · rw [runPosition_word (i := .decodeCmd) hf rfl]
    show command true s = _
    simp [command, h, Pins.beat, ho]

/-- The row of an input beat is its fields. -/
theorem decode_inBeat_bits (op fin : Bool) (d : CodeUnit) :
    decode .inBeat (op :: fin :: bin 16 d.toNat) = .ok (.inBeat op fin d, []) := by
  have h := decodeFixed_append (f := .inBeat) (row := inBeatRow) (b := op :: fin :: bin 16 d.toNat) (n := 18) []
    (by simp)
  simp only [List.append_nil] at h
  simp only [decode, h, val_cons, bin_length, List.length_cons, val_bin_of_lt d.isLt, inBeatRow]
  have := d.isLt
  cases op <;> cases fin <;> simp <;> (try constructor) <;> (try constructor) <;> (try omega) <;>
    (apply BitVec.eq_of_toNat_eq; simp; omega)

/-- A load phase: the beat on the pins is processed (R185, R186, R193, R194). -/
theorem runPosition_load {s : State} (h : s.ph = .encLoad ∨ s.ph = .decLoad) :
    runPosition s = inputBeat s.pins.beat s := by
  have hf : fetch s = .word .inBeat (s.pins.inOp :: s.pins.inEnd :: bin 16 s.pins.inData.toNat) := by
    rcases h with h | h <;> simp [fetch, h]
  rw [runPosition_word hf (decode_inBeat_bits _ _ _)]
  rfl

/-- The row of a chunk is its symbol, and the symbol's bits are the chunk. -/
theorem symbol_of_chunk {b : Bits} (h : b.length = 6) :
    decode .sym b = .ok (symInstr (val b), []) ∧ ∀ s, exec (symInstr (val b)) s = symbolRow (val b) s := by
  constructor
  · have := decodeFixed_append (f := .sym) (row := symInstr) [] h
    simpa [decode] using this
  · have hv : val b < 64 := by have := val_lt b; rw [h] at this; exact this
    intro s
    generalize val b = n at hv
    interval_cases n <;> rfl

/-- E1: the symbol of the six oldest bits is transferred (R187). -/
theorem runPosition_symbol {s : State} (h : s.ph = .encEmit) (he : emitStep s = .symbol) (hl : 6 ≤ s.acc.length) :
    runPosition s = .next (deliver { fin := false, data := symenc (val (s.acc.take 6)), status := 0 } s) := by
  have h6 : (s.acc.take 6).length = 6 := by simp [hl]
  have hf : fetch s = .word .sym (s.acc.take 6) := by simp [fetch, h, fetchEmit, he]
  have hb : expand (val (s.acc.take 6)) = s.acc.take 6 := by
    have := bin_val (s.acc.take 6)
    rwa [h6] at this
  rw [runPosition_word hf (symbol_of_chunk h6).1, (symbol_of_chunk h6).2]
  simp [symbolRow, h, hf, hb]

/-- A field that is due is pushed. -/
theorem bitField_push {i : Instr} {push : Bits → State → State} {atField : Bool} {s : State} {f : Format} {b : Bits}
    (he : encode i = some (f, b)) (hp : s.ph = .encEmit) (hf : fetch s = .word f b) :
    bitField i push atField s = .next (push b s) := by
  simp [bitField, he, hp, hf]

theorem wcOfNat_val (c : WidthCode) : wcOfNat (val (bin 2 (wcNat c))) = c := by cases c <;> rfl

/-- E2: the header is pushed (R187). -/
theorem runPosition_header {s : State} {w : Width} (h : s.ph = .encEmit) (he : emitStep s = .header)
    (hw : s.wid = widthReg w) : runPosition s = .next (pushHeader (hdr s.cnt.toNat w) s) := by
  have hf : fetch s = .word .hdr (hdr s.cnt.toNat w) := by simp [fetch, h, fetchEmit, he, hw]
  have hn := s.cnt.isLt
  have hc : wcNat (wcOfWidth w) < 4 := by cases w <;> decide
  have hwc : wcOfNat (wcNat (wcOfWidth w)) = wcOfWidth w := by cases w <;> rfl
  have hv2 : val (bin 2 (wcNat (wcOfWidth w))) = wcNat (wcOfWidth w) := val_bin_of_lt hc
  by_cases hs : s.cnt.toNat < 64
  · have hb : hdr s.cnt.toNat w = false :: (bin 6 s.cnt.toNat ++ bin 2 (wcNat (wcOfWidth w))) := by
      simp [hdr, lflag, lenw, Config.lenSplit, Config.lenShortW, wcode, show ¬ 64 ≤ s.cnt.toNat by omega]
    have hd : decode .hdr (hdr s.cnt.toNat w) = .ok (.hdrShort (BitVec.ofNat 6 s.cnt.toNat) (wcOfWidth w), []) := by
      have := decodeFixed_append (f := .hdr) (row := hdrShortRow) (n := 8)
        (b := bin 6 s.cnt.toNat ++ bin 2 (wcNat (wcOfWidth w))) [] (by simp)
      rw [List.append_nil] at this
      rw [hb]; simp only [decode, this, val_append, bin_length, hv2, val_bin_of_lt (n := 6) hs, hdrShortRow]
      have e1 : (s.cnt.toNat * 2 ^ 2 + wcNat (wcOfWidth w)) / 4 = s.cnt.toNat := by omega
      have e2 : (s.cnt.toNat * 2 ^ 2 + wcNat (wcOfWidth w)) % 4 = wcNat (wcOfWidth w) := by omega
      rw [e1, e2, hwc]
    rw [runPosition_word hf hd]
    refine bitField_push (i := .hdrShort _ _) (f := .hdr) ?_ h hf
    simp [encode, hb, Nat.mod_eq_of_lt hs]
  · have hb : hdr s.cnt.toNat w = true :: (bin 10 s.cnt.toNat ++ bin 2 (wcNat (wcOfWidth w))) := by
      simp [hdr, lflag, lenw, Config.lenSplit, Config.lenLongW, wcode, show 64 ≤ s.cnt.toNat by omega]
    have hd : decode .hdr (hdr s.cnt.toNat w) = .ok (.hdrLong s.cnt (wcOfWidth w), []) := by
      have := decodeFixed_append (f := .hdr) (row := hdrLongRow) (n := 12)
        (b := bin 10 s.cnt.toNat ++ bin 2 (wcNat (wcOfWidth w))) [] (by simp)
      rw [List.append_nil] at this
      rw [hb]; simp only [decode, this, val_append, bin_length, hv2, val_bin_of_lt hn, hdrLongRow]
      have e1 : (s.cnt.toNat * 2 ^ 2 + wcNat (wcOfWidth w)) / 4 = s.cnt.toNat := by omega
      have e2 : (s.cnt.toNat * 2 ^ 2 + wcNat (wcOfWidth w)) % 4 = wcNat (wcOfWidth w) := by omega
      rw [e1, e2, hwc]
      simp
    rw [runPosition_word hf hd]
    exact bitField_push (i := .hdrLong _ _) (f := .hdr) (by simp [encode, hb]) h hf

/-- E3: the element `EBUF[EIDX]` is pushed (R187). -/
theorem runPosition_element {s : State} {w : Width} {v : Entry} (h : s.ph = .encEmit) (he : emitStep s = .element)
    (hw : s.wid = widthReg w) (hv : Memory.read s.ebuf s.eidx.toNat = some v) (hlt : v.toNat < 2 ^ widthBits w) :
    runPosition s = .next (pushElement (bin (widthBits w) v.toNat) s) := by
  have hf : fetch s = .word (.elem w) (bin (widthBits w) v.toNat) := by
    simp [fetch, h, fetchEmit, he, hw, fetchElement, hv, hlt]
  have hd : decode (.elem w) (bin (widthBits w) v.toNat) = .ok (elemInstr w v.toNat, []) := by
    have := decodeFixed_append (f := .elem w) (row := elemInstr w) [] (bin_length (widthBits w) v.toNat)
    rw [List.append_nil, val_bin_of_lt hlt] at this
    simpa [decode] using this
  rw [runPosition_word hf hd]
  have he : encode (elemInstr w v.toNat) = some (.elem w, bin (widthBits w) v.toNat) := by
    cases w <;> simp only [elemInstr, encode, BitVec.toNat_ofNat, bin_mod, widthBits]
  cases w
  · exact bitField_push (i := .elem4 _) he h hf
  · exact bitField_push (i := .elem7 _) he h hf
  · exact bitField_push (i := .elem9 _) he h hf

/-- E4: the padding is pushed (R187). -/
theorem runPosition_padding {s : State} (h : s.ph = .encEmit) (he : emitStep s = .padding) (hn : 0 < s.nacc.toNat) :
    runPosition s = .next (pushBits (zeros (6 - s.nacc.toNat)) s) := by
  have hf : fetch s = .word (.padf (6 - s.nacc.toNat)) (zeros (6 - s.nacc.toNat)) := by
    simp [fetch, h, fetchEmit, he]
  have hd : decode (.padf (6 - s.nacc.toNat)) (zeros (6 - s.nacc.toNat)) = .ok (.padf (6 - s.nacc.toNat), []) := by
    have := decodeFixed_append (f := .padf (6 - s.nacc.toNat)) (row := fun _ => .padf (6 - s.nacc.toNat)) []
      (zeros_length (6 - s.nacc.toNat))
    rw [List.append_nil] at this
    simp only [decode, this]
    rw [if_neg (by omega)]
  rw [runPosition_word hf hd]
  have hne : ¬ (6 - s.nacc.toNat = 0 ∧ s.ph = .encEmit ∧ emitStep s = .finish) := by simp [he]
  show execPadf _ s = _
  rw [execPadf, if_neg hne]
  exact bitField_push rfl h hf

/-- E5: the internal step to REPORT (R187). -/
theorem runPosition_encFinish {s : State} (h : s.ph = .encEmit) (he : emitStep s = .finish) :
    runPosition s = .next (toReport s) := by
  simp [runPosition, fetch, h, fetchEmit, he]

/-- The row of an output beat is its fields. -/
theorem decode_outBeat_bits (o : OutBeat) :
    decode .outBeat (outBeatBits o) = .ok (.outBeat o.fin o.data o.status, []) := by
  have h := decodeFixed_append (f := .outBeat) (row := outBeatRow) (b := outBeatBits o) (n := 20) [] (by simp [outBeatBits])
  simp only [List.append_nil] at h
  rw [decode, h]
  obtain ⟨fin, data, status⟩ := o
  simp only [outBeatBits, val_cons, val_append, bin_length, List.length_append, val_bin_of_lt data.isLt,
    val_bin_of_lt status.isLt, outBeatRow]
  have := data.isLt
  have := status.isLt
  cases fin <;> simp <;> (try constructor) <;> (try constructor) <;> (try omega) <;>
    (apply BitVec.eq_of_toNat_eq; simp; omega)

/-- X1: the element `EBUF[EIDX]` is transferred (R196). -/
theorem runPosition_decElement {s : State} {v : Entry} (h : s.ph = .decEmit) (hi : s.eidx.toNat < s.cnt.toNat)
    (hv : Memory.read s.ebuf s.eidx.toNat = some v) : runPosition s = .next (deliver (elementBeat v) s) := by
  have hf : fetch s = .word .outBeat (outBeatBits (elementBeat v)) := by simp [fetch, h, fetchDecEmit, hi, hv]
  rw [runPosition_word hf (decode_outBeat_bits _)]
  show execOutBeat _ _ _ s = _
  rw [execOutBeat, if_pos]
  simp [offer, h, hi, hv]

/-- X2: the internal step to REPORT (R196). -/
theorem runPosition_decFinish {s : State} (h : s.ph = .decEmit) (hi : s.cnt.toNat ≤ s.eidx.toNat) :
    runPosition s = .next (toReport s) := by
  simp [runPosition, fetch, h, fetchDecEmit, show ¬ s.eidx.toNat < s.cnt.toNat by omega]

/-- The end beat of REPORT, for the codes that are produced (R188). -/
theorem runPosition_report {s : State} (h : s.ph = .report) (hs : s.status.toNat ≤ 5) :
    runPosition s = .next (deliver (endBeat s) s) := by
  have hf : fetch s = .word .status (bin 3 s.status.toNat) := by simp [fetch, h]
  obtain ⟨n, hn, hb⟩ : ∃ n, n ≤ 5 ∧ s.status = BitVec.ofNat 3 n := ⟨s.status.toNat, hs, by simp⟩
  rw [hb] at hf
  interval_cases n <;> rw [runPosition_word hf rfl] <;> exact if_pos ⟨h, hb⟩

theorem widthOfReg_eq_some {r : BitVec 4} {w : Width} (h : widthOfReg r = some w) : r = widthReg w := by
  revert h; revert r w
  decide +revert

/-- Bits too few for a symbol are no row. -/
theorem decode_sym_short {b : Bits} (h : b.length < 6) : decode .sym b = .error (.tooShort .sym) := by
  simp [decode, decodeFixed, takeField, h]

/-- Everything that running the row at the position can do, from any state. -/
theorem runPosition_next {s t : State} (h : runPosition s = .next t) :
    ((s.ph = .idle ∨ s.ph = .encLoad ∨ s.ph = .decLoad) ∧ inputBeat s.pins.beat s = .next t) ∨
    (s.ph = .encEmit ∧
      ((emitStep s = .symbol ∧ 6 ≤ s.acc.length ∧
          t = deliver { fin := false, data := symenc (val (s.acc.take 6)), status := 0 } s) ∨
       (emitStep s = .header ∧ ∃ w, s.wid = widthReg w ∧ t = pushHeader (hdr s.cnt.toNat w) s) ∨
       (emitStep s = .element ∧ ∃ w v, s.wid = widthReg w ∧ Memory.read s.ebuf s.eidx.toNat = some v ∧
          v.toNat < 2 ^ widthBits w ∧ t = pushElement (bin (widthBits w) v.toNat) s) ∨
       (emitStep s = .padding ∧ t = pushBits (zeros (6 - s.nacc.toNat)) s) ∨
       (emitStep s = .finish ∧ t = toReport s))) ∨
    (s.ph = .decEmit ∧
      ((s.eidx.toNat < s.cnt.toNat ∧ ∃ v, Memory.read s.ebuf s.eidx.toNat = some v ∧ t = deliver (elementBeat v) s) ∨
       (s.cnt.toNat ≤ s.eidx.toNat ∧ t = toReport s))) ∨
    (s.ph = .report ∧ s.status.toNat ≤ 5 ∧ t = deliver (endBeat s) s) := by
  cases hp : s.ph with
  | idle => rw [runPosition_idle hp] at h; exact .inl ⟨.inl rfl, h⟩
  | encLoad => rw [runPosition_load (.inl hp)] at h; exact .inl ⟨.inr (.inl rfl), h⟩
  | decLoad => rw [runPosition_load (.inr hp)] at h; exact .inl ⟨.inr (.inr rfl), h⟩
  | encEmit =>
    refine .inr (.inl ⟨rfl, ?_⟩)
    rcases emitStep_cases s with ⟨a, -⟩ | ⟨a, -, -⟩ | ⟨a, -, -, -⟩ | ⟨a, -, -, -, hn⟩ | ⟨a, -, -, -⟩
    · by_cases hl : 6 ≤ s.acc.length
      · rw [runPosition_symbol hp a hl] at h
        cases h; exact .inl ⟨a, hl, rfl⟩
      · have hd : decode .sym (s.acc.take 6) = .error (.tooShort .sym) := decode_sym_short (by simp; omega)
        simp [runPosition, fetch, hp, fetchEmit, a, hd] at h
    · refine .inr (.inl ⟨a, ?_⟩)
      cases hw : widthOfReg s.wid with
      | none => simp [runPosition, fetch, hp, fetchEmit, a, hw] at h
      | some w =>
        have hw := widthOfReg_eq_some hw
        rw [runPosition_header hp a hw] at h
        cases h; exact ⟨w, hw, rfl⟩
    · refine .inr (.inr (.inl ⟨a, ?_⟩))
      cases hw : widthOfReg s.wid with
      | none => simp [runPosition, fetch, hp, fetchEmit, a, hw] at h
      | some w =>
        cases hv : Memory.read s.ebuf s.eidx.toNat with
        | none => simp [runPosition, fetch, hp, fetchEmit, a, hw, fetchElement, hv] at h
        | some v =>
          by_cases hlt : v.toNat < 2 ^ widthBits w
          · have hw := widthOfReg_eq_some hw
            rw [runPosition_element hp a hw hv hlt] at h
            cases h; exact ⟨w, v, hw, rfl, hlt, rfl⟩
          · simp [runPosition, fetch, hp, fetchEmit, a, hw, fetchElement, hv, hlt] at h
    · rw [runPosition_padding hp a hn] at h
      cases h; exact .inr (.inr (.inr (.inl ⟨a, rfl⟩)))
    · rw [runPosition_encFinish hp a] at h
      cases h; exact .inr (.inr (.inr (.inr ⟨a, rfl⟩)))
  | decEmit =>
    refine .inr (.inr (.inl ⟨rfl, ?_⟩))
    by_cases hi : s.eidx.toNat < s.cnt.toNat
    · refine .inl ⟨hi, ?_⟩
      cases hv : Memory.read s.ebuf s.eidx.toNat with
      | none => simp [runPosition, fetch, hp, fetchDecEmit, hi, hv] at h
      | some v =>
        rw [runPosition_decElement hp hi hv] at h
        cases h; exact ⟨v, rfl, rfl⟩
    · rw [runPosition_decFinish hp (by omega)] at h
      cases h; exact .inr ⟨by omega, rfl⟩
  | report =>
    refine .inr (.inr (.inr ⟨rfl, ?_⟩))
    by_cases hs : s.status.toNat ≤ 5
    · rw [runPosition_report hp hs] at h
      cases h; exact ⟨hs, rfl⟩
    · have hf : fetch s = .word .status (bin 3 s.status.toNat) := by simp [fetch, hp]
      have h67 : s.status = 6 ∨ s.status = 7 := by
        have := s.status.isLt
        rcases (show s.status.toNat = 6 ∨ s.status.toNat = 7 by omega) with e | e
        · exact .inl (BitVec.eq_of_toNat_eq e)
        · exact .inr (BitVec.eq_of_toNat_eq e)
      rcases h67 with e | e
      · rw [e] at hf
        rw [runPosition_word (i := .stRsvd6) hf rfl] at h
        cases h
      · rw [e] at hf
        rw [runPosition_word (i := .stRsvd7) hf rfl] at h
        cases h

end Sys2Proof.Machine
end

