-- ==== Sys2Proof/Laws/State.lean ====
section
/-! SUPPORT. One lemma per field per update of the state, so that no later proof unfolds an update. -/

namespace Sys2Proof.Machine

/-! `initRegs` -/

@[simp] theorem initRegs_ph (s : State) : (initRegs s).ph = .idle := rfl
@[simp] theorem initRegs_cnt (s : State) : (initRegs s).cnt = 0 := rfl
@[simp] theorem initRegs_max (s : State) : (initRegs s).max = 0 := rfl
@[simp] theorem initRegs_wid (s : State) : (initRegs s).wid = 0 := rfl
@[simp] theorem initRegs_eidx (s : State) : (initRegs s).eidx = 0 := rfl
@[simp] theorem initRegs_hdone (s : State) : (initRegs s).hdone = false := rfl
@[simp] theorem initRegs_acc (s : State) : (initRegs s).acc = [] := rfl
@[simp] theorem initRegs_nacc (s : State) : (initRegs s).nacc = 0 := rfl
@[simp] theorem initRegs_rs (s : State) : (initRegs s).rs = .flag := rfl
@[simp] theorem initRegs_flag (s : State) : (initRegs s).flag = false := rfl
@[simp] theorem initRegs_bcnt (s : State) : (initRegs s).bcnt = 0 := rfl
@[simp] theorem initRegs_sh (s : State) : (initRegs s).sh = 0 := rfl
@[simp] theorem initRegs_rerr (s : State) : (initRegs s).rerr = false := rfl
@[simp] theorem initRegs_ovf (s : State) : (initRegs s).ovf = false := rfl
@[simp] theorem initRegs_icerr (s : State) : (initRegs s).icerr = false := rfl
@[simp] theorem initRegs_badc (s : State) : (initRegs s).badc = 0 := rfl
@[simp] theorem initRegs_status (s : State) : (initRegs s).status = 0 := rfl
@[simp] theorem initRegs_info (s : State) : (initRegs s).info = 0 := rfl
@[simp] theorem initRegs_ebuf (s : State) : (initRegs s).ebuf = s.ebuf := rfl
@[simp] theorem initRegs_pins (s : State) : (initRegs s).pins = s.pins := rfl
@[simp] theorem initRegs_outValid (s : State) : (initRegs s).outValid = s.outValid := rfl
@[simp] theorem initRegs_edges (s : State) : (initRegs s).edges = s.edges := rfl
@[simp] theorem initRegs_pend (s : State) : (initRegs s).pend = s.pend := rfl
@[simp] theorem initRegs_unitOut (s : State) : (initRegs s).unitOut = s.unitOut := rfl
@[simp] theorem initRegs_inLog (s : State) : (initRegs s).inLog = s.inLog := rfl
@[simp] theorem initRegs_outLog (s : State) : (initRegs s).outLog = s.outLog := rfl

/-! `resetEdge` -/

@[simp] theorem resetEdge_ph (s : State) : (resetEdge s).ph = .idle := rfl
@[simp] theorem resetEdge_cnt (s : State) : (resetEdge s).cnt = 0 := rfl
@[simp] theorem resetEdge_max (s : State) : (resetEdge s).max = 0 := rfl
@[simp] theorem resetEdge_wid (s : State) : (resetEdge s).wid = 0 := rfl
@[simp] theorem resetEdge_eidx (s : State) : (resetEdge s).eidx = 0 := rfl
@[simp] theorem resetEdge_hdone (s : State) : (resetEdge s).hdone = false := rfl
@[simp] theorem resetEdge_acc (s : State) : (resetEdge s).acc = [] := rfl
@[simp] theorem resetEdge_nacc (s : State) : (resetEdge s).nacc = 0 := rfl
@[simp] theorem resetEdge_rs (s : State) : (resetEdge s).rs = .flag := rfl
@[simp] theorem resetEdge_flag (s : State) : (resetEdge s).flag = false := rfl
@[simp] theorem resetEdge_bcnt (s : State) : (resetEdge s).bcnt = 0 := rfl
@[simp] theorem resetEdge_sh (s : State) : (resetEdge s).sh = 0 := rfl
@[simp] theorem resetEdge_rerr (s : State) : (resetEdge s).rerr = false := rfl
@[simp] theorem resetEdge_ovf (s : State) : (resetEdge s).ovf = false := rfl
@[simp] theorem resetEdge_icerr (s : State) : (resetEdge s).icerr = false := rfl
@[simp] theorem resetEdge_badc (s : State) : (resetEdge s).badc = 0 := rfl
@[simp] theorem resetEdge_status (s : State) : (resetEdge s).status = 0 := rfl
@[simp] theorem resetEdge_info (s : State) : (resetEdge s).info = 0 := rfl
@[simp] theorem resetEdge_ebuf (s : State) : (resetEdge s).ebuf = [] := rfl
@[simp] theorem resetEdge_pins (s : State) : (resetEdge s).pins = s.pins := rfl
@[simp] theorem resetEdge_outValid (s : State) : (resetEdge s).outValid = false := rfl
@[simp] theorem resetEdge_edges (s : State) : (resetEdge s).edges = s.edges := rfl
@[simp] theorem resetEdge_pend (s : State) : (resetEdge s).pend = none := rfl
@[simp] theorem resetEdge_unitOut (s : State) : (resetEdge s).unitOut = s.unitOut := rfl
@[simp] theorem resetEdge_inLog (s : State) : (resetEdge s).inLog = s.inLog := rfl
@[simp] theorem resetEdge_outLog (s : State) : (resetEdge s).outLog = s.outLog := rfl

/-! `startTransaction` -/

@[simp] theorem startTransaction_ph (op : Bool) (s : State) : (startTransaction op s).ph = if op then .decLoad else .encLoad := rfl
@[simp] theorem startTransaction_cnt (op : Bool) (s : State) : (startTransaction op s).cnt = 0 := rfl
@[simp] theorem startTransaction_max (op : Bool) (s : State) : (startTransaction op s).max = 0 := rfl
@[simp] theorem startTransaction_wid (op : Bool) (s : State) : (startTransaction op s).wid = 0 := rfl
@[simp] theorem startTransaction_eidx (op : Bool) (s : State) : (startTransaction op s).eidx = 0 := rfl
@[simp] theorem startTransaction_hdone (op : Bool) (s : State) : (startTransaction op s).hdone = false := rfl
@[simp] theorem startTransaction_acc (op : Bool) (s : State) : (startTransaction op s).acc = [] := rfl
@[simp] theorem startTransaction_nacc (op : Bool) (s : State) : (startTransaction op s).nacc = 0 := rfl
@[simp] theorem startTransaction_rs (op : Bool) (s : State) : (startTransaction op s).rs = .flag := rfl
@[simp] theorem startTransaction_flag (op : Bool) (s : State) : (startTransaction op s).flag = false := rfl
@[simp] theorem startTransaction_bcnt (op : Bool) (s : State) : (startTransaction op s).bcnt = 0 := rfl
@[simp] theorem startTransaction_sh (op : Bool) (s : State) : (startTransaction op s).sh = 0 := rfl
@[simp] theorem startTransaction_rerr (op : Bool) (s : State) : (startTransaction op s).rerr = false := rfl
@[simp] theorem startTransaction_ovf (op : Bool) (s : State) : (startTransaction op s).ovf = false := rfl
@[simp] theorem startTransaction_icerr (op : Bool) (s : State) : (startTransaction op s).icerr = false := rfl
@[simp] theorem startTransaction_badc (op : Bool) (s : State) : (startTransaction op s).badc = 0 := rfl
@[simp] theorem startTransaction_status (op : Bool) (s : State) : (startTransaction op s).status = 0 := rfl
@[simp] theorem startTransaction_info (op : Bool) (s : State) : (startTransaction op s).info = 0 := rfl
@[simp] theorem startTransaction_ebuf (op : Bool) (s : State) : (startTransaction op s).ebuf = s.ebuf := rfl
@[simp] theorem startTransaction_pins (op : Bool) (s : State) : (startTransaction op s).pins = s.pins := rfl
@[simp] theorem startTransaction_outValid (op : Bool) (s : State) : (startTransaction op s).outValid = s.outValid := rfl
@[simp] theorem startTransaction_edges (op : Bool) (s : State) : (startTransaction op s).edges = s.edges := rfl
@[simp] theorem startTransaction_pend (op : Bool) (s : State) : (startTransaction op s).pend = s.pend := rfl
@[simp] theorem startTransaction_unitOut (op : Bool) (s : State) : (startTransaction op s).unitOut = s.unitOut := rfl
@[simp] theorem startTransaction_inLog (op : Bool) (s : State) : (startTransaction op s).inLog = s.inLog := rfl
@[simp] theorem startTransaction_outLog (op : Bool) (s : State) : (startTransaction op s).outLog = s.outLog := rfl

/-! `pushBits` -/

@[simp] theorem pushBits_ph (b : Bits) (s : State) : (pushBits b s).ph = s.ph := rfl
@[simp] theorem pushBits_cnt (b : Bits) (s : State) : (pushBits b s).cnt = s.cnt := rfl
@[simp] theorem pushBits_max (b : Bits) (s : State) : (pushBits b s).max = s.max := rfl
@[simp] theorem pushBits_wid (b : Bits) (s : State) : (pushBits b s).wid = s.wid := rfl
@[simp] theorem pushBits_eidx (b : Bits) (s : State) : (pushBits b s).eidx = s.eidx := rfl
@[simp] theorem pushBits_hdone (b : Bits) (s : State) : (pushBits b s).hdone = s.hdone := rfl
@[simp] theorem pushBits_acc (b : Bits) (s : State) : (pushBits b s).acc = s.acc ++ b := rfl
@[simp] theorem pushBits_nacc (b : Bits) (s : State) : (pushBits b s).nacc = s.nacc + BitVec.ofNat 4 b.length := rfl
@[simp] theorem pushBits_rs (b : Bits) (s : State) : (pushBits b s).rs = s.rs := rfl
@[simp] theorem pushBits_flag (b : Bits) (s : State) : (pushBits b s).flag = s.flag := rfl
@[simp] theorem pushBits_bcnt (b : Bits) (s : State) : (pushBits b s).bcnt = s.bcnt := rfl
@[simp] theorem pushBits_sh (b : Bits) (s : State) : (pushBits b s).sh = s.sh := rfl
@[simp] theorem pushBits_rerr (b : Bits) (s : State) : (pushBits b s).rerr = s.rerr := rfl
@[simp] theorem pushBits_ovf (b : Bits) (s : State) : (pushBits b s).ovf = s.ovf := rfl
@[simp] theorem pushBits_icerr (b : Bits) (s : State) : (pushBits b s).icerr = s.icerr := rfl
@[simp] theorem pushBits_badc (b : Bits) (s : State) : (pushBits b s).badc = s.badc := rfl
@[simp] theorem pushBits_status (b : Bits) (s : State) : (pushBits b s).status = s.status := rfl
@[simp] theorem pushBits_info (b : Bits) (s : State) : (pushBits b s).info = s.info := rfl
@[simp] theorem pushBits_ebuf (b : Bits) (s : State) : (pushBits b s).ebuf = s.ebuf := rfl
@[simp] theorem pushBits_pins (b : Bits) (s : State) : (pushBits b s).pins = s.pins := rfl
@[simp] theorem pushBits_outValid (b : Bits) (s : State) : (pushBits b s).outValid = s.outValid := rfl
@[simp] theorem pushBits_edges (b : Bits) (s : State) : (pushBits b s).edges = s.edges := rfl
@[simp] theorem pushBits_pend (b : Bits) (s : State) : (pushBits b s).pend = s.pend := rfl
@[simp] theorem pushBits_unitOut (b : Bits) (s : State) : (pushBits b s).unitOut = s.unitOut := rfl
@[simp] theorem pushBits_inLog (b : Bits) (s : State) : (pushBits b s).inLog = s.inLog := rfl
@[simp] theorem pushBits_outLog (b : Bits) (s : State) : (pushBits b s).outLog = s.outLog := rfl

/-! `popSymbol` -/

@[simp] theorem popSymbol_ph (s : State) : (popSymbol s).ph = s.ph := rfl
@[simp] theorem popSymbol_cnt (s : State) : (popSymbol s).cnt = s.cnt := rfl
@[simp] theorem popSymbol_max (s : State) : (popSymbol s).max = s.max := rfl
@[simp] theorem popSymbol_wid (s : State) : (popSymbol s).wid = s.wid := rfl
@[simp] theorem popSymbol_eidx (s : State) : (popSymbol s).eidx = s.eidx := rfl
@[simp] theorem popSymbol_hdone (s : State) : (popSymbol s).hdone = s.hdone := rfl
@[simp] theorem popSymbol_acc (s : State) : (popSymbol s).acc = s.acc.drop 6 := rfl
@[simp] theorem popSymbol_nacc (s : State) : (popSymbol s).nacc = s.nacc - 6 := rfl
@[simp] theorem popSymbol_rs (s : State) : (popSymbol s).rs = s.rs := rfl
@[simp] theorem popSymbol_flag (s : State) : (popSymbol s).flag = s.flag := rfl
@[simp] theorem popSymbol_bcnt (s : State) : (popSymbol s).bcnt = s.bcnt := rfl
@[simp] theorem popSymbol_sh (s : State) : (popSymbol s).sh = s.sh := rfl
@[simp] theorem popSymbol_rerr (s : State) : (popSymbol s).rerr = s.rerr := rfl
@[simp] theorem popSymbol_ovf (s : State) : (popSymbol s).ovf = s.ovf := rfl
@[simp] theorem popSymbol_icerr (s : State) : (popSymbol s).icerr = s.icerr := rfl
@[simp] theorem popSymbol_badc (s : State) : (popSymbol s).badc = s.badc := rfl
@[simp] theorem popSymbol_status (s : State) : (popSymbol s).status = s.status := rfl
@[simp] theorem popSymbol_info (s : State) : (popSymbol s).info = s.info := rfl
@[simp] theorem popSymbol_ebuf (s : State) : (popSymbol s).ebuf = s.ebuf := rfl
@[simp] theorem popSymbol_pins (s : State) : (popSymbol s).pins = s.pins := rfl
@[simp] theorem popSymbol_outValid (s : State) : (popSymbol s).outValid = s.outValid := rfl
@[simp] theorem popSymbol_edges (s : State) : (popSymbol s).edges = s.edges := rfl
@[simp] theorem popSymbol_pend (s : State) : (popSymbol s).pend = s.pend := rfl
@[simp] theorem popSymbol_unitOut (s : State) : (popSymbol s).unitOut = s.unitOut := rfl
@[simp] theorem popSymbol_inLog (s : State) : (popSymbol s).inLog = s.inLog := rfl
@[simp] theorem popSymbol_outLog (s : State) : (popSymbol s).outLog = s.outLog := rfl

/-! `pushHeader` -/

@[simp] theorem pushHeader_ph (b : Bits) (s : State) : (pushHeader b s).ph = s.ph := rfl
@[simp] theorem pushHeader_cnt (b : Bits) (s : State) : (pushHeader b s).cnt = s.cnt := rfl
@[simp] theorem pushHeader_max (b : Bits) (s : State) : (pushHeader b s).max = s.max := rfl
@[simp] theorem pushHeader_wid (b : Bits) (s : State) : (pushHeader b s).wid = s.wid := rfl
@[simp] theorem pushHeader_eidx (b : Bits) (s : State) : (pushHeader b s).eidx = s.eidx := rfl
@[simp] theorem pushHeader_hdone (b : Bits) (s : State) : (pushHeader b s).hdone = true := rfl
@[simp] theorem pushHeader_acc (b : Bits) (s : State) : (pushHeader b s).acc = s.acc ++ b := rfl
@[simp] theorem pushHeader_nacc (b : Bits) (s : State) : (pushHeader b s).nacc = s.nacc + BitVec.ofNat 4 b.length := rfl
@[simp] theorem pushHeader_rs (b : Bits) (s : State) : (pushHeader b s).rs = s.rs := rfl
@[simp] theorem pushHeader_flag (b : Bits) (s : State) : (pushHeader b s).flag = s.flag := rfl
@[simp] theorem pushHeader_bcnt (b : Bits) (s : State) : (pushHeader b s).bcnt = s.bcnt := rfl
@[simp] theorem pushHeader_sh (b : Bits) (s : State) : (pushHeader b s).sh = s.sh := rfl
@[simp] theorem pushHeader_rerr (b : Bits) (s : State) : (pushHeader b s).rerr = s.rerr := rfl
@[simp] theorem pushHeader_ovf (b : Bits) (s : State) : (pushHeader b s).ovf = s.ovf := rfl
@[simp] theorem pushHeader_icerr (b : Bits) (s : State) : (pushHeader b s).icerr = s.icerr := rfl
@[simp] theorem pushHeader_badc (b : Bits) (s : State) : (pushHeader b s).badc = s.badc := rfl
@[simp] theorem pushHeader_status (b : Bits) (s : State) : (pushHeader b s).status = s.status := rfl
@[simp] theorem pushHeader_info (b : Bits) (s : State) : (pushHeader b s).info = s.info := rfl
@[simp] theorem pushHeader_ebuf (b : Bits) (s : State) : (pushHeader b s).ebuf = s.ebuf := rfl
@[simp] theorem pushHeader_pins (b : Bits) (s : State) : (pushHeader b s).pins = s.pins := rfl
@[simp] theorem pushHeader_outValid (b : Bits) (s : State) : (pushHeader b s).outValid = s.outValid := rfl
@[simp] theorem pushHeader_edges (b : Bits) (s : State) : (pushHeader b s).edges = s.edges := rfl
@[simp] theorem pushHeader_pend (b : Bits) (s : State) : (pushHeader b s).pend = s.pend := rfl
@[simp] theorem pushHeader_unitOut (b : Bits) (s : State) : (pushHeader b s).unitOut = s.unitOut := rfl
@[simp] theorem pushHeader_inLog (b : Bits) (s : State) : (pushHeader b s).inLog = s.inLog := rfl
@[simp] theorem pushHeader_outLog (b : Bits) (s : State) : (pushHeader b s).outLog = s.outLog := rfl

/-! `pushElement` -/

@[simp] theorem pushElement_ph (b : Bits) (s : State) : (pushElement b s).ph = s.ph := rfl
@[simp] theorem pushElement_cnt (b : Bits) (s : State) : (pushElement b s).cnt = s.cnt := rfl
@[simp] theorem pushElement_max (b : Bits) (s : State) : (pushElement b s).max = s.max := rfl
@[simp] theorem pushElement_wid (b : Bits) (s : State) : (pushElement b s).wid = s.wid := rfl
@[simp] theorem pushElement_eidx (b : Bits) (s : State) : (pushElement b s).eidx = s.eidx + 1 := rfl
@[simp] theorem pushElement_hdone (b : Bits) (s : State) : (pushElement b s).hdone = s.hdone := rfl
@[simp] theorem pushElement_acc (b : Bits) (s : State) : (pushElement b s).acc = s.acc ++ b := rfl
@[simp] theorem pushElement_nacc (b : Bits) (s : State) : (pushElement b s).nacc = s.nacc + BitVec.ofNat 4 b.length := rfl
@[simp] theorem pushElement_rs (b : Bits) (s : State) : (pushElement b s).rs = s.rs := rfl
@[simp] theorem pushElement_flag (b : Bits) (s : State) : (pushElement b s).flag = s.flag := rfl
@[simp] theorem pushElement_bcnt (b : Bits) (s : State) : (pushElement b s).bcnt = s.bcnt := rfl
@[simp] theorem pushElement_sh (b : Bits) (s : State) : (pushElement b s).sh = s.sh := rfl
@[simp] theorem pushElement_rerr (b : Bits) (s : State) : (pushElement b s).rerr = s.rerr := rfl
@[simp] theorem pushElement_ovf (b : Bits) (s : State) : (pushElement b s).ovf = s.ovf := rfl
@[simp] theorem pushElement_icerr (b : Bits) (s : State) : (pushElement b s).icerr = s.icerr := rfl
@[simp] theorem pushElement_badc (b : Bits) (s : State) : (pushElement b s).badc = s.badc := rfl
@[simp] theorem pushElement_status (b : Bits) (s : State) : (pushElement b s).status = s.status := rfl
@[simp] theorem pushElement_info (b : Bits) (s : State) : (pushElement b s).info = s.info := rfl
@[simp] theorem pushElement_ebuf (b : Bits) (s : State) : (pushElement b s).ebuf = s.ebuf := rfl
@[simp] theorem pushElement_pins (b : Bits) (s : State) : (pushElement b s).pins = s.pins := rfl
@[simp] theorem pushElement_outValid (b : Bits) (s : State) : (pushElement b s).outValid = s.outValid := rfl
@[simp] theorem pushElement_edges (b : Bits) (s : State) : (pushElement b s).edges = s.edges := rfl
@[simp] theorem pushElement_pend (b : Bits) (s : State) : (pushElement b s).pend = s.pend := rfl
@[simp] theorem pushElement_unitOut (b : Bits) (s : State) : (pushElement b s).unitOut = s.unitOut := rfl
@[simp] theorem pushElement_inLog (b : Bits) (s : State) : (pushElement b s).inLog = s.inLog := rfl
@[simp] theorem pushElement_outLog (b : Bits) (s : State) : (pushElement b s).outLog = s.outLog := rfl

/-! `toReport` -/

@[simp] theorem toReport_ph (s : State) : (toReport s).ph = .report := rfl
@[simp] theorem toReport_cnt (s : State) : (toReport s).cnt = s.cnt := rfl
@[simp] theorem toReport_max (s : State) : (toReport s).max = s.max := rfl
@[simp] theorem toReport_wid (s : State) : (toReport s).wid = s.wid := rfl
@[simp] theorem toReport_eidx (s : State) : (toReport s).eidx = s.eidx := rfl
@[simp] theorem toReport_hdone (s : State) : (toReport s).hdone = s.hdone := rfl
@[simp] theorem toReport_acc (s : State) : (toReport s).acc = s.acc := rfl
@[simp] theorem toReport_nacc (s : State) : (toReport s).nacc = s.nacc := rfl
@[simp] theorem toReport_rs (s : State) : (toReport s).rs = s.rs := rfl
@[simp] theorem toReport_flag (s : State) : (toReport s).flag = s.flag := rfl
@[simp] theorem toReport_bcnt (s : State) : (toReport s).bcnt = s.bcnt := rfl
@[simp] theorem toReport_sh (s : State) : (toReport s).sh = s.sh := rfl
@[simp] theorem toReport_rerr (s : State) : (toReport s).rerr = s.rerr := rfl
@[simp] theorem toReport_ovf (s : State) : (toReport s).ovf = s.ovf := rfl
@[simp] theorem toReport_icerr (s : State) : (toReport s).icerr = s.icerr := rfl
@[simp] theorem toReport_badc (s : State) : (toReport s).badc = s.badc := rfl
@[simp] theorem toReport_status (s : State) : (toReport s).status = s.status := rfl
@[simp] theorem toReport_info (s : State) : (toReport s).info = s.info := rfl
@[simp] theorem toReport_ebuf (s : State) : (toReport s).ebuf = s.ebuf := rfl
@[simp] theorem toReport_pins (s : State) : (toReport s).pins = s.pins := rfl
@[simp] theorem toReport_outValid (s : State) : (toReport s).outValid = s.outValid := rfl
@[simp] theorem toReport_edges (s : State) : (toReport s).edges = s.edges := rfl
@[simp] theorem toReport_pend (s : State) : (toReport s).pend = s.pend := rfl
@[simp] theorem toReport_unitOut (s : State) : (toReport s).unitOut = s.unitOut := rfl
@[simp] theorem toReport_inLog (s : State) : (toReport s).inLog = s.inLog := rfl
@[simp] theorem toReport_outLog (s : State) : (toReport s).outLog = s.outLog := rfl

/-! `takeError` -/

@[simp] theorem takeError_ph (k : ErrKind) (info : CodeUnit) (s : State) : (takeError k info s).ph = .report := rfl
@[simp] theorem takeError_cnt (k : ErrKind) (info : CodeUnit) (s : State) : (takeError k info s).cnt = s.cnt := rfl
@[simp] theorem takeError_max (k : ErrKind) (info : CodeUnit) (s : State) : (takeError k info s).max = s.max := rfl
@[simp] theorem takeError_wid (k : ErrKind) (info : CodeUnit) (s : State) : (takeError k info s).wid = s.wid := rfl
@[simp] theorem takeError_eidx (k : ErrKind) (info : CodeUnit) (s : State) : (takeError k info s).eidx = s.eidx := rfl
@[simp] theorem takeError_hdone (k : ErrKind) (info : CodeUnit) (s : State) : (takeError k info s).hdone = s.hdone := rfl
@[simp] theorem takeError_acc (k : ErrKind) (info : CodeUnit) (s : State) : (takeError k info s).acc = s.acc := rfl
@[simp] theorem takeError_nacc (k : ErrKind) (info : CodeUnit) (s : State) : (takeError k info s).nacc = s.nacc := rfl
@[simp] theorem takeError_rs (k : ErrKind) (info : CodeUnit) (s : State) : (takeError k info s).rs = s.rs := rfl
@[simp] theorem takeError_flag (k : ErrKind) (info : CodeUnit) (s : State) : (takeError k info s).flag = s.flag := rfl
@[simp] theorem takeError_bcnt (k : ErrKind) (info : CodeUnit) (s : State) : (takeError k info s).bcnt = s.bcnt := rfl
@[simp] theorem takeError_sh (k : ErrKind) (info : CodeUnit) (s : State) : (takeError k info s).sh = s.sh := rfl
@[simp] theorem takeError_rerr (k : ErrKind) (info : CodeUnit) (s : State) : (takeError k info s).rerr = s.rerr := rfl
@[simp] theorem takeError_ovf (k : ErrKind) (info : CodeUnit) (s : State) : (takeError k info s).ovf = s.ovf := rfl
@[simp] theorem takeError_icerr (k : ErrKind) (info : CodeUnit) (s : State) : (takeError k info s).icerr = s.icerr := rfl
@[simp] theorem takeError_badc (k : ErrKind) (info : CodeUnit) (s : State) : (takeError k info s).badc = s.badc := rfl
@[simp] theorem takeError_status (k : ErrKind) (info : CodeUnit) (s : State) : (takeError k info s).status = errCode k := rfl
@[simp] theorem takeError_info (k : ErrKind) (info : CodeUnit) (s : State) : (takeError k info s).info = info := rfl
@[simp] theorem takeError_ebuf (k : ErrKind) (info : CodeUnit) (s : State) : (takeError k info s).ebuf = s.ebuf := rfl
@[simp] theorem takeError_pins (k : ErrKind) (info : CodeUnit) (s : State) : (takeError k info s).pins = s.pins := rfl
@[simp] theorem takeError_outValid (k : ErrKind) (info : CodeUnit) (s : State) : (takeError k info s).outValid = s.outValid := rfl
@[simp] theorem takeError_edges (k : ErrKind) (info : CodeUnit) (s : State) : (takeError k info s).edges = s.edges := rfl
@[simp] theorem takeError_pend (k : ErrKind) (info : CodeUnit) (s : State) : (takeError k info s).pend = s.pend := rfl
@[simp] theorem takeError_unitOut (k : ErrKind) (info : CodeUnit) (s : State) : (takeError k info s).unitOut = s.unitOut := rfl
@[simp] theorem takeError_inLog (k : ErrKind) (info : CodeUnit) (s : State) : (takeError k info s).inLog = s.inLog := rfl
@[simp] theorem takeError_outLog (k : ErrKind) (info : CodeUnit) (s : State) : (takeError k info s).outLog = s.outLog := rfl

/-! `drive` -/

@[simp] theorem drive_ph (r : Result UnitValue) (s : State) : (drive r s).ph = s.ph := rfl
@[simp] theorem drive_cnt (r : Result UnitValue) (s : State) : (drive r s).cnt = s.cnt := rfl
@[simp] theorem drive_max (r : Result UnitValue) (s : State) : (drive r s).max = s.max := rfl
@[simp] theorem drive_wid (r : Result UnitValue) (s : State) : (drive r s).wid = s.wid := rfl
@[simp] theorem drive_eidx (r : Result UnitValue) (s : State) : (drive r s).eidx = s.eidx := rfl
@[simp] theorem drive_hdone (r : Result UnitValue) (s : State) : (drive r s).hdone = s.hdone := rfl
@[simp] theorem drive_acc (r : Result UnitValue) (s : State) : (drive r s).acc = s.acc := rfl
@[simp] theorem drive_nacc (r : Result UnitValue) (s : State) : (drive r s).nacc = s.nacc := rfl
@[simp] theorem drive_rs (r : Result UnitValue) (s : State) : (drive r s).rs = s.rs := rfl
@[simp] theorem drive_flag (r : Result UnitValue) (s : State) : (drive r s).flag = s.flag := rfl
@[simp] theorem drive_bcnt (r : Result UnitValue) (s : State) : (drive r s).bcnt = s.bcnt := rfl
@[simp] theorem drive_sh (r : Result UnitValue) (s : State) : (drive r s).sh = s.sh := rfl
@[simp] theorem drive_rerr (r : Result UnitValue) (s : State) : (drive r s).rerr = s.rerr := rfl
@[simp] theorem drive_ovf (r : Result UnitValue) (s : State) : (drive r s).ovf = s.ovf := rfl
@[simp] theorem drive_icerr (r : Result UnitValue) (s : State) : (drive r s).icerr = s.icerr := rfl
@[simp] theorem drive_badc (r : Result UnitValue) (s : State) : (drive r s).badc = s.badc := rfl
@[simp] theorem drive_status (r : Result UnitValue) (s : State) : (drive r s).status = s.status := rfl
@[simp] theorem drive_info (r : Result UnitValue) (s : State) : (drive r s).info = s.info := rfl
@[simp] theorem drive_ebuf (r : Result UnitValue) (s : State) : (drive r s).ebuf = s.ebuf := rfl
@[simp] theorem drive_pins (r : Result UnitValue) (s : State) : (drive r s).pins = s.pins := rfl
@[simp] theorem drive_outValid (r : Result UnitValue) (s : State) : (drive r s).outValid = s.outValid := rfl
@[simp] theorem drive_edges (r : Result UnitValue) (s : State) : (drive r s).edges = s.edges := rfl
@[simp] theorem drive_pend (r : Result UnitValue) (s : State) : (drive r s).pend = s.pend := rfl
@[simp] theorem drive_unitOut (r : Result UnitValue) (s : State) : (drive r s).unitOut = some r := rfl
@[simp] theorem drive_inLog (r : Result UnitValue) (s : State) : (drive r s).inLog = s.inLog := rfl
@[simp] theorem drive_outLog (r : Result UnitValue) (s : State) : (drive r s).outLog = s.outLog := rfl

/-! `logIn` -/

@[simp] theorem logIn_ph (b : InBeat) (s : State) : (logIn b s).ph = s.ph := rfl
@[simp] theorem logIn_cnt (b : InBeat) (s : State) : (logIn b s).cnt = s.cnt := rfl
@[simp] theorem logIn_max (b : InBeat) (s : State) : (logIn b s).max = s.max := rfl
@[simp] theorem logIn_wid (b : InBeat) (s : State) : (logIn b s).wid = s.wid := rfl
@[simp] theorem logIn_eidx (b : InBeat) (s : State) : (logIn b s).eidx = s.eidx := rfl
@[simp] theorem logIn_hdone (b : InBeat) (s : State) : (logIn b s).hdone = s.hdone := rfl
@[simp] theorem logIn_acc (b : InBeat) (s : State) : (logIn b s).acc = s.acc := rfl
@[simp] theorem logIn_nacc (b : InBeat) (s : State) : (logIn b s).nacc = s.nacc := rfl
@[simp] theorem logIn_rs (b : InBeat) (s : State) : (logIn b s).rs = s.rs := rfl
@[simp] theorem logIn_flag (b : InBeat) (s : State) : (logIn b s).flag = s.flag := rfl
@[simp] theorem logIn_bcnt (b : InBeat) (s : State) : (logIn b s).bcnt = s.bcnt := rfl
@[simp] theorem logIn_sh (b : InBeat) (s : State) : (logIn b s).sh = s.sh := rfl
@[simp] theorem logIn_rerr (b : InBeat) (s : State) : (logIn b s).rerr = s.rerr := rfl
@[simp] theorem logIn_ovf (b : InBeat) (s : State) : (logIn b s).ovf = s.ovf := rfl
@[simp] theorem logIn_icerr (b : InBeat) (s : State) : (logIn b s).icerr = s.icerr := rfl
@[simp] theorem logIn_badc (b : InBeat) (s : State) : (logIn b s).badc = s.badc := rfl
@[simp] theorem logIn_status (b : InBeat) (s : State) : (logIn b s).status = s.status := rfl
@[simp] theorem logIn_info (b : InBeat) (s : State) : (logIn b s).info = s.info := rfl
@[simp] theorem logIn_ebuf (b : InBeat) (s : State) : (logIn b s).ebuf = s.ebuf := rfl
@[simp] theorem logIn_pins (b : InBeat) (s : State) : (logIn b s).pins = s.pins := rfl
@[simp] theorem logIn_outValid (b : InBeat) (s : State) : (logIn b s).outValid = s.outValid := rfl
@[simp] theorem logIn_edges (b : InBeat) (s : State) : (logIn b s).edges = s.edges := rfl
@[simp] theorem logIn_pend (b : InBeat) (s : State) : (logIn b s).pend = s.pend := rfl
@[simp] theorem logIn_unitOut (b : InBeat) (s : State) : (logIn b s).unitOut = s.unitOut := rfl
@[simp] theorem logIn_inLog (b : InBeat) (s : State) : (logIn b s).inLog = s.inLog ++ [b] := rfl
@[simp] theorem logIn_outLog (b : InBeat) (s : State) : (logIn b s).outLog = s.outLog := rfl

/-! `flagOverflow` -/

@[simp] theorem flagOverflow_ph (s : State) : (flagOverflow s).ph = s.ph := rfl
@[simp] theorem flagOverflow_cnt (s : State) : (flagOverflow s).cnt = s.cnt := rfl
@[simp] theorem flagOverflow_max (s : State) : (flagOverflow s).max = s.max := rfl
@[simp] theorem flagOverflow_wid (s : State) : (flagOverflow s).wid = s.wid := rfl
@[simp] theorem flagOverflow_eidx (s : State) : (flagOverflow s).eidx = s.eidx := rfl
@[simp] theorem flagOverflow_hdone (s : State) : (flagOverflow s).hdone = s.hdone := rfl
@[simp] theorem flagOverflow_acc (s : State) : (flagOverflow s).acc = s.acc := rfl
@[simp] theorem flagOverflow_nacc (s : State) : (flagOverflow s).nacc = s.nacc := rfl
@[simp] theorem flagOverflow_rs (s : State) : (flagOverflow s).rs = s.rs := rfl
@[simp] theorem flagOverflow_flag (s : State) : (flagOverflow s).flag = s.flag := rfl
@[simp] theorem flagOverflow_bcnt (s : State) : (flagOverflow s).bcnt = s.bcnt := rfl
@[simp] theorem flagOverflow_sh (s : State) : (flagOverflow s).sh = s.sh := rfl
@[simp] theorem flagOverflow_rerr (s : State) : (flagOverflow s).rerr = s.rerr := rfl
@[simp] theorem flagOverflow_ovf (s : State) : (flagOverflow s).ovf = true := rfl
@[simp] theorem flagOverflow_icerr (s : State) : (flagOverflow s).icerr = s.icerr := rfl
@[simp] theorem flagOverflow_badc (s : State) : (flagOverflow s).badc = s.badc := rfl
@[simp] theorem flagOverflow_status (s : State) : (flagOverflow s).status = s.status := rfl
@[simp] theorem flagOverflow_info (s : State) : (flagOverflow s).info = s.info := rfl
@[simp] theorem flagOverflow_ebuf (s : State) : (flagOverflow s).ebuf = s.ebuf := rfl
@[simp] theorem flagOverflow_pins (s : State) : (flagOverflow s).pins = s.pins := rfl
@[simp] theorem flagOverflow_outValid (s : State) : (flagOverflow s).outValid = s.outValid := rfl
@[simp] theorem flagOverflow_edges (s : State) : (flagOverflow s).edges = s.edges := rfl
@[simp] theorem flagOverflow_pend (s : State) : (flagOverflow s).pend = s.pend := rfl
@[simp] theorem flagOverflow_unitOut (s : State) : (flagOverflow s).unitOut = s.unitOut := rfl
@[simp] theorem flagOverflow_inLog (s : State) : (flagOverflow s).inLog = s.inLog := rfl
@[simp] theorem flagOverflow_outLog (s : State) : (flagOverflow s).outLog = s.outLog := rfl

/-! `flagInvalidCharacter` -/

@[simp] theorem flagInvalidCharacter_ph (c : CodeUnit) (s : State) : (flagInvalidCharacter c s).ph = s.ph := rfl
@[simp] theorem flagInvalidCharacter_cnt (c : CodeUnit) (s : State) : (flagInvalidCharacter c s).cnt = s.cnt := rfl
@[simp] theorem flagInvalidCharacter_max (c : CodeUnit) (s : State) : (flagInvalidCharacter c s).max = s.max := rfl
@[simp] theorem flagInvalidCharacter_wid (c : CodeUnit) (s : State) : (flagInvalidCharacter c s).wid = s.wid := rfl
@[simp] theorem flagInvalidCharacter_eidx (c : CodeUnit) (s : State) : (flagInvalidCharacter c s).eidx = s.eidx := rfl
@[simp] theorem flagInvalidCharacter_hdone (c : CodeUnit) (s : State) : (flagInvalidCharacter c s).hdone = s.hdone := rfl
@[simp] theorem flagInvalidCharacter_acc (c : CodeUnit) (s : State) : (flagInvalidCharacter c s).acc = s.acc := rfl
@[simp] theorem flagInvalidCharacter_nacc (c : CodeUnit) (s : State) : (flagInvalidCharacter c s).nacc = s.nacc := rfl
@[simp] theorem flagInvalidCharacter_rs (c : CodeUnit) (s : State) : (flagInvalidCharacter c s).rs = s.rs := rfl
@[simp] theorem flagInvalidCharacter_flag (c : CodeUnit) (s : State) : (flagInvalidCharacter c s).flag = s.flag := rfl
@[simp] theorem flagInvalidCharacter_bcnt (c : CodeUnit) (s : State) : (flagInvalidCharacter c s).bcnt = s.bcnt := rfl
@[simp] theorem flagInvalidCharacter_sh (c : CodeUnit) (s : State) : (flagInvalidCharacter c s).sh = s.sh := rfl
@[simp] theorem flagInvalidCharacter_rerr (c : CodeUnit) (s : State) : (flagInvalidCharacter c s).rerr = s.rerr := rfl
@[simp] theorem flagInvalidCharacter_ovf (c : CodeUnit) (s : State) : (flagInvalidCharacter c s).ovf = s.ovf := rfl
@[simp] theorem flagInvalidCharacter_icerr (c : CodeUnit) (s : State) : (flagInvalidCharacter c s).icerr = true := rfl
@[simp] theorem flagInvalidCharacter_badc (c : CodeUnit) (s : State) : (flagInvalidCharacter c s).badc = c := rfl
@[simp] theorem flagInvalidCharacter_status (c : CodeUnit) (s : State) : (flagInvalidCharacter c s).status = s.status := rfl
@[simp] theorem flagInvalidCharacter_info (c : CodeUnit) (s : State) : (flagInvalidCharacter c s).info = s.info := rfl
@[simp] theorem flagInvalidCharacter_ebuf (c : CodeUnit) (s : State) : (flagInvalidCharacter c s).ebuf = s.ebuf := rfl
@[simp] theorem flagInvalidCharacter_pins (c : CodeUnit) (s : State) : (flagInvalidCharacter c s).pins = s.pins := rfl
@[simp] theorem flagInvalidCharacter_outValid (c : CodeUnit) (s : State) : (flagInvalidCharacter c s).outValid = s.outValid := rfl
@[simp] theorem flagInvalidCharacter_edges (c : CodeUnit) (s : State) : (flagInvalidCharacter c s).edges = s.edges := rfl
@[simp] theorem flagInvalidCharacter_pend (c : CodeUnit) (s : State) : (flagInvalidCharacter c s).pend = s.pend := rfl
@[simp] theorem flagInvalidCharacter_unitOut (c : CodeUnit) (s : State) : (flagInvalidCharacter c s).unitOut = s.unitOut := rfl
@[simp] theorem flagInvalidCharacter_inLog (c : CodeUnit) (s : State) : (flagInvalidCharacter c s).inLog = s.inLog := rfl
@[simp] theorem flagInvalidCharacter_outLog (c : CodeUnit) (s : State) : (flagInvalidCharacter c s).outLog = s.outLog := rfl

/-! `flagRange` -/

@[simp] theorem flagRange_ph (v : CodeUnit) (s : State) : (flagRange v s).ph = s.ph := by unfold flagRange; split <;> simp [*]
@[simp] theorem flagRange_cnt (v : CodeUnit) (s : State) : (flagRange v s).cnt = s.cnt := by unfold flagRange; split <;> simp [*]
@[simp] theorem flagRange_max (v : CodeUnit) (s : State) : (flagRange v s).max = s.max := by unfold flagRange; split <;> simp [*]
@[simp] theorem flagRange_wid (v : CodeUnit) (s : State) : (flagRange v s).wid = s.wid := by unfold flagRange; split <;> simp [*]
@[simp] theorem flagRange_eidx (v : CodeUnit) (s : State) : (flagRange v s).eidx = s.eidx := by unfold flagRange; split <;> simp [*]
@[simp] theorem flagRange_hdone (v : CodeUnit) (s : State) : (flagRange v s).hdone = s.hdone := by unfold flagRange; split <;> simp [*]
@[simp] theorem flagRange_acc (v : CodeUnit) (s : State) : (flagRange v s).acc = s.acc := by unfold flagRange; split <;> simp [*]
@[simp] theorem flagRange_nacc (v : CodeUnit) (s : State) : (flagRange v s).nacc = s.nacc := by unfold flagRange; split <;> simp [*]
@[simp] theorem flagRange_rs (v : CodeUnit) (s : State) : (flagRange v s).rs = s.rs := by unfold flagRange; split <;> simp [*]
@[simp] theorem flagRange_flag (v : CodeUnit) (s : State) : (flagRange v s).flag = s.flag := by unfold flagRange; split <;> simp [*]
@[simp] theorem flagRange_bcnt (v : CodeUnit) (s : State) : (flagRange v s).bcnt = s.bcnt := by unfold flagRange; split <;> simp [*]
@[simp] theorem flagRange_sh (v : CodeUnit) (s : State) : (flagRange v s).sh = s.sh := by unfold flagRange; split <;> simp [*]
@[simp] theorem flagRange_rerr (v : CodeUnit) (s : State) : (flagRange v s).rerr = (s.rerr || !inRange v) := by unfold flagRange; split <;> simp [*]
@[simp] theorem flagRange_ovf (v : CodeUnit) (s : State) : (flagRange v s).ovf = s.ovf := by unfold flagRange; split <;> simp [*]
@[simp] theorem flagRange_icerr (v : CodeUnit) (s : State) : (flagRange v s).icerr = s.icerr := by unfold flagRange; split <;> simp [*]
@[simp] theorem flagRange_badc (v : CodeUnit) (s : State) : (flagRange v s).badc = s.badc := by unfold flagRange; split <;> simp [*]
@[simp] theorem flagRange_status (v : CodeUnit) (s : State) : (flagRange v s).status = s.status := by unfold flagRange; split <;> simp [*]
@[simp] theorem flagRange_info (v : CodeUnit) (s : State) : (flagRange v s).info = s.info := by unfold flagRange; split <;> simp [*]
@[simp] theorem flagRange_ebuf (v : CodeUnit) (s : State) : (flagRange v s).ebuf = s.ebuf := by unfold flagRange; split <;> simp [*]
@[simp] theorem flagRange_pins (v : CodeUnit) (s : State) : (flagRange v s).pins = s.pins := by unfold flagRange; split <;> simp [*]
@[simp] theorem flagRange_outValid (v : CodeUnit) (s : State) : (flagRange v s).outValid = s.outValid := by unfold flagRange; split <;> simp [*]
@[simp] theorem flagRange_edges (v : CodeUnit) (s : State) : (flagRange v s).edges = s.edges := by unfold flagRange; split <;> simp [*]
@[simp] theorem flagRange_pend (v : CodeUnit) (s : State) : (flagRange v s).pend = s.pend := by unfold flagRange; split <;> simp [*]
@[simp] theorem flagRange_unitOut (v : CodeUnit) (s : State) : (flagRange v s).unitOut = s.unitOut := by unfold flagRange; split <;> simp [*]
@[simp] theorem flagRange_inLog (v : CodeUnit) (s : State) : (flagRange v s).inLog = s.inLog := by unfold flagRange; split <;> simp [*]
@[simp] theorem flagRange_outLog (v : CodeUnit) (s : State) : (flagRange v s).outLog = s.outLog := by unfold flagRange; split <;> simp [*]

/-! `storeElement` -/

@[simp] theorem storeElement_ph (v : CodeUnit) (s : State) : (storeElement v s).ph = s.ph := rfl
@[simp] theorem storeElement_cnt (v : CodeUnit) (s : State) : (storeElement v s).cnt = s.cnt := rfl
@[simp] theorem storeElement_max (v : CodeUnit) (s : State) : (storeElement v s).max = if s.max.toNat < (low9 v).toNat then low9 v else s.max := rfl
@[simp] theorem storeElement_wid (v : CodeUnit) (s : State) : (storeElement v s).wid = s.wid := rfl
@[simp] theorem storeElement_eidx (v : CodeUnit) (s : State) : (storeElement v s).eidx = s.eidx := rfl
@[simp] theorem storeElement_hdone (v : CodeUnit) (s : State) : (storeElement v s).hdone = s.hdone := rfl
@[simp] theorem storeElement_acc (v : CodeUnit) (s : State) : (storeElement v s).acc = s.acc := rfl
@[simp] theorem storeElement_nacc (v : CodeUnit) (s : State) : (storeElement v s).nacc = s.nacc := rfl
@[simp] theorem storeElement_rs (v : CodeUnit) (s : State) : (storeElement v s).rs = s.rs := rfl
@[simp] theorem storeElement_flag (v : CodeUnit) (s : State) : (storeElement v s).flag = s.flag := rfl
@[simp] theorem storeElement_bcnt (v : CodeUnit) (s : State) : (storeElement v s).bcnt = s.bcnt := rfl
@[simp] theorem storeElement_sh (v : CodeUnit) (s : State) : (storeElement v s).sh = s.sh := rfl
@[simp] theorem storeElement_rerr (v : CodeUnit) (s : State) : (storeElement v s).rerr = s.rerr := rfl
@[simp] theorem storeElement_ovf (v : CodeUnit) (s : State) : (storeElement v s).ovf = s.ovf := rfl
@[simp] theorem storeElement_icerr (v : CodeUnit) (s : State) : (storeElement v s).icerr = s.icerr := rfl
@[simp] theorem storeElement_badc (v : CodeUnit) (s : State) : (storeElement v s).badc = s.badc := rfl
@[simp] theorem storeElement_status (v : CodeUnit) (s : State) : (storeElement v s).status = s.status := rfl
@[simp] theorem storeElement_info (v : CodeUnit) (s : State) : (storeElement v s).info = s.info := rfl
@[simp] theorem storeElement_ebuf (v : CodeUnit) (s : State) : (storeElement v s).ebuf = Memory.write s.ebuf s.cnt.toNat (low9 v) := rfl
@[simp] theorem storeElement_pins (v : CodeUnit) (s : State) : (storeElement v s).pins = s.pins := rfl
@[simp] theorem storeElement_outValid (v : CodeUnit) (s : State) : (storeElement v s).outValid = s.outValid := rfl
@[simp] theorem storeElement_edges (v : CodeUnit) (s : State) : (storeElement v s).edges = s.edges := rfl
@[simp] theorem storeElement_pend (v : CodeUnit) (s : State) : (storeElement v s).pend = s.pend := rfl
@[simp] theorem storeElement_unitOut (v : CodeUnit) (s : State) : (storeElement v s).unitOut = s.unitOut := rfl
@[simp] theorem storeElement_inLog (v : CodeUnit) (s : State) : (storeElement v s).inLog = s.inLog := rfl
@[simp] theorem storeElement_outLog (v : CodeUnit) (s : State) : (storeElement v s).outLog = s.outLog := rfl

/-! `fieldBit` -/

@[simp] theorem fieldBit_ph (x : Bool) (s : State) : (fieldBit x s).ph = s.ph := rfl
@[simp] theorem fieldBit_cnt (x : Bool) (s : State) : (fieldBit x s).cnt = s.cnt := rfl
@[simp] theorem fieldBit_max (x : Bool) (s : State) : (fieldBit x s).max = s.max := rfl
@[simp] theorem fieldBit_wid (x : Bool) (s : State) : (fieldBit x s).wid = s.wid := rfl
@[simp] theorem fieldBit_eidx (x : Bool) (s : State) : (fieldBit x s).eidx = s.eidx := rfl
@[simp] theorem fieldBit_hdone (x : Bool) (s : State) : (fieldBit x s).hdone = s.hdone := rfl
@[simp] theorem fieldBit_acc (x : Bool) (s : State) : (fieldBit x s).acc = s.acc := rfl
@[simp] theorem fieldBit_nacc (x : Bool) (s : State) : (fieldBit x s).nacc = s.nacc := rfl
@[simp] theorem fieldBit_rs (x : Bool) (s : State) : (fieldBit x s).rs = s.rs := rfl
@[simp] theorem fieldBit_flag (x : Bool) (s : State) : (fieldBit x s).flag = s.flag := rfl
@[simp] theorem fieldBit_bcnt (x : Bool) (s : State) : (fieldBit x s).bcnt = bitsLeft s := rfl
@[simp] theorem fieldBit_sh (x : Bool) (s : State) : (fieldBit x s).sh = shiftIn s.sh x := rfl
@[simp] theorem fieldBit_rerr (x : Bool) (s : State) : (fieldBit x s).rerr = s.rerr := rfl
@[simp] theorem fieldBit_ovf (x : Bool) (s : State) : (fieldBit x s).ovf = s.ovf := rfl
@[simp] theorem fieldBit_icerr (x : Bool) (s : State) : (fieldBit x s).icerr = s.icerr := rfl
@[simp] theorem fieldBit_badc (x : Bool) (s : State) : (fieldBit x s).badc = s.badc := rfl
@[simp] theorem fieldBit_status (x : Bool) (s : State) : (fieldBit x s).status = s.status := rfl
@[simp] theorem fieldBit_info (x : Bool) (s : State) : (fieldBit x s).info = s.info := rfl
@[simp] theorem fieldBit_ebuf (x : Bool) (s : State) : (fieldBit x s).ebuf = s.ebuf := rfl
@[simp] theorem fieldBit_pins (x : Bool) (s : State) : (fieldBit x s).pins = s.pins := rfl
@[simp] theorem fieldBit_outValid (x : Bool) (s : State) : (fieldBit x s).outValid = s.outValid := rfl
@[simp] theorem fieldBit_edges (x : Bool) (s : State) : (fieldBit x s).edges = s.edges := rfl
@[simp] theorem fieldBit_pend (x : Bool) (s : State) : (fieldBit x s).pend = s.pend := rfl
@[simp] theorem fieldBit_unitOut (x : Bool) (s : State) : (fieldBit x s).unitOut = s.unitOut := rfl
@[simp] theorem fieldBit_inLog (x : Bool) (s : State) : (fieldBit x s).inLog = s.inLog := rfl
@[simp] theorem fieldBit_outLog (x : Bool) (s : State) : (fieldBit x s).outLog = s.outLog := rfl

/-! `keepPresented` -/

@[simp] theorem keepPresented_ph (e : Pins) (s : State) : (keepPresented e s).ph = s.ph := rfl
@[simp] theorem keepPresented_cnt (e : Pins) (s : State) : (keepPresented e s).cnt = s.cnt := rfl
@[simp] theorem keepPresented_max (e : Pins) (s : State) : (keepPresented e s).max = s.max := rfl
@[simp] theorem keepPresented_wid (e : Pins) (s : State) : (keepPresented e s).wid = s.wid := rfl
@[simp] theorem keepPresented_eidx (e : Pins) (s : State) : (keepPresented e s).eidx = s.eidx := rfl
@[simp] theorem keepPresented_hdone (e : Pins) (s : State) : (keepPresented e s).hdone = s.hdone := rfl
@[simp] theorem keepPresented_acc (e : Pins) (s : State) : (keepPresented e s).acc = s.acc := rfl
@[simp] theorem keepPresented_nacc (e : Pins) (s : State) : (keepPresented e s).nacc = s.nacc := rfl
@[simp] theorem keepPresented_rs (e : Pins) (s : State) : (keepPresented e s).rs = s.rs := rfl
@[simp] theorem keepPresented_flag (e : Pins) (s : State) : (keepPresented e s).flag = s.flag := rfl
@[simp] theorem keepPresented_bcnt (e : Pins) (s : State) : (keepPresented e s).bcnt = s.bcnt := rfl
@[simp] theorem keepPresented_sh (e : Pins) (s : State) : (keepPresented e s).sh = s.sh := rfl
@[simp] theorem keepPresented_rerr (e : Pins) (s : State) : (keepPresented e s).rerr = s.rerr := rfl
@[simp] theorem keepPresented_ovf (e : Pins) (s : State) : (keepPresented e s).ovf = s.ovf := rfl
@[simp] theorem keepPresented_icerr (e : Pins) (s : State) : (keepPresented e s).icerr = s.icerr := rfl
@[simp] theorem keepPresented_badc (e : Pins) (s : State) : (keepPresented e s).badc = s.badc := rfl
@[simp] theorem keepPresented_status (e : Pins) (s : State) : (keepPresented e s).status = s.status := rfl
@[simp] theorem keepPresented_info (e : Pins) (s : State) : (keepPresented e s).info = s.info := rfl
@[simp] theorem keepPresented_ebuf (e : Pins) (s : State) : (keepPresented e s).ebuf = s.ebuf := rfl
@[simp] theorem keepPresented_pins (e : Pins) (s : State) : (keepPresented e s).pins = s.pins := rfl
@[simp] theorem keepPresented_outValid (e : Pins) (s : State) : (keepPresented e s).outValid = s.outValid := rfl
@[simp] theorem keepPresented_edges (e : Pins) (s : State) : (keepPresented e s).edges = s.edges := rfl
@[simp] theorem keepPresented_pend (e : Pins) (s : State) : (keepPresented e s).pend = if e.inValid then some e.beat else none := rfl
@[simp] theorem keepPresented_unitOut (e : Pins) (s : State) : (keepPresented e s).unitOut = s.unitOut := rfl
@[simp] theorem keepPresented_inLog (e : Pins) (s : State) : (keepPresented e s).inLog = s.inLog := rfl
@[simp] theorem keepPresented_outLog (e : Pins) (s : State) : (keepPresented e s).outLog = s.outLog := rfl

/-! `deliver` -/

@[simp] theorem deliver_cnt (b : OutBeat) (s : State) : (deliver b s).cnt = s.cnt := by unfold deliver afterBeat; cases s.ph <;> rfl
@[simp] theorem deliver_max (b : OutBeat) (s : State) : (deliver b s).max = s.max := by unfold deliver afterBeat; cases s.ph <;> rfl
@[simp] theorem deliver_wid (b : OutBeat) (s : State) : (deliver b s).wid = s.wid := by unfold deliver afterBeat; cases s.ph <;> rfl
@[simp] theorem deliver_hdone (b : OutBeat) (s : State) : (deliver b s).hdone = s.hdone := by unfold deliver afterBeat; cases s.ph <;> rfl
@[simp] theorem deliver_rs (b : OutBeat) (s : State) : (deliver b s).rs = s.rs := by unfold deliver afterBeat; cases s.ph <;> rfl
@[simp] theorem deliver_flag (b : OutBeat) (s : State) : (deliver b s).flag = s.flag := by unfold deliver afterBeat; cases s.ph <;> rfl
@[simp] theorem deliver_bcnt (b : OutBeat) (s : State) : (deliver b s).bcnt = s.bcnt := by unfold deliver afterBeat; cases s.ph <;> rfl
@[simp] theorem deliver_sh (b : OutBeat) (s : State) : (deliver b s).sh = s.sh := by unfold deliver afterBeat; cases s.ph <;> rfl
@[simp] theorem deliver_rerr (b : OutBeat) (s : State) : (deliver b s).rerr = s.rerr := by unfold deliver afterBeat; cases s.ph <;> rfl
@[simp] theorem deliver_ovf (b : OutBeat) (s : State) : (deliver b s).ovf = s.ovf := by unfold deliver afterBeat; cases s.ph <;> rfl
@[simp] theorem deliver_icerr (b : OutBeat) (s : State) : (deliver b s).icerr = s.icerr := by unfold deliver afterBeat; cases s.ph <;> rfl
@[simp] theorem deliver_badc (b : OutBeat) (s : State) : (deliver b s).badc = s.badc := by unfold deliver afterBeat; cases s.ph <;> rfl
@[simp] theorem deliver_status (b : OutBeat) (s : State) : (deliver b s).status = s.status := by unfold deliver afterBeat; cases s.ph <;> rfl
@[simp] theorem deliver_info (b : OutBeat) (s : State) : (deliver b s).info = s.info := by unfold deliver afterBeat; cases s.ph <;> rfl
@[simp] theorem deliver_ebuf (b : OutBeat) (s : State) : (deliver b s).ebuf = s.ebuf := by unfold deliver afterBeat; cases s.ph <;> rfl
@[simp] theorem deliver_pins (b : OutBeat) (s : State) : (deliver b s).pins = s.pins := by unfold deliver afterBeat; cases s.ph <;> rfl
@[simp] theorem deliver_outValid (b : OutBeat) (s : State) : (deliver b s).outValid = s.outValid := by unfold deliver afterBeat; cases s.ph <;> rfl
@[simp] theorem deliver_edges (b : OutBeat) (s : State) : (deliver b s).edges = s.edges := by unfold deliver afterBeat; cases s.ph <;> rfl
@[simp] theorem deliver_pend (b : OutBeat) (s : State) : (deliver b s).pend = s.pend := by unfold deliver afterBeat; cases s.ph <;> rfl
@[simp] theorem deliver_unitOut (b : OutBeat) (s : State) : (deliver b s).unitOut = s.unitOut := by unfold deliver afterBeat; cases s.ph <;> rfl
@[simp] theorem deliver_inLog (b : OutBeat) (s : State) : (deliver b s).inLog = s.inLog := by unfold deliver afterBeat; cases s.ph <;> rfl
@[simp] theorem deliver_outLog (b : OutBeat) (s : State) : (deliver b s).outLog = s.outLog ++ [b] := by unfold deliver afterBeat; cases s.ph <;> rfl

end Sys2Proof.Machine
end

