-- ==== Sys2Proof/Laws/Step.lean ====
section
/-! SUPPORT. What one step can do: every case of one clock edge in which there is a next state. -/

namespace Sys2Proof.Machine

/-- The state with the edge taken from the script and its pins sampled. -/
def sampled (e : Pins) (rest : List Pins) (s : State) : State := { s with edges := rest, pins := e }

/-- Everything an edge of a phase that takes input can do. -/
theorem inputEdge_next {e : Pins} {s t : State} (h : inputEdge e s = .next t) :
    (e.inValid = true ∧ e.go = true ∧ runPosition { s with pend := none } = .next t) ∨
    ((e.inValid && e.go) = false ∧ t = keepPresented e s) := by
  unfold inputEdge at h
  split at h
  · next hc => simp only [Bool.and_eq_true] at hc; exact .inl ⟨hc.1, hc.2, h⟩
  · next hc => cases h; exact .inr ⟨by simpa using hc, rfl⟩

/-- Everything an edge with an output beat due can do. -/
theorem outputEdge_next {e : Pins} {s t : State} (h : outputEdge e s = .next t) :
    ((s.outValid || e.go) = true ∧ e.outReady = true ∧
      runPosition { keepPresented e s with outValid := false } = .next t) ∨
    ((s.outValid || e.go) = true ∧ e.outReady = false ∧ t = { keepPresented e s with outValid := true }) ∨
    ((s.outValid || e.go) = false ∧ t = keepPresented e s) := by
  unfold outputEdge at h
  split at h
  · next hc =>
    split at h
    · next hr => exact .inl ⟨hc, hr, h⟩
    · next hr => cases h; exact .inr (.inl ⟨hc, by simpa using hr, rfl⟩)
  · next hc => cases h; exact .inr (.inr ⟨by simpa using hc, rfl⟩)

/-- Everything an edge with an internal step enabled can do. -/
theorem internalEdge_next {e : Pins} {s t : State} (h : internalEdge e s = .next t) :
    (e.go = true ∧ runPosition (keepPresented e s) = .next t) ∨ (e.go = false ∧ t = keepPresented e s) := by
  unfold internalEdge at h
  split at h
  · next hc => exact .inl ⟨hc, h⟩
  · next hc => cases h; exact .inr ⟨by simpa using hc, rfl⟩

/-- Everything one clock edge can do. -/
theorem clockEdge_next {e : Pins} {s t : State} (h : clockEdge e s = .next t) :
    (e.rst = true ∧ t = resetEdge s) ∨
    (e.rst = false ∧ hostBreaks e s = false ∧
      ((acceptsInput s = true ∧ inputEdge e s = .next t) ∨
       (acceptsInput s = false ∧ beatDue s = true ∧ outputEdge e s = .next t) ∨
       (acceptsInput s = false ∧ beatDue s = false ∧ internalEdge e s = .next t))) := by
  unfold clockEdge at h
  split at h
  · next hr => cases h; exact .inl ⟨hr, rfl⟩
  · next hr =>
    split at h
    · cases h
    · next hb =>
      refine .inr ⟨by simpa using hr, by simpa using hb, ?_⟩
      split at h
      · next ha => exact .inl ⟨ha, h⟩
      · next ha =>
        have ha : acceptsInput s = false := by simpa using ha
        split at h
        · next hd => exact .inr (.inl ⟨ha, hd, h⟩)
        · next hd => exact .inr (.inr ⟨ha, by simpa using hd, h⟩)

/-- Everything a step can do: nothing without an edge to come, else one clock edge on the sampled pins. -/
theorem step_next {s t : State} (h : step s = .next t) :
    (s.edges = [] ∧ t = s) ∨ ∃ e rest, s.edges = e :: rest ∧ clockEdge e (sampled e rest s) = .next t := by
  unfold step nextEdge at h
  split at h
  · next he => cases h; exact .inl ⟨he, rfl⟩
  · next e rest he => exact .inr ⟨e, rest, he, h⟩

/-- A step at a script with a first edge is that clock edge. -/
theorem step_edge {s : State} {e : Pins} {rest : List Pins} (h : s.edges = e :: rest) :
    step s = clockEdge e (sampled e rest s) := by
  simp [step, nextEdge, h, sampled]

/-! The sampled pins do not change what the position holds, but for the command and the beat on them. -/

@[simp] theorem hostBreaks_sampled (e : Pins) (rest : List Pins) (s : State) :
    hostBreaks e (sampled e rest s) = hostBreaks e s := rfl
@[simp] theorem acceptsInput_sampled (e : Pins) (rest : List Pins) (s : State) :
    acceptsInput (sampled e rest s) = acceptsInput s := rfl
@[simp] theorem beatDue_sampled (e : Pins) (rest : List Pins) (s : State) :
    beatDue (sampled e rest s) = beatDue s := rfl
@[simp] theorem offer_sampled (e : Pins) (rest : List Pins) (s : State) : offer (sampled e rest s) = offer s := rfl
@[simp] theorem emitStep_sampled (e : Pins) (rest : List Pins) (s : State) :
    emitStep (sampled e rest s) = emitStep s := rfl

/-- A phase that takes input has no beat due. -/
theorem beatDue_of_acceptsInput {s : State} (h : acceptsInput s = true) : beatDue s = false := by
  unfold acceptsInput at h
  unfold beatDue
  cases hp : s.ph <;> simp_all

end Sys2Proof.Machine
end

