-- ==== Sys2Proof/Laws/Fairness.lean ====
section
/-! SUPPORT. The block on an unending clock, one edge at a time. -/

namespace Sys2Proof.Machine

@[simp] theorem afterEdges_zero (c : Clock) (s : State) : afterEdges c s 0 = .next s := rfl

/-- One more edge after a next state is one clock edge on the sampled pins. -/
theorem afterEdges_succ {c : Clock} {s t : State} {k : Nat} (h : afterEdges c s k = .next t) :
    afterEdges c s (k + 1) = clockEdge (c k) (sampled (c k) [] t) := by
  simp only [afterEdges, h]
  exact step_edge rfl

/-- A next state after one more edge comes from a next state before it. -/
theorem afterEdges_before {c : Clock} {s u : State} {k : Nat} (h : afterEdges c s (k + 1) = .next u) :
    ∃ t, afterEdges c s k = .next t ∧ clockEdge (c k) (sampled (c k) [] t) = .next u := by
  cases hk : afterEdges c s k with
  | next t => exact ⟨t, rfl, (afterEdges_succ hk).symm.trans h⟩
  | fault r => simp [afterEdges, hk] at h
  | refused r => simp [afterEdges, hk] at h

/-- The edges after the first `n` are the edges of the clock that starts there. -/
theorem afterEdges_add {c : Clock} {s t : State} {n : Nat} (h : afterEdges c s n = .next t) (k : Nat) :
    afterEdges c s (n + k) = afterEdges (fun j => c (n + j)) t k := by
  induction k with
  | zero => exact h
  | succ k ih => rw [← Nat.add_assoc, afterEdges, afterEdges, ih]

/-- What every edge keeps holds after all of them. -/
theorem afterEdges_induct {c : Clock} {s : State} {P : State → Prop} (h0 : P s)
    (h : ∀ k t u, P t → clockEdge (c k) (sampled (c k) [] t) = .next u → P u) (n : Nat) (t : State)
    (hn : afterEdges c s n = .next t) : P t := by
  induction n generalizing t with
  | zero => cases hn; exact h0
  | succ n ih =>
    obtain ⟨u, hu, hx⟩ := afterEdges_before hn
    exact h n u t (ih u hu) hx

/-- A state that an edge leaves as it is stays for as long as that edge repeats. -/
theorem afterEdges_rest {e : Pins} {u : State} (h : step { u with edges := [e] } = .next u) (k : Nat) :
    afterEdges (fun _ => e) u k = .next u := by
  induction k with
  | zero => rfl
  | succ k ih => simp only [afterEdges, ih]; exact h

/-- Something waits for the block unless it offers a beat. -/
theorem awaitsBlock_iff (s : State) : awaitsBlock s = true ↔ beatDue s = false ∨ s.outValid = false := by
  simp [awaitsBlock]

end Sys2Proof.Machine
end

