-- ==== Sys2Proof/Laws/PerInstr.lean ====
section
/-! SUPPORT. The per-instruction family EncodingHasItsWidth: the encoding of every row has as many bits as its format has
(30_encoding.md R70). One lemma per constructor of Instr. -/

namespace Sys2Proof.Laws

open Machine (widthBits)

/-- How many bits a format may have (R70; the header has two lengths, R75). -/
def formatLengths : Format → List Nat
  | .cmd => [1]
  | .hdr => [9, 13]
  | .wcode => [2]
  | .elem w => [widthBits w]
  | .padf k => [k]
  | .sym => [6]
  | .inBeat => [18]
  | .outBeat => [20]
  | .status => [3]

/-- The encoding of a row, if it has one, has a length of its format. -/
def EncodingHasItsWidth.Statement (i : Instr) : Prop :=
  ∀ f b, encode i = some (f, b) → b.length ∈ formatLengths f

/-- A row whose encoding is known has a length of its format if those bits have. -/
theorem encodingWidth_of_encode {i : Instr} {f : Format} {b : Bits} (h : encode i = some (f, b))
    (hl : b.length ∈ formatLengths f) : EncodingHasItsWidth.Statement i := by
  intro f' b' h'
  rw [h] at h'
  cases h'
  exact hl

theorem EncodingHasItsWidth.encodeCmd : EncodingHasItsWidth.Statement (.encodeCmd) :=
  encodingWidth_of_encode rfl (by decide)
theorem EncodingHasItsWidth.decodeCmd : EncodingHasItsWidth.Statement (.decodeCmd) :=
  encodingWidth_of_encode rfl (by decide)
theorem EncodingHasItsWidth.hdrShort (count : BitVec 6) (wc : WidthCode) : EncodingHasItsWidth.Statement (.hdrShort count wc) :=
  encodingWidth_of_encode rfl (by simp [formatLengths])
theorem EncodingHasItsWidth.hdrLong (count : BitVec 10) (wc : WidthCode) : EncodingHasItsWidth.Statement (.hdrLong count wc) :=
  encodingWidth_of_encode rfl (by simp [formatLengths])
theorem EncodingHasItsWidth.wc4 : EncodingHasItsWidth.Statement (.wc4) :=
  encodingWidth_of_encode rfl (by decide)
theorem EncodingHasItsWidth.wc7 : EncodingHasItsWidth.Statement (.wc7) :=
  encodingWidth_of_encode rfl (by decide)
theorem EncodingHasItsWidth.wc9 : EncodingHasItsWidth.Statement (.wc9) :=
  encodingWidth_of_encode rfl (by decide)
theorem EncodingHasItsWidth.wcRsvd : EncodingHasItsWidth.Statement (.wcRsvd) :=
  encodingWidth_of_encode rfl (by decide)
theorem EncodingHasItsWidth.elem4 (v : BitVec 4) : EncodingHasItsWidth.Statement (.elem4 v) :=
  encodingWidth_of_encode rfl (by simp [formatLengths, widthBits])
theorem EncodingHasItsWidth.elem7 (v : BitVec 7) : EncodingHasItsWidth.Statement (.elem7 v) :=
  encodingWidth_of_encode rfl (by simp [formatLengths, widthBits])
theorem EncodingHasItsWidth.elem9 (v : BitVec 9) : EncodingHasItsWidth.Statement (.elem9 v) :=
  encodingWidth_of_encode rfl (by simp [formatLengths, widthBits])
theorem EncodingHasItsWidth.padf (k : Nat) : EncodingHasItsWidth.Statement (.padf k) :=
  encodingWidth_of_encode rfl (by simp [formatLengths])
theorem EncodingHasItsWidth.inBeat (op fin : Bool) (data : CodeUnit) : EncodingHasItsWidth.Statement (.inBeat op fin data) :=
  encodingWidth_of_encode rfl (by simp [formatLengths])
theorem EncodingHasItsWidth.outBeat (fin : Bool) (data : CodeUnit) (status : BitVec 3) : EncodingHasItsWidth.Statement (.outBeat fin data status) :=
  encodingWidth_of_encode rfl (by simp [formatLengths])
theorem EncodingHasItsWidth.stOk : EncodingHasItsWidth.Statement (.stOk) :=
  encodingWidth_of_encode rfl (by decide)
theorem EncodingHasItsWidth.stRangeError : EncodingHasItsWidth.Statement (.stRangeError) :=
  encodingWidth_of_encode rfl (by decide)
theorem EncodingHasItsWidth.stInvalidCharacter : EncodingHasItsWidth.Statement (.stInvalidCharacter) :=
  encodingWidth_of_encode rfl (by decide)
theorem EncodingHasItsWidth.stInvalidWidthCode : EncodingHasItsWidth.Statement (.stInvalidWidthCode) :=
  encodingWidth_of_encode rfl (by decide)
theorem EncodingHasItsWidth.stLengthError : EncodingHasItsWidth.Statement (.stLengthError) :=
  encodingWidth_of_encode rfl (by decide)
theorem EncodingHasItsWidth.stTruncatedInput : EncodingHasItsWidth.Statement (.stTruncatedInput) :=
  encodingWidth_of_encode rfl (by decide)
theorem EncodingHasItsWidth.stRsvd6 : EncodingHasItsWidth.Statement (.stRsvd6) :=
  encodingWidth_of_encode rfl (by decide)
theorem EncodingHasItsWidth.stRsvd7 : EncodingHasItsWidth.Statement (.stRsvd7) :=
  encodingWidth_of_encode rfl (by decide)
theorem EncodingHasItsWidth.sym0 : EncodingHasItsWidth.Statement (.sym0) :=
  encodingWidth_of_encode rfl (by decide)
theorem EncodingHasItsWidth.sym1 : EncodingHasItsWidth.Statement (.sym1) :=
  encodingWidth_of_encode rfl (by decide)
theorem EncodingHasItsWidth.sym2 : EncodingHasItsWidth.Statement (.sym2) :=
  encodingWidth_of_encode rfl (by decide)
theorem EncodingHasItsWidth.sym3 : EncodingHasItsWidth.Statement (.sym3) :=
  encodingWidth_of_encode rfl (by decide)
theorem EncodingHasItsWidth.sym4 : EncodingHasItsWidth.Statement (.sym4) :=
  encodingWidth_of_encode rfl (by decide)
theorem EncodingHasItsWidth.sym5 : EncodingHasItsWidth.Statement (.sym5) :=
  encodingWidth_of_encode rfl (by decide)
theorem EncodingHasItsWidth.sym6 : EncodingHasItsWidth.Statement (.sym6) :=
  encodingWidth_of_encode rfl (by decide)
theorem EncodingHasItsWidth.sym7 : EncodingHasItsWidth.Statement (.sym7) :=
  encodingWidth_of_encode rfl (by decide)
theorem EncodingHasItsWidth.sym8 : EncodingHasItsWidth.Statement (.sym8) :=
  encodingWidth_of_encode rfl (by decide)
theorem EncodingHasItsWidth.sym9 : EncodingHasItsWidth.Statement (.sym9) :=
  encodingWidth_of_encode rfl (by decide)
theorem EncodingHasItsWidth.sym10 : EncodingHasItsWidth.Statement (.sym10) :=
  encodingWidth_of_encode rfl (by decide)
theorem EncodingHasItsWidth.sym11 : EncodingHasItsWidth.Statement (.sym11) :=
  encodingWidth_of_encode rfl (by decide)
theorem EncodingHasItsWidth.sym12 : EncodingHasItsWidth.Statement (.sym12) :=
  encodingWidth_of_encode rfl (by decide)
theorem EncodingHasItsWidth.sym13 : EncodingHasItsWidth.Statement (.sym13) :=
  encodingWidth_of_encode rfl (by decide)
theorem EncodingHasItsWidth.sym14 : EncodingHasItsWidth.Statement (.sym14) :=
  encodingWidth_of_encode rfl (by decide)
theorem EncodingHasItsWidth.sym15 : EncodingHasItsWidth.Statement (.sym15) :=
  encodingWidth_of_encode rfl (by decide)
theorem EncodingHasItsWidth.sym16 : EncodingHasItsWidth.Statement (.sym16) :=
  encodingWidth_of_encode rfl (by decide)
theorem EncodingHasItsWidth.sym17 : EncodingHasItsWidth.Statement (.sym17) :=
  encodingWidth_of_encode rfl (by decide)
theorem EncodingHasItsWidth.sym18 : EncodingHasItsWidth.Statement (.sym18) :=
  encodingWidth_of_encode rfl (by decide)
theorem EncodingHasItsWidth.sym19 : EncodingHasItsWidth.Statement (.sym19) :=
  encodingWidth_of_encode rfl (by decide)
theorem EncodingHasItsWidth.sym20 : EncodingHasItsWidth.Statement (.sym20) :=
  encodingWidth_of_encode rfl (by decide)
theorem EncodingHasItsWidth.sym21 : EncodingHasItsWidth.Statement (.sym21) :=
  encodingWidth_of_encode rfl (by decide)
theorem EncodingHasItsWidth.sym22 : EncodingHasItsWidth.Statement (.sym22) :=
  encodingWidth_of_encode rfl (by decide)
theorem EncodingHasItsWidth.sym23 : EncodingHasItsWidth.Statement (.sym23) :=
  encodingWidth_of_encode rfl (by decide)
theorem EncodingHasItsWidth.sym24 : EncodingHasItsWidth.Statement (.sym24) :=
  encodingWidth_of_encode rfl (by decide)
theorem EncodingHasItsWidth.sym25 : EncodingHasItsWidth.Statement (.sym25) :=
  encodingWidth_of_encode rfl (by decide)
theorem EncodingHasItsWidth.sym26 : EncodingHasItsWidth.Statement (.sym26) :=
  encodingWidth_of_encode rfl (by decide)
theorem EncodingHasItsWidth.sym27 : EncodingHasItsWidth.Statement (.sym27) :=
  encodingWidth_of_encode rfl (by decide)
theorem EncodingHasItsWidth.sym28 : EncodingHasItsWidth.Statement (.sym28) :=
  encodingWidth_of_encode rfl (by decide)
theorem EncodingHasItsWidth.sym29 : EncodingHasItsWidth.Statement (.sym29) :=
  encodingWidth_of_encode rfl (by decide)
theorem EncodingHasItsWidth.sym30 : EncodingHasItsWidth.Statement (.sym30) :=
  encodingWidth_of_encode rfl (by decide)
theorem EncodingHasItsWidth.sym31 : EncodingHasItsWidth.Statement (.sym31) :=
  encodingWidth_of_encode rfl (by decide)
theorem EncodingHasItsWidth.sym32 : EncodingHasItsWidth.Statement (.sym32) :=
  encodingWidth_of_encode rfl (by decide)
theorem EncodingHasItsWidth.sym33 : EncodingHasItsWidth.Statement (.sym33) :=
  encodingWidth_of_encode rfl (by decide)
theorem EncodingHasItsWidth.sym34 : EncodingHasItsWidth.Statement (.sym34) :=
  encodingWidth_of_encode rfl (by decide)
theorem EncodingHasItsWidth.sym35 : EncodingHasItsWidth.Statement (.sym35) :=
  encodingWidth_of_encode rfl (by decide)
theorem EncodingHasItsWidth.sym36 : EncodingHasItsWidth.Statement (.sym36) :=
  encodingWidth_of_encode rfl (by decide)
theorem EncodingHasItsWidth.sym37 : EncodingHasItsWidth.Statement (.sym37) :=
  encodingWidth_of_encode rfl (by decide)
theorem EncodingHasItsWidth.sym38 : EncodingHasItsWidth.Statement (.sym38) :=
  encodingWidth_of_encode rfl (by decide)
theorem EncodingHasItsWidth.sym39 : EncodingHasItsWidth.Statement (.sym39) :=
  encodingWidth_of_encode rfl (by decide)
theorem EncodingHasItsWidth.sym40 : EncodingHasItsWidth.Statement (.sym40) :=
  encodingWidth_of_encode rfl (by decide)
theorem EncodingHasItsWidth.sym41 : EncodingHasItsWidth.Statement (.sym41) :=
  encodingWidth_of_encode rfl (by decide)
theorem EncodingHasItsWidth.sym42 : EncodingHasItsWidth.Statement (.sym42) :=
  encodingWidth_of_encode rfl (by decide)
theorem EncodingHasItsWidth.sym43 : EncodingHasItsWidth.Statement (.sym43) :=
  encodingWidth_of_encode rfl (by decide)
theorem EncodingHasItsWidth.sym44 : EncodingHasItsWidth.Statement (.sym44) :=
  encodingWidth_of_encode rfl (by decide)
theorem EncodingHasItsWidth.sym45 : EncodingHasItsWidth.Statement (.sym45) :=
  encodingWidth_of_encode rfl (by decide)
theorem EncodingHasItsWidth.sym46 : EncodingHasItsWidth.Statement (.sym46) :=
  encodingWidth_of_encode rfl (by decide)
theorem EncodingHasItsWidth.sym47 : EncodingHasItsWidth.Statement (.sym47) :=
  encodingWidth_of_encode rfl (by decide)
theorem EncodingHasItsWidth.sym48 : EncodingHasItsWidth.Statement (.sym48) :=
  encodingWidth_of_encode rfl (by decide)
theorem EncodingHasItsWidth.sym49 : EncodingHasItsWidth.Statement (.sym49) :=
  encodingWidth_of_encode rfl (by decide)
theorem EncodingHasItsWidth.sym50 : EncodingHasItsWidth.Statement (.sym50) :=
  encodingWidth_of_encode rfl (by decide)
theorem EncodingHasItsWidth.sym51 : EncodingHasItsWidth.Statement (.sym51) :=
  encodingWidth_of_encode rfl (by decide)
theorem EncodingHasItsWidth.sym52 : EncodingHasItsWidth.Statement (.sym52) :=
  encodingWidth_of_encode rfl (by decide)
theorem EncodingHasItsWidth.sym53 : EncodingHasItsWidth.Statement (.sym53) :=
  encodingWidth_of_encode rfl (by decide)
theorem EncodingHasItsWidth.sym54 : EncodingHasItsWidth.Statement (.sym54) :=
  encodingWidth_of_encode rfl (by decide)
theorem EncodingHasItsWidth.sym55 : EncodingHasItsWidth.Statement (.sym55) :=
  encodingWidth_of_encode rfl (by decide)
theorem EncodingHasItsWidth.sym56 : EncodingHasItsWidth.Statement (.sym56) :=
  encodingWidth_of_encode rfl (by decide)
theorem EncodingHasItsWidth.sym57 : EncodingHasItsWidth.Statement (.sym57) :=
  encodingWidth_of_encode rfl (by decide)
theorem EncodingHasItsWidth.sym58 : EncodingHasItsWidth.Statement (.sym58) :=
  encodingWidth_of_encode rfl (by decide)
theorem EncodingHasItsWidth.sym59 : EncodingHasItsWidth.Statement (.sym59) :=
  encodingWidth_of_encode rfl (by decide)
theorem EncodingHasItsWidth.sym60 : EncodingHasItsWidth.Statement (.sym60) :=
  encodingWidth_of_encode rfl (by decide)
theorem EncodingHasItsWidth.sym61 : EncodingHasItsWidth.Statement (.sym61) :=
  encodingWidth_of_encode rfl (by decide)
theorem EncodingHasItsWidth.sym62 : EncodingHasItsWidth.Statement (.sym62) :=
  encodingWidth_of_encode rfl (by decide)
theorem EncodingHasItsWidth.sym63 : EncodingHasItsWidth.Statement (.sym63) :=
  encodingWidth_of_encode rfl (by decide)
theorem EncodingHasItsWidth.wsel (m : Nat) : EncodingHasItsWidth.Statement (.wsel m) := nofun
theorem EncodingHasItsWidth.wcode (w : Width) : EncodingHasItsWidth.Statement (.wcode w) := nofun
theorem EncodingHasItsWidth.lflag (n : BitVec 10) : EncodingHasItsWidth.Statement (.lflag n) := nofun
theorem EncodingHasItsWidth.lenw (f : Bool) : EncodingHasItsWidth.Statement (.lenw f) := nofun
theorem EncodingHasItsWidth.hdr (n : BitVec 10) (w : Width) : EncodingHasItsWidth.Statement (.hdr n w) := nofun
theorem EncodingHasItsWidth.rangechk (seq : List Int) : EncodingHasItsWidth.Statement (.rangechk seq) := nofun
theorem EncodingHasItsWidth.emit (seq : List Nat) (w : Width) : EncodingHasItsWidth.Statement (.emit seq w) := nofun
theorem EncodingHasItsWidth.pad (b : Bits) : EncodingHasItsWidth.Statement (.pad b) := nofun
theorem EncodingHasItsWidth.totbits (n : Nat) (w : Width) : EncodingHasItsWidth.Statement (.totbits n w) := nofun
theorem EncodingHasItsWidth.pack (seq : List Nat) (w : Width) : EncodingHasItsWidth.Statement (.pack seq w) := nofun
theorem EncodingHasItsWidth.chunk (b : Bits) : EncodingHasItsWidth.Statement (.chunk b) := nofun
theorem EncodingHasItsWidth.symenc (i : BitVec 6) : EncodingHasItsWidth.Statement (.symenc i) := nofun
theorem EncodingHasItsWidth.symbols (b : Bits) : EncodingHasItsWidth.Statement (.symbols b) := nofun
theorem EncodingHasItsWidth.symdec (c : CodeUnit) : EncodingHasItsWidth.Statement (.symdec c) := nofun
theorem EncodingHasItsWidth.expand (i : BitVec 6) : EncodingHasItsWidth.Statement (.expand i) := nofun
theorem EncodingHasItsWidth.unchunk (t : List CodeUnit) : EncodingHasItsWidth.Statement (.unchunk t) := nofun
theorem EncodingHasItsWidth.read (b : Bits) (p k : Nat) : EncodingHasItsWidth.Statement (.read b p k) := nofun
theorem EncodingHasItsWidth.wdec (c : WidthCode) : EncodingHasItsWidth.Statement (.wdec c) := nofun
theorem EncodingHasItsWidth.hparse (b : Bits) : EncodingHasItsWidth.Statement (.hparse b) := nofun
theorem EncodingHasItsWidth.elems (b : Bits) (p n : Nat) (w : Width) : EncodingHasItsWidth.Statement (.elems b p n w) := nofun
theorem EncodingHasItsWidth.unpack (b : Bits) : EncodingHasItsWidth.Statement (.unpack b) := nofun
theorem EncodingHasItsWidth.rdstep (x : Bool) : EncodingHasItsWidth.Statement (.rdstep x) := nofun

end Sys2Proof.Laws
end

