-- ==== Sys2Proof/Laws/Values.lean ====
section
/-! SUPPORT. The parameters and the small functions of the units, as plain numbers. -/

namespace Sys2Proof.Machine

theorem inRange_iff (v : CodeUnit) : inRange v = true ↔ 1 ≤ v.toNat ∧ v.toNat ≤ 300 := by
  unfold inRange
  rw [Bool.and_eq_true, decide_eq_true_iff, decide_eq_true_iff]
  exact Iff.rfl

theorem validElem_iff (v : Int) : validElem v = true ↔ 1 ≤ v ∧ v ≤ 300 := by
  unfold validElem
  rw [Bool.and_eq_true, decide_eq_true_iff, decide_eq_true_iff]
  exact Iff.rfl

/-- The low 9 bits of an element in range are the element (20_memory.md R56). -/
theorem low9_toNat {v : CodeUnit} (h : v.toNat ≤ 300) : (low9 v).toNat = v.toNat := by
  simp only [low9, BitVec.truncate_eq_setWidth, BitVec.toNat_setWidth]
  omega

theorem wsel_eq (m : Nat) : wsel m = if m < 10 then .w4 else if m < 100 then .w7 else .w9 := rfl

/-- Every element up to 300 fits the width chosen for a maximum that is not below it. -/
theorem lt_width_of_le {v m : Nat} (h : v ≤ m) (hm : m ≤ 300) : v < 2 ^ widthBits (wsel m) := by
  rw [wsel_eq]
  by_cases h1 : m < 10
  · rw [if_pos h1]; simp only [widthBits]; omega
  · by_cases h2 : m < 100
    · rw [if_neg h1, if_pos h2]; simp only [widthBits]; omega
    · rw [if_neg h1, if_neg h2]; simp only [widthBits]; omega

theorem lflag_eq (n : Nat) : lflag n = decide (64 ≤ n) := rfl

@[simp] theorem lenw_false : lenw false = 6 := rfl
@[simp] theorem lenw_true : lenw true = 10 := rfl

/-- The header of fewer than 64 elements (30_encoding.md R72). -/
theorem hdr_short {n : Nat} (h : n < 64) (w : Width) : hdr n w = false :: (bin 6 n ++ wcode w) := by
  have : lflag n = false := by rw [lflag_eq]; simp; omega
  rw [hdr, this, lenw_false]

/-- The header of 64 or more elements (30_encoding.md R73). -/
theorem hdr_long {n : Nat} (h : 64 ≤ n) (w : Width) : hdr n w = true :: (bin 10 n ++ wcode w) := by
  have : lflag n = true := by rw [lflag_eq]; simpa using h
  rw [hdr, this, lenw_true]

@[simp] theorem wcode_length (w : Width) : (wcode w).length = 2 := by simp [wcode]

theorem hlen_eq (n : Nat) : hlen n = if n < 64 then 9 else 13 := rfl

/-- HLEN is the length of the header (40_width_select_header.md R108). -/
theorem hdr_length (n : Nat) (w : Width) : (hdr n w).length = hlen n := by
  rw [hlen_eq]
  by_cases h : n < 64
  · rw [if_pos h, hdr_short h]; simp
  · rw [if_neg h, hdr_long (by omega)]; simp

@[simp] theorem emit_nil (w : Width) : emit [] w = [] := rfl

theorem emit_length (seq : List Nat) (w : Width) : (emit seq w).length = seq.length * widthBits w := by
  induction seq with
  | nil => simp
  | cons v rest ih => simp only [emit, List.length_append, bin_length, ih, List.length_cons]; ring

/-- Where every element fits, EMIT is `emit` (R123). -/
theorem emitField_fits {seq : List Nat} {w : Width} (h : ∀ v ∈ seq, v < 2 ^ widthBits w) :
    emitField seq w = emit seq w := by
  induction seq with
  | nil => rfl
  | cons v rest ih =>
    simp only [emitField, emit, elementField]
    rw [if_pos (h v (by simp)), ih fun u hu => h u (by simp [hu])]

/-- Up to 1023 elements the header of PACK is HDR (R107). -/
theorem headerField_le {n : Nat} {w : Width} (h : n ≤ 1023) : headerField n w = hdr n w := if_pos h

theorem padLen_le (n : Nat) : padLen n ≤ 5 := by unfold padLen; omega

/-- Padding brings the length to a multiple of 6. -/
theorem padLen_spec (n : Nat) : (n + padLen n) % 6 = 0 := by unfold padLen; omega

theorem widthBits_pos (w : Width) : 1 ≤ widthBits w := by cases w <;> decide

theorem widthBits_le (w : Width) : widthBits w ≤ 9 := by cases w <;> decide

theorem wdec_wcOfWidth (w : Width) : wdec (wcOfWidth w) = .ok w := by cases w <;> rfl

theorem wcOfNat_wcNat (c : WidthCode) : wcOfNat (wcNat c) = c := by cases c <;> rfl

/-- READ inside the string (43_bit_unpacker.md R161). -/
theorem read_ok {b : Bits} {p k : Nat} (h : p + k ≤ b.length) :
    read b p k = .ok (val ((b.drop p).take k), p + k) := by
  unfold read; rw [if_neg (by omega)]

/-- READ past the end. -/
theorem read_truncated {b : Bits} {p k : Nat} (h : b.length < p + k) : read b p k = .err .truncatedInput 0 := by
  unfold read; rw [if_pos h]

/-- READ fails with TRUNCATED_INPUT only. -/
theorem read_err {b : Bits} {p k : Nat} {e : ErrKind} {i : CodeUnit} (h : read b p k = .err e i) :
    e = .truncatedInput ∧ i = 0 ∧ b.length < p + k := by
  unfold read at h
  split at h
  · next hl => cases h; exact ⟨rfl, rfl, hl⟩
  · cases h

end Sys2Proof.Machine
end

