-- ==== Sys2Proof/Tests/Slice0.lean ====
section
/-! SUPPORT. The model's own tests. Expected values come from 95_test_vectors.md (its vector families are named) or from the
worked examples of the rules named. Then, for every statement with hypotheses, a witness that meets them. -/

namespace Sys2Proof.Tests

open Sys2Proof Sys2Proof.Machine

/-- Bits written as 0 and 1. -/
def bits (b : List Nat) : Bits := b.map fun x => decide (x = 1)

/-- The next state, if there is one. -/
def after : Out → Option State
  | .next t => some t
  | .fault _ => none
  | .refused _ => none

/-- The result that is driven in the next state. -/
def driven (o : Out) : Option (Result UnitValue) := (after o).bind State.unitOut

/-- The refusal, if there is one. -/
def refusal : Out → Option Refusal
  | .refused r => some r
  | .next _ => none
  | .fault _ => none

/-! ## WellFormed: each check refuses an ill-formed term -/

theorem test_wf_padf : wellFormed (.padf 6) = false ∧ wellFormed (.padf 5) = true := by decide
theorem test_wf_outBeat_status : wellFormed (.outBeat true 0 6) = false ∧ wellFormed (.outBeat true 0 5) = true := by decide
theorem test_wf_outBeat_info : wellFormed (.outBeat true 35 1) = false ∧ wellFormed (.outBeat true 35 2) = true := by decide
theorem test_wf_outBeat_data : wellFormed (.outBeat false 512 0) = false ∧ wellFormed (.outBeat false 1 1) = false ∧
    wellFormed (.outBeat false 511 0) = true := by decide
theorem test_wf_emit : wellFormed (.emit [0] .w4) = false ∧ wellFormed (.emit [301] .w9) = false ∧
    wellFormed (.emit [16] .w4) = false ∧ wellFormed (.emit [9] .w4) = true := by decide
theorem test_wf_pack_width : wellFormed (.pack [10] .w4) = false ∧ wellFormed (.pack [0] .w4) = false ∧
    wellFormed (.pack [10] .w7) = true := by decide
theorem test_wf_pack_count : wellFormed (.pack (List.replicate 1024 1) .w4) = false := by
  simp only [wellFormed, List.length_replicate, show decide (1024 ≤ Config.cntMax) = false from rfl, Bool.and_false,
    Bool.false_and]
theorem test_wf_chunk : wellFormed (.chunk [true]) = false ∧ wellFormed (.chunk []) = true := by decide
theorem test_wf_symbols : wellFormed (.symbols [true]) = false ∧ wellFormed (.symbols []) = true := by decide
theorem test_wf_read : wellFormed (.read [true] 0 0) = false ∧ wellFormed (.read [true] 0 1) = true := by decide

/-! ## Decode: the words of every row with an encoding, written out from 30_encoding.md and 10_state.md -/

/-- R71. -/
theorem test_decode_cmd : decode .cmd (bits [0]) = .ok (.encodeCmd, []) ∧ decode .cmd (bits [1]) = .ok (.decodeCmd, []) := by
  decide
/-- R72: 5 elements at width 7. -/
theorem test_decode_hdrShort : decode .hdr (bits [0, 0, 0, 0, 1, 0, 1, 0, 1]) = .ok (.hdrShort 5 .wc01, []) := by decide
/-- R73: 64 elements at width 9 (V-HDR). -/
theorem test_decode_hdrLong :
    decode .hdr (bits [1, 0, 0, 0, 1, 0, 0, 0, 0, 0, 0, 1, 0]) = .ok (.hdrLong 64 .wc10, []) := by decide
/-- R76, R78. -/
theorem test_decode_wcode : decode .wcode (bits [0, 0]) = .ok (.wc4, []) ∧ decode .wcode (bits [0, 1]) = .ok (.wc7, []) ∧
    decode .wcode (bits [1, 0]) = .ok (.wc9, []) ∧ decode .wcode (bits [1, 1]) = .ok (.wcRsvd, []) := by decide
/-- R79: 9 at width 4, 99 at width 7, 256 at width 9 (V-EMIT); padding of two bits, of any value. -/
theorem test_decode_elem : decode (.elem .w4) (bits [1, 0, 0, 1]) = .ok (.elem4 9, []) ∧
    decode (.elem .w7) (bits [1, 1, 0, 0, 0, 1, 1]) = .ok (.elem7 99, []) ∧
    decode (.elem .w9) (bits [1, 0, 0, 0, 0, 0, 0, 0, 0]) = .ok (.elem9 256, []) ∧
    decode (.padf 2) (bits [0, 1]) = .ok (.padf 2, []) := by decide
/-- R83: a DECODE data beat with code unit 66; R84: the end beat of `decode("#")` (V-DEC). -/
theorem test_decode_beats :
    decode .inBeat (bits [1, 0, 0, 0, 0, 0, 0, 0, 0, 0, 0, 1, 0, 0, 0, 0, 1, 0]) = .ok (.inBeat true false 66, []) ∧
    decode .outBeat (bits [1, 0, 0, 0, 0, 0, 0, 0, 0, 0, 0, 1, 0, 0, 0, 1, 1, 0, 1, 0]) = .ok (.outBeat true 35 2, []) := by
  decide
/-- 10_state.md R36. -/
theorem test_decode_status :
    decode .status (bits [0, 0, 0]) = .ok (.stOk, []) ∧ decode .status (bits [0, 0, 1]) = .ok (.stRangeError, []) ∧
    decode .status (bits [0, 1, 0]) = .ok (.stInvalidCharacter, []) ∧
    decode .status (bits [0, 1, 1]) = .ok (.stInvalidWidthCode, []) ∧
    decode .status (bits [1, 0, 0]) = .ok (.stLengthError, []) ∧
    decode .status (bits [1, 0, 1]) = .ok (.stTruncatedInput, []) ∧
    decode .status (bits [1, 1, 0]) = .ok (.stRsvd6, []) ∧ decode .status (bits [1, 1, 1]) = .ok (.stRsvd7, []) := by decide

/-- R80: symbols 0 to 15. -/
theorem test_decode_sym_a :
    [bits [0, 0, 0, 0, 0, 0], bits [0, 0, 0, 0, 0, 1], bits [0, 0, 0, 0, 1, 0], bits [0, 0, 0, 0, 1, 1],
     bits [0, 0, 0, 1, 0, 0], bits [0, 0, 0, 1, 0, 1], bits [0, 0, 0, 1, 1, 0], bits [0, 0, 0, 1, 1, 1],
     bits [0, 0, 1, 0, 0, 0], bits [0, 0, 1, 0, 0, 1], bits [0, 0, 1, 0, 1, 0], bits [0, 0, 1, 0, 1, 1],
     bits [0, 0, 1, 1, 0, 0], bits [0, 0, 1, 1, 0, 1], bits [0, 0, 1, 1, 1, 0], bits [0, 0, 1, 1, 1, 1]].map (decode .sym) =
    [.sym0, .sym1, .sym2, .sym3, .sym4, .sym5, .sym6, .sym7, .sym8, .sym9, .sym10, .sym11, .sym12, .sym13, .sym14, .sym15].map (fun i => .ok (i, [])) := by decide

/-- R80: symbols 16 to 31. -/
theorem test_decode_sym_b :
    [bits [0, 1, 0, 0, 0, 0], bits [0, 1, 0, 0, 0, 1], bits [0, 1, 0, 0, 1, 0], bits [0, 1, 0, 0, 1, 1],
     bits [0, 1, 0, 1, 0, 0], bits [0, 1, 0, 1, 0, 1], bits [0, 1, 0, 1, 1, 0], bits [0, 1, 0, 1, 1, 1],
     bits [0, 1, 1, 0, 0, 0], bits [0, 1, 1, 0, 0, 1], bits [0, 1, 1, 0, 1, 0], bits [0, 1, 1, 0, 1, 1],
     bits [0, 1, 1, 1, 0, 0], bits [0, 1, 1, 1, 0, 1], bits [0, 1, 1, 1, 1, 0], bits [0, 1, 1, 1, 1, 1]].map (decode .sym) =
    [.sym16, .sym17, .sym18, .sym19, .sym20, .sym21, .sym22, .sym23, .sym24, .sym25, .sym26, .sym27, .sym28, .sym29, .sym30, .sym31].map (fun i => .ok (i, [])) := by decide

/-- R80: symbols 32 to 47. -/
theorem test_decode_sym_c :
    [bits [1, 0, 0, 0, 0, 0], bits [1, 0, 0, 0, 0, 1], bits [1, 0, 0, 0, 1, 0], bits [1, 0, 0, 0, 1, 1],
     bits [1, 0, 0, 1, 0, 0], bits [1, 0, 0, 1, 0, 1], bits [1, 0, 0, 1, 1, 0], bits [1, 0, 0, 1, 1, 1],
     bits [1, 0, 1, 0, 0, 0], bits [1, 0, 1, 0, 0, 1], bits [1, 0, 1, 0, 1, 0], bits [1, 0, 1, 0, 1, 1],
     bits [1, 0, 1, 1, 0, 0], bits [1, 0, 1, 1, 0, 1], bits [1, 0, 1, 1, 1, 0], bits [1, 0, 1, 1, 1, 1]].map (decode .sym) =
    [.sym32, .sym33, .sym34, .sym35, .sym36, .sym37, .sym38, .sym39, .sym40, .sym41, .sym42, .sym43, .sym44, .sym45, .sym46, .sym47].map (fun i => .ok (i, [])) := by decide

/-- R80: symbols 48 to 63. -/
theorem test_decode_sym_d :
    [bits [1, 1, 0, 0, 0, 0], bits [1, 1, 0, 0, 0, 1], bits [1, 1, 0, 0, 1, 0], bits [1, 1, 0, 0, 1, 1],
     bits [1, 1, 0, 1, 0, 0], bits [1, 1, 0, 1, 0, 1], bits [1, 1, 0, 1, 1, 0], bits [1, 1, 0, 1, 1, 1],
     bits [1, 1, 1, 0, 0, 0], bits [1, 1, 1, 0, 0, 1], bits [1, 1, 1, 0, 1, 0], bits [1, 1, 1, 0, 1, 1],
     bits [1, 1, 1, 1, 0, 0], bits [1, 1, 1, 1, 0, 1], bits [1, 1, 1, 1, 1, 0], bits [1, 1, 1, 1, 1, 1]].map (decode .sym) =
    [.sym48, .sym49, .sym50, .sym51, .sym52, .sym53, .sym54, .sym55, .sym56, .sym57, .sym58, .sym59, .sym60, .sym61, .sym62, .sym63].map (fun i => .ok (i, [])) := by decide

/-- Bits that end inside a row, and padding of more than 5 bits, are refused by name. -/
theorem test_decode_refuses : decode .hdr (bits [1, 0, 0, 0, 0, 0, 0, 0, 0, 0, 1, 1]) = .error (.tooShort .hdr) ∧
    decode (.padf 6) (bits [0, 0, 0, 0, 0, 0]) = .error (.paddingTooLong 6) := by decide

/-! ## Table words and the position they are placed at -/

theorem test_table_words : decodeTableWord 8 1 = some .decodeCmd ∧ decodeTableWord 8 5 = some .stTruncatedInput ∧
    decodeTableWord 8 36 = some .sym36 ∧ decodeTableWord 16 12 = some (.hdrShort 3 .wc00) ∧
    decodeTableWord 24 65536 = some (.inBeat false true 0) := by decide

/-- The step after the word of 'k' is placed sends the code unit 107. -/
theorem test_place_symbol : ((after (step (State.reset.withFetchWord 8 36))).map State.outLog) =
    some [{ fin := false, data := 107, status := 0 }] := by decide

/-- The step after the word of DECODE is placed leaves IDLE for DEC_LOAD. -/
theorem test_place_decode : ((after (step (State.reset.withFetchWord 8 1))).map State.ph) = some .decLoad := by decide

/-! ## Units, one operation each -/

/-- V-WSEL, the decimal boundaries and the binary ones near them. -/
theorem test_wsel : driven (exec (.wsel 15) .reset) = some (.ok (.width .w7)) ∧
    driven (exec (.wsel 9) .reset) = some (.ok (.width .w4)) ∧ driven (exec (.wsel 100) .reset) = some (.ok (.width .w9)) := by
  decide
theorem test_wcode : driven (exec (.wcode .w7) .reset) = some (.ok (.bits (bits [0, 1]))) := by decide
theorem test_lflag : driven (exec (.lflag 63) .reset) = some (.ok (.bit false)) ∧
    driven (exec (.lflag 64) .reset) = some (.ok (.bit true)) := by decide
theorem test_lenw : driven (exec (.lenw true) .reset) = some (.ok (.num 10)) := by decide
/-- V-HDR. -/
theorem test_hdr : driven (exec (.hdr 3 .w4) .reset) = some (.ok (.bits (bits [0, 0, 0, 0, 0, 1, 1, 0, 0]))) ∧
    driven (exec (.hdr 300 .w9) .reset) = some (.ok (.bits (bits [1, 0, 1, 0, 0, 1, 0, 1, 1, 0, 0, 1, 0]))) := by decide
/-- V-RANGE. -/
theorem test_rangechk : driven (exec (.rangechk [1, 300]) .reset) = some (.ok .pass) ∧
    driven (exec (.rangechk [1, 0, 2]) .reset) = some (.err .rangeError 0) ∧
    driven (exec (.rangechk [-1]) .reset) = some (.err .rangeError 0) := by decide
/-- V-EMIT. -/
theorem test_emit : driven (exec (.emit [99, 1] .w7) .reset) =
    some (.ok (.bits (bits [1, 1, 0, 0, 0, 1, 1, 0, 0, 0, 0, 0, 0, 1]))) := by decide
/-- V-PAD: 16 bits get 2, 18 bits get none. -/
theorem test_pad : driven (exec (.pad (zeros 16)) .reset) = some (.ok (.bits (zeros 18))) ∧
    driven (exec (.pad (zeros 18)) .reset) = some (.ok (.bits (zeros 18))) := by decide
theorem test_totbits : driven (exec (.totbits 300 .w9) .reset) = some (.ok (.num 2713)) := by decide
/-- The example of R128. -/
theorem test_pack : driven (exec (.pack [1, 2, 3] .w4) .reset) = some (.ok (.bits
    (bits [0, 0, 0, 0, 0, 1, 1, 0, 0, 0, 0, 0, 1, 0, 0, 1, 0, 0, 0, 1, 1, 0, 0, 0]))) := by decide
/-- The examples of R140, R143. -/
theorem test_chunk : driven (exec (.chunk (bits [0, 0, 0, 0, 0, 1, 1, 0, 0, 0, 0, 0])) .reset) =
    some (.ok (.chunks [bits [0, 0, 0, 0, 0, 1], bits [1, 0, 0, 0, 0, 0]])) := by decide
theorem test_symbols : driven (exec (.symbols (bits
    [0, 0, 0, 0, 0, 1, 1, 0, 0, 0, 0, 0, 1, 0, 0, 1, 0, 0, 0, 1, 1, 0, 0, 0])) .reset) =
    some (.ok (.units [66, 103, 107, 89])) := by decide
/-- V-SYM. -/
theorem test_symenc : driven (exec (.symenc 62) .reset) = some (.ok (.unit 43)) ∧
    driven (exec (.symenc 26) .reset) = some (.ok (.unit 97)) := by decide
theorem test_symdec : driven (exec (.symdec 57) .reset) = some (.ok (.num 61)) ∧
    driven (exec (.symdec 321) .reset) = some (.err .invalidCharacter 321) := by decide
theorem test_expand : driven (exec (.expand 36) .reset) = some (.ok (.bits (bits [1, 0, 0, 1, 0, 0]))) := by decide
/-- The second example of R148: "AM#". -/
theorem test_unchunk : driven (exec (.unchunk [65, 77, 35]) .reset) = some (.err .invalidCharacter 35) := by decide
/-- The examples of R161, R162, R164, R166. -/
theorem test_read : driven (exec (.read (bits [0, 0, 0, 0, 0, 1, 1, 0, 0]) 1 6) .reset) = some (.ok (.readAt 3 7)) := by
  decide
theorem test_wdec : driven (exec (.wdec .wc01) .reset) = some (.ok (.width .w7)) ∧
    driven (exec (.wdec .wc11) .reset) = some (.err .invalidWidthCode 0) := by decide
theorem test_hparse : driven (exec (.hparse (bits
    [0, 0, 0, 0, 0, 1, 1, 0, 0, 0, 0, 0, 1, 0, 0, 1, 0, 0, 0, 1, 1, 0, 0, 0])) .reset) =
    some (.ok (.header 3 .w4 9)) := by decide
theorem test_elems : driven (exec (.elems (bits
    [0, 0, 0, 0, 0, 1, 1, 0, 0, 0, 0, 0, 1, 0, 0, 1, 0, 0, 0, 1, 1, 0, 0, 0]) 9 3 .w4) .reset) =
    some (.ok (.values [1, 2, 3])) := by decide
/-- V-DEC "gA": flag 1 needs 13 bits, 12 given; "A3/" decodes to 511. -/
theorem test_unpack : driven (exec (.unpack (bits [1, 0, 0, 0, 0, 0, 0, 0, 0, 0, 0, 0])) .reset) =
      some (.err .truncatedInput 0) ∧
    driven (exec (.unpack (bits [0, 0, 0, 0, 0, 0, 1, 1, 0, 1, 1, 1, 1, 1, 1, 1, 1, 1])) .reset) =
      some (.ok (.values [511])) := by decide

/-! ## The two commands as functions (V-ENC, V-DEC) -/

theorem test_encode_vectors : encodeFn [] = .ok [65, 65] ∧ encodeFn [1, 2, 3] = .ok [66, 103, 107, 89] ∧
    encodeFn [9, 10] = .ok [66, 73, 107, 85] ∧ encodeFn [300] = .ok [65, 48, 115] := by decide
theorem test_decode_vectors : decodeFn [66, 103, 107, 89] = .ok [1, 2, 3] ∧
    decodeFn [103, 71, 67, 82, 103] = .ok [1, 2, 3] ∧ decodeFn [65, 89, 35] = .err .invalidCharacter 35 ∧
    decodeFn [102, 52] = .err .invalidWidthCode 0 ∧ decodeFn [66, 103] = .err .truncatedInput 0 := by decide

/-! ## Small states -/

/-- ENC_LOAD after elements 1, 2. -/
def loading : State :=
  { State.reset with ph := .encLoad, cnt := 2, max := 2, ebuf := [(0, 1), (1, 2)] }

/-- ENC_LOAD with 1023 elements counted (their entries are not listed here). -/
def loadFull : State := { State.reset with ph := .encLoad, cnt := 1023 }

/-- ENC_EMIT at the start of `ENC 1 2 3` (44_commands.md R189). -/
def emitting : State :=
  { State.reset with ph := .encEmit, cnt := 3, max := 3, wid := 4, ebuf := [(0, 1), (1, 2), (2, 3)] }

/-- ENC_EMIT after the header and 'B' of `ENC 7 7 7`: 3 bits held (V-ACC). -/
def emitElement : State :=
  { State.reset with ph := .encEmit, cnt := 3, max := 7, wid := 4, hdone := true, acc := bits [1, 0, 0], nacc := 3,
                     ebuf := [(0, 7), (1, 7), (2, 7)] }

/-- ENC_EMIT with the chunk of 'k' and a bit after it. -/
def emitSymbol : State :=
  { emitElement with acc := bits [1, 0, 0, 1, 0, 0, 1], nacc := 7, eidx := 3 }

/-- ENC_EMIT before the padding of the empty sequence (V-ACC). -/
def emitPadding : State :=
  { State.reset with ph := .encEmit, wid := 4, hdone := true, acc := bits [0, 0, 0], nacc := 3 }

/-- ENC_EMIT with nothing left. -/
def emitDone : State := { State.reset with ph := .encEmit, wid := 4, hdone := true }

/-- DEC_LOAD before any bit. -/
def reading : State := { State.reset with ph := .decLoad }

/-- DEC_LOAD after the width-code of "BwFMZk" and no element bit. -/
def readElement : State :=
  { State.reset with ph := .decLoad, rs := .elem, cnt := 3, wid := 9, bcnt := 9 }

/-- DEC_EMIT with the element 301 to send. -/
def sending : State := { State.reset with ph := .decEmit, cnt := 1, wid := 9, rs := .done, ebuf := [(0, 301)] }

/-- REPORT with INVALID_CHARACTER 35. -/
def reporting : State := { State.reset with ph := .report, status := 2, info := 35, icerr := true, badc := 35 }

/-- IDLE with a beat on the pins. -/
def presented (fin : Bool) (data : CodeUnit) : State :=
  { State.reset with pins := { Pins.low with inEnd := fin, inData := data } }

/-! ## Rows at their positions -/

/-- P3: a range error is noted, the element is counted and not stored. -/
theorem test_inBeat_range : (after (exec (.inBeat false false 0) loading)).map (fun t => (t.rerr, t.cnt, t.ebuf)) =
    some (true, 3, [(0, 1), (1, 2)]) := by decide
/-- P6: the 1024th element sets OVF and is not counted. -/
theorem test_inBeat_overflow : (after (exec (.inBeat false false 1) loadFull)).map (fun t => (t.ovf, t.cnt, t.ebuf)) =
    some (true, 1023, []) := by decide
/-- V-ACC: E2 pushes `000001100`. -/
theorem test_hdrShort_pushed : (after (exec (.hdrShort 3 .wc00) emitting)).map (fun t => (t.acc, t.nacc, t.hdone)) =
    some (bits [0, 0, 0, 0, 0, 1, 1, 0, 0], 9, true) := by decide
/-- V-ACC: E3 pushes `0111`, 7 bits held. -/
theorem test_elem4_pushed : (after (exec (.elem4 7) emitElement)).map (fun t => (t.acc, t.nacc, t.eidx)) =
    some (bits [1, 0, 0, 0, 1, 1, 1], 7, 1) := by decide
/-- V-ACC: E4 pushes `000`. -/
theorem test_padf_pushed : (after (exec (.padf 3) emitPadding)).map (fun t => (t.acc, t.nacc)) =
    some (bits [0, 0, 0, 0, 0, 0], 6) := by decide
/-- 'k' is sent and popped. -/
theorem test_sym36_sent : (after (exec .sym36 emitSymbol)).map (fun t => (t.acc, t.nacc, t.outLog)) =
    some (bits [1], 1, [{ fin := false, data := 107, status := 0 }]) := by decide
/-- V-RD: after 'w' of "BwFMZk" the reader is in R_ELEM with 6 bits to come. -/
theorem test_sym48_read :
    (after (exec .sym48 { reading with rs := .len, bcnt := 1, sh := 1 })).map
      (fun t => (t.rs, t.bcnt, t.sh, t.cnt, t.wid)) = some (.elem, 6, 0, 3, 9) := by decide
/-- V-RD: the reserved width-code of "AY". -/
theorem test_wcRsvd_read : (after (exec .wcRsvd { reading with rs := .wc, bcnt := 2 })).map (fun t => (t.rs, t.wid)) =
    some (.badwc, 0) := by decide
/-- V-RD: EBUF[0] = 5. -/
theorem test_elem9_read : (after (exec (.elem9 5) readElement)).map (fun t => (t.ebuf, t.eidx, t.bcnt)) =
    some ([(0, 5)], 1, 9) := by decide
/-- P6: 301 is sent, zero-extended. -/
theorem test_outBeat_element : (after (exec (.outBeat false 301 0) sending)).map (fun t => (t.eidx, t.outLog)) =
    some (1, [{ fin := false, data := 301, status := 0 }]) := by decide
/-- P3: the end beat (1, 35, 2), and IDLE. -/
theorem test_stInvalidCharacter : (after (exec .stInvalidCharacter reporting)).map (fun t => (t.ph, t.outLog)) =
    some (.idle, [{ fin := true, data := 35, status := 2 }]) := by decide
/-- P5: `DEC ""` reports TRUNCATED_INPUT with RS still R_FLAG. -/
theorem test_decodeCmd_empty : (after (exec .decodeCmd (presented true 0))).map (fun t => (t.ph, t.status, t.rs)) =
    some (.report, 5, .flag) := by decide
/-- P5: `ENC` of the empty sequence goes from IDLE to ENC_EMIT in one step. -/
theorem test_encodeCmd_empty : (after (exec .encodeCmd (presented true 0))).map (fun t => (t.ph, t.wid)) =
    some (.encEmit, 4) := by decide
/-- V-RD: the last bit of the element 5. -/
theorem test_rdstep_element :
    (after (exec (.rdstep true) { readElement with bcnt := 1, sh := 2 })).map (fun t => (t.ebuf, t.eidx, t.sh)) =
    some ([(0, 5)], 1, 0) := by decide
/-- R36, U9. -/
theorem test_stRsvd : refusal (exec .stRsvd6 reporting) = some (.reservedStatus 6) ∧
    refusal (exec .stRsvd7 reporting) = some (.reservedStatus 7) := by decide
/-- R240: `rst` in ENC_EMIT. -/
theorem test_step_reset : (after (step { emitSymbol with edges := [{ Pins.low with rst := true }] })).map
    (fun t => (t.ph, t.nacc, t.cnt, t.ebuf)) = some (.idle, 0, 0, []) := by decide
/-- R34: an offered symbol that is not taken stays offered. -/
theorem test_step_stall : (after (step { emitSymbol with edges := [{ Pins.low with go := true }] })).map
    (fun t => (t.outValid, t.nacc, t.outLog)) = some (true, 7, []) := by decide
/-- R250.1: a withdrawn beat. -/
theorem test_step_unstable :
    refusal (step { loading with edges := [Pins.low], pend := some { op := false, fin := false, data := 3 } }) =
      some .hostUnstable := by decide

/-! ## Witnesses: for every statement with hypotheses, values that meet all of them

`witness_<Statement>` gives them for each clause, at the ends of its range. -/

theorem witness_DecodeInvertsEncode : wellFormed (.hdrLong 1023 .wc11) = true ∧
    encode (.hdrLong 1023 .wc11) = some (.hdr, bits [1, 1, 1, 1, 1, 1, 1, 1, 1, 1, 1, 1, 1]) ∧
    wellFormed (.padf 5) = true ∧ encode (.padf 5) = some (.padf 5, bits [0, 0, 0, 0, 0]) := by decide
theorem witness_DecodedBitsAreTheEncoding : decode .hdr (bits [0, 1, 1, 1, 1, 1, 1, 0, 0, 1]) =
    .ok (.hdrShort 63 .wc00, [true]) ∧ decode (.padf 5) (bits [1, 1, 1, 1, 1]) = .ok (.padf 5, []) := by decide
theorem witness_SymbolTableIsArithmetic : (0 < 64) ∧ (63 < 64) := by decide
theorem witness_SymbolCodecInverses : symdec 47 = some 63 ∧ symdec 65 = some 0 ∧ (zeros 6).length % 6 = 0 := by decide
theorem witness_HparseInvertsHdr : (0 ≤ 1023) ∧ (1023 ≤ 1023) := by decide
theorem witness_BitStringMap : ([300, 1] : List Nat).length ≤ 1023 ∧ ∀ v ∈ [300, 1], v < 2 ^ widthBits .w9 := by decide
theorem witness_EncodeErrorPriority :
    (∃ v ∈ ([300, 301] : List Int), v < 1 ∨ 300 < v) ∧ (∃ v ∈ ([0] : List Int), v < 1 ∨ 300 < v) ∧
    ((∀ v ∈ List.replicate 1024 (300 : Int), 1 ≤ v ∧ v ≤ 300) ∧ 1024 ≤ (List.replicate 1024 (300 : Int)).length) ∧
    ((∀ v ∈ List.replicate 1023 (1 : Int), 1 ≤ v ∧ v ≤ 300) ∧ (List.replicate 1023 (1 : Int)).length ≤ 1023) := by
  refine ⟨by decide, by decide, ⟨fun v h => ?_, List.length_replicate.ge⟩, fun v h => ?_, List.length_replicate.le⟩ <;>
    (rw [List.eq_of_mem_replicate h]; decide)
/-- "AM#"; "gA" (12 bits of 13), "f4" (code `11`), "Bgk" (18 bits of 21), "AA" and "BgkY" (all the bits needed). -/
theorem witness_DecodeErrorPriority :
    ([65, 77, 35] : List CodeUnit).find? (fun x => (symdec x).isNone) = some 35 ∧
    (∃ b, unchunk [103, 65] = .ok b ∧ b.head? = some true ∧ b.length < 13) ∧
    (∃ b, unchunk [102, 52] = .ok b ∧ b.head? = some false ∧ 9 ≤ b.length ∧ val ((b.drop 7).take 2) = 3) ∧
    (∃ b, unchunk [66, 103, 107] = .ok b ∧ b.head? = some false ∧ 9 ≤ b.length ∧ val ((b.drop 7).take 2) = 0 ∧
      b.length < 9 + val ((b.drop 1).take 6) * 4) ∧
    (∃ b, unchunk [65, 65] = .ok b ∧ b.head? = some false ∧ val ((b.drop 7).take 2) = 0 ∧
      9 + val ((b.drop 1).take 6) * 4 ≤ b.length) := by
  refine ⟨by decide, ⟨_, rfl, by decide⟩, ⟨_, rfl, by decide⟩, ⟨_, rfl, by decide⟩, ⟨_, rfl, by decide⟩⟩
theorem witness_LeftoverBitsIgnored : hparse (bits [0, 0, 0, 0, 0, 0, 1, 0, 0, 1, 0, 0, 1, 1, 1]) = .ok (1, .w4, 9) ∧
    9 + 1 * widthBits .w4 ≤ (bits [0, 0, 0, 0, 0, 0, 1, 0, 0, 1, 0, 0, 1, 1, 1]).length := by decide
theorem witness_EncodedAlphabetAndLength : encodeFn [] = .ok [65, 65] := by decide
theorem witness_WidthFollowsMaximum : encodeFn [5, 99, 100] = .ok [66, 119, 70, 77, 90, 107] ∧
    (∃ v ∈ ([5, 99, 100] : List Int), 100 ≤ v) ∧ encodeFn [9, 10] = .ok [66, 73, 107, 85] ∧
    (∃ v ∈ ([9, 10] : List Int), 10 ≤ v) ∧ (∀ v ∈ ([9, 10] : List Int), v ≤ 99) ∧ encodeFn [9] = .ok [65, 107, 103] ∧
    (∀ v ∈ ([9] : List Int), v ≤ 9) := by decide
theorem witness_RoundTrip : ([1, 300] : List Nat).length ≤ 1023 ∧ ∀ v ∈ [1, 300], 1 ≤ v ∧ v ≤ 300 := by decide
theorem witness_SerialReaderAgrees : reading.rs = .flag ∧ reading.flag = false ∧ reading.bcnt = 0 ∧ reading.sh = 0 ∧
    reading.cnt = 0 ∧ reading.wid = 0 ∧ reading.eidx = 0 ∧ { reading with rs := .done }.rs = .done ∧
    { reading with rs := .badwc }.rs = .badwc := by decide

/-! The units. -/

theorem witness_RangechkPadTotbitsResult : (∀ v ∈ ([1, 300] : List Int), 1 ≤ v ∧ v ≤ 300) ∧
    (∃ v ∈ ([300, 301] : List Int), v < 1 ∨ 300 < v) := by decide
theorem witness_EmitAndPackResult : (∀ v ∈ [15, 0], v < 2 ^ widthBits .w4) ∧ ([15, 0] : List Nat).length ≤ 1023 := by
  decide
theorem witness_ChunkAndSymbolsResult : ([] : Bits).length % 6 = 0 ∧ (zeros 12).length % 6 = 0 := by decide
theorem witness_SymbolUnitsResult : alphabet[63]? = some 47 ∧ (64 : CodeUnit) ∉ alphabet ∧
    (∀ i ∈ [0, 63], i < 64) := by decide
theorem witness_ReadAndWdecResult : (bits [1, 0, 1]).length < 1 + 3 := by decide
theorem witness_HparseResult : (63 < 64) ∧ (1023 < 1024) ∧ wdec .wc10 = .ok .w9 ∧ (zeros 10).length = 10 ∧
    (zeros 6).length = 6 ∧ (zeros 8).length < 9 ∧ (bits [1, 0, 0, 0, 0, 0, 0, 0, 0, 0, 0, 0]).head? = some true ∧
    (bits [1, 0, 0, 0, 0, 0, 0, 0, 0, 0, 0, 0]).length < 13 := by decide
theorem witness_ElemsAndUnpackResult : (∀ v ∈ [0, 511], v < 2 ^ widthBits .w9) ∧
    ((zeros 9).length ≤ (zeros 9).length ∧ (zeros 9).length < 9 + 1 * widthBits .w4) ∧
    (hparse (zeros 9) = .ok (0, .w4, 9) ∧ elems (zeros 9) 9 0 .w4 = .ok []) ∧
    (hparse (bits [0, 0, 0, 0, 0, 0, 1, 0, 0]) = .ok (1, .w4, 9) ∧
      elems (bits [0, 0, 0, 0, 0, 0, 1, 0, 0]) 9 1 .w4 = .err .truncatedInput 0) ∧
    hparse [] = .err .truncatedInput 0 := by decide
theorem witness_UnitRowsChangeNoRegister : encode (.emit [16] .w4) = none ∧
    ∀ x, Instr.emit [16] .w4 ≠ .rdstep x := ⟨rfl, fun _ h => nomatch h⟩
theorem witness_RefusedByName :
    (encode .sym5 = some (.sym, bits [0, 0, 0, 1, 0, 1]) ∧ State.reset.ph = .idle ∧ loading.ph = .encLoad ∧
      sending.ph = .decEmit ∧ reporting.ph = .report) ∧
    (emitting.ph = .encEmit ∧ fetch emitting ≠ .word .sym (bits [0, 0, 0, 1, 0, 1]) ∧
      encode .wcRsvd = some (.wcode, [true, true]) ∧ fetch emitting ≠ .word .wcode [true, true] ∧
      encode (.padf 0) = some (.padf 0, []) ∧ fetch emitting ≠ .word (.padf 0) [] ∧ emitStep emitting ≠ .finish) ∧
    (readElement.ph = .decLoad ∧ encode (.hdrShort 0 .wc00) = some (.hdr, zeros 9) ∧ readElement.rs ≠ .flag ∧
      readElement.rs ≠ .wc ∧ readElement.rs ≠ .done ∧ readElement.rs ≠ .badwc ∧
      encode (.elem4 0) = some (.elem .w4, zeros 4) ∧ readElement.wid ≠ widthReg .w4) ∧
    offer sending ≠ some (OutBeat.mk false 300 0) ∧ offer reporting ≠ some (OutBeat.mk true 0 0) ∧
    State.reset.ph ≠ .report ∧ (reporting.ph = .report ∧ reporting.status.toNat ≠ 5) ∧ State.reset.ph ≠ .decLoad := by
  decide

/-! The reader. -/

theorem witness_RdstepFollowsItsTable : reading.ph = .decLoad ∧ reading.rs = .flag ∧
    (readElement.ph = .decLoad ∧ readElement.rs = .elem ∧ readElement.bcnt ≠ 1) ∧
    (let s := { reading with rs := .len, bcnt := 1, sh := 1 }
     s.ph = .decLoad ∧ s.rs = .len ∧ s.bcnt = 1) ∧
    (let s := { reading with rs := .wc, bcnt := 1, sh := 1 }
     s.ph = .decLoad ∧ s.rs = .wc ∧ s.bcnt = 1 ∧ 2 * s.sh.toNat + true.toNat = 3 ∧
     2 * s.sh.toNat + false.toNat < 3 ∧ s.cnt = 0) ∧
    (let s := { reading with rs := .wc, bcnt := 1, cnt := 1023 }
     s.ph = .decLoad ∧ s.rs = .wc ∧ s.bcnt = 1 ∧ 2 * s.sh.toNat + false.toNat < 3 ∧ s.cnt ≠ 0) ∧
    (let s := { readElement with bcnt := 1, cnt := 1023, eidx := 1022 }
     s.ph = .decLoad ∧ s.rs = .elem ∧ s.bcnt = 1 ∧ s.eidx.toNat < 1023 ∧ s.eidx + 1 = s.cnt) ∧
    (let s := { readElement with bcnt := 1 }
     s.ph = .decLoad ∧ s.rs = .elem ∧ s.bcnt = 1 ∧ s.eidx.toNat < 1023 ∧ s.eidx + 1 ≠ s.cnt) ∧
    (let s := { reading with rs := .badwc }
     s.ph = .decLoad ∧ (s.rs = .done ∨ s.rs = .badwc)) := by decide
theorem witness_HeaderAndWidthCodeRead : (reading.ph = .decLoad ∧ reading.icerr = false ∧ reading.rs = .flag) ∧
    (let s := { reading with rs := .wc, bcnt := 2 }
     s.ph = .decLoad ∧ s.icerr = false ∧ s.rs = .wc ∧ s.bcnt = 2 ∧ s.sh = 0) := by decide
theorem witness_ElementRead :
    (let s := readElement
     s.ph = .decLoad ∧ s.icerr = false ∧ s.rs = .elem ∧ s.wid = widthReg .w9 ∧ s.bcnt = widthReg .w9 ∧ s.sh = 0 ∧
     s.eidx.toNat < 1023 ∧ 511 < 2 ^ widthBits .w9) ∧
    (let s := { readElement with cnt := 1023, eidx := 1022, wid := 4, bcnt := 4 }
     s.ph = .decLoad ∧ s.icerr = false ∧ s.rs = .elem ∧ s.wid = widthReg .w4 ∧ s.bcnt = widthReg .w4 ∧ s.sh = 0 ∧
     s.eidx.toNat < 1023 ∧ 15 < 2 ^ widthBits .w4) := by decide

/-! Starting a transaction, and the load phases. -/

theorem witness_EncodeCommandResult : ((presented true 0).ph = .idle ∧ (presented true 0).pins.inEnd = true) ∧
    (let s := presented false 300
     s.ph = .idle ∧ s.pins.inEnd = false ∧ 1 ≤ s.pins.inData.toNat ∧ s.pins.inData.toNat ≤ 300) ∧
    (let s := presented false 301
     s.ph = .idle ∧ s.pins.inEnd = false ∧ (s.pins.inData.toNat = 0 ∨ 300 < s.pins.inData.toNat)) ∧
    (let s := presented false 0
     s.ph = .idle ∧ s.pins.inEnd = false ∧ (s.pins.inData.toNat = 0 ∨ 300 < s.pins.inData.toNat)) := by decide
theorem witness_DecodeCommandResult : ((presented true 0).ph = .idle ∧ (presented true 0).pins.inEnd = true) ∧
    (let s := presented false 64
     s.ph = .idle ∧ s.pins.inEnd = false ∧ s.pins.inData ∉ alphabet) ∧
    (let s := presented false 102
     s.ph = .idle ∧ 31 < 32 ∧ s.pins.inEnd = false ∧ s.pins.inData = symenc 31) ∧
    (let s := presented false 103
     s.ph = .idle ∧ 32 ≤ 32 ∧ s.pins.inEnd = false ∧ s.pins.inData = symenc 32) := by decide
theorem witness_CommandBitReadOnce : State.reset.ph = .idle ∧ loading.ph ≠ .idle ∧ (∃ t, exec (.inBeat false false 300) loading = .next t) ∧
    ∃ u, exec (.inBeat true false 300) loading = .next u := ⟨by decide, by decide, ⟨_, rfl⟩, _, rfl⟩
theorem witness_EncLoadDataBeat : loadFull.ph = .encLoad ∧ loadFull.cnt = 1023 ∧ loading.ph = .encLoad ∧
    loading.cnt ≠ 1023 ∧ (1 ≤ (1 : CodeUnit).toNat ∧ (1 : CodeUnit).toNat ≤ 300) ∧
    ¬ (1 ≤ (301 : CodeUnit).toNat ∧ (301 : CodeUnit).toNat ≤ 300) := by decide
theorem witness_EncLoadEndBeat : (loading.ph = .encLoad ∧ loading.rerr = false ∧ loading.ovf = false) ∧
    (let s := { loadFull with ovf := true }
     s.ph = .encLoad ∧ s.rerr = false ∧ s.ovf = true) ∧
    (let s := { loadFull with ovf := true, rerr := true }
     s.ph = .encLoad ∧ s.rerr = true) := by decide
theorem witness_DecLoadDataBeat : reading.ph = .decLoad ∧ reading.icerr = false ∧ (35 : CodeUnit) ∉ alphabet ∧
    (47 : CodeUnit) = symenc 63 ∧ { reading with icerr := true }.icerr = true := by decide
theorem witness_DecLoadEndBeat : { reading with icerr := true }.ph = .decLoad ∧ { reading with icerr := true }.icerr = true ∧
    { reading with rs := .badwc }.icerr = false ∧ { reading with rs := .badwc }.rs = .badwc ∧
    { reading with rs := .done }.rs = .done ∧ reading.rs ≠ .badwc ∧ reading.rs ≠ .done := by decide

/-! The emit phases and REPORT. -/

theorem witness_HeaderPushed :
    (let s := { emitting with cnt := 63 }
     s.ph = .encEmit ∧ s.nacc.toNat < 6 ∧ s.hdone = false ∧ s.wid = widthReg .w4 ∧ s.cnt.toNat < 64) ∧
    (let s := { emitting with cnt := 64, wid := 9 }
     s.ph = .encEmit ∧ s.nacc.toNat < 6 ∧ s.hdone = false ∧ s.wid = widthReg .w9 ∧ 64 ≤ s.cnt.toNat) := by decide
theorem witness_ElementPushed :
    let s := { emitElement with nacc := 5, acc := zeros 5, wid := 9, eidx := 2, ebuf := [(2, 300)] }
    s.ph = .encEmit ∧ s.nacc.toNat < 6 ∧ s.hdone = true ∧ s.eidx.toNat < s.cnt.toNat ∧ s.wid = widthReg .w9 ∧
    Memory.read s.ebuf s.eidx.toNat = some 300 ∧ (300 : Entry).toNat < 2 ^ widthBits .w9 := by decide
theorem witness_PaddingPushedOrIgnored :
    (let s := emitPadding
     s.ph = .encEmit ∧ s.nacc.toNat < 6 ∧ s.hdone = true ∧ s.cnt.toNat ≤ s.eidx.toNat ∧ 0 < s.nacc.toNat) ∧
    (let s := emitDone
     s.ph = .encEmit ∧ s.nacc.toNat < 6 ∧ s.hdone = true ∧ s.cnt.toNat ≤ s.eidx.toNat ∧ s.nacc.toNat = 0) ∧
    (let s := { reading with rs := .done }
     5 ≤ 5 ∧ s.ph = .decLoad ∧ (s.rs = .done ∨ s.rs = .badwc)) := by decide
theorem witness_SymbolSent : 36 < 64 ∧ emitSymbol.ph = .encEmit ∧ 6 ≤ emitSymbol.nacc.toNat ∧
    emitSymbol.acc.take 6 = bin 6 36 := by decide
theorem witness_SymbolRead : 63 < 64 ∧ reading.ph = .decLoad ∧ reading.icerr = false ∧
    { reading with icerr := true }.ph = .decLoad ∧ { reading with icerr := true }.icerr = true := by decide
theorem witness_ElementSent : sending.ph = .decEmit ∧ sending.eidx.toNat < sending.cnt.toNat ∧
    Memory.read sending.ebuf sending.eidx.toNat = some 301 := by decide
theorem witness_EmitPhasesEndInReport :
    (let s := { emitDone with edges := [drainEdge] }
     s.edges = drainEdge :: [] ∧ drainEdge.rst = false ∧ hostBreaks drainEdge s = false ∧ drainEdge.go = true ∧
     s.ph = .encEmit ∧ s.hdone = true ∧ s.cnt.toNat ≤ s.eidx.toNat ∧ s.nacc = 0) ∧
    (let s := { sending with edges := [drainEdge], eidx := 1 }
     s.edges = drainEdge :: [] ∧ hostBreaks drainEdge s = false ∧ s.ph = .decEmit ∧ s.eidx = s.cnt) := by decide
theorem witness_ReportSendsEndBeat : reporting.ph = .report ∧ drainEdge.rst = false ∧ drainEdge.go = true ∧ reporting.status = 2 ∧
    { reporting with status := 0 }.status = 0 ∧ { reporting with status := 5 }.status = 5 := by decide

/-! The step. -/

/-- One clause each: an input beat, an output beat, an internal step. -/
theorem witness_StepRunsDecodedRow :
    (let e := willingEdge true false 66
     let s := { reading with edges := [e] }
     e.rst = false ∧ hostBreaks e s = false ∧ wellFormed (.inBeat true false 66) = true ∧
     fetch { s with edges := [], pins := e } = .word .inBeat (bits [1, 0, 0, 0, 0, 0, 0, 0, 0, 0, 0, 1, 0, 0, 0, 0, 1, 0]) ∧
     decode .inBeat (bits [1, 0, 0, 0, 0, 0, 0, 0, 0, 0, 0, 1, 0, 0, 0, 0, 1, 0]) = .ok (.inBeat true false 66, []) ∧
     acceptsInput s = true ∧ e.inValid = true ∧ e.go = true) ∧
    (let s := { emitSymbol with edges := [drainEdge] }
     hostBreaks drainEdge s = false ∧ wellFormed .sym36 = true ∧
     fetch { s with edges := [], pins := drainEdge } = .word .sym (bits [1, 0, 0, 1, 0, 0]) ∧
     decode .sym (bits [1, 0, 0, 1, 0, 0]) = .ok (.sym36, []) ∧ beatDue s = true ∧ drainEdge.outReady = true ∧
     (s.outValid = true ∨ drainEdge.go = true)) ∧
    (let s := { emitElement with edges := [drainEdge] }
     hostBreaks drainEdge s = false ∧ wellFormed (.elem4 7) = true ∧
     fetch { s with edges := [], pins := drainEdge } = .word (.elem .w4) (bits [0, 1, 1, 1]) ∧
     decode (.elem .w4) (bits [0, 1, 1, 1]) = .ok (.elem4 7, []) ∧ acceptsInput s = false ∧ beatDue s = false ∧
     drainEdge.go = true) := by decide

/-- A beat taken, and a beat given. -/
theorem witness_OnlyHandshakesMoveBeats :
    (∃ t, step { loading with edges := [willingEdge false false 3] } = .next t) ∧
    beatTaken (willingEdge false false 3) loading = true ∧ beatGiven (willingEdge false false 3) loading = false ∧
    (∃ t, step { emitSymbol with edges := [drainEdge] } = .next t) ∧ beatGiven drainEdge emitSymbol = true ∧
    beatTaken drainEdge emitSymbol = false := ⟨⟨_, rfl⟩, by decide, by decide, ⟨_, rfl⟩, by decide, by decide⟩
theorem witness_UntakenBeatsWait : (emitting.ph = .encEmit ∧ sending.ph = .decEmit ∧ reporting.ph = .report) ∧
    (acceptsInput State.reset = true ∧ acceptsInput loading = true ∧ drainEdge.inValid = false ∧ Pins.low.go = false ∧
      hostBreaks drainEdge loading = false) ∧
    (let s := { reporting with outValid := true, edges := [Pins.low] }
     Pins.low.rst = false ∧ hostBreaks Pins.low s = false ∧ beatDue s = true ∧ s.outValid = true ∧
     Pins.low.outReady = false) ∧
    (beatDue sending = true ∧ sending.outValid = false) ∧
    (acceptsInput emitting = false ∧ beatDue emitting = false ∧ hostBreaks Pins.low emitting = false) := by decide
theorem witness_ResetEdge : { emitSymbol with edges := [{ Pins.low with rst := true }] }.edges =
    { Pins.low with rst := true } :: [] ∧ ({ Pins.low with rst := true } : Pins).rst = true := by decide
theorem witness_StickyFlags :
    (let s := { loading with rerr := true, ovf := true, edges := [willingEdge false false 0] }
     s.ph ≠ .idle ∧ s.rerr = true ∧ s.ovf = true ∧ ∃ t, step s = .next t) ∧
    (let s := { reading with icerr := true, badc := 35, edges := [willingEdge true false 36] }
     s.ph ≠ .idle ∧ s.icerr = true ∧ ∃ t, step s = .next t) ∧
    (let s := { loadFull with edges := [willingEdge false false 0] }
     s.rerr = false ∧ s.ovf = false ∧ ∃ t, step s = .next t ∧ t.rerr = true ∧ t.ovf = true) ∧
    (let s := { reading with edges := [willingEdge true false 35] }
     s.icerr = false ∧ ∃ t, step s = .next t ∧ t.icerr = true) := by
  refine ⟨⟨by decide, rfl, rfl, _, rfl⟩, ⟨by decide, rfl, _, rfl⟩, ⟨rfl, rfl, _, rfl, rfl, rfl⟩, rfl, _, rfl, rfl⟩

/-! The invariant, on states other than reset. -/

theorem buffered_one {m : Memory} {v : Entry} {lo hi : Nat} (h : Memory.read m 0 = some v)
    (hlo : lo ≤ v.toNat) (hhi : v.toNat ≤ hi) : Buffered m 1 lo hi := by
  intro i hi
  obtain rfl : i = 0 := by omega
  exact ⟨v, h, hlo, hhi⟩

/-- ENC_LOAD with one element. -/
def invLoading : State := { State.reset with ph := .encLoad, cnt := 1, max := 300, ebuf := [(0, 300)] }
/-- ENC_EMIT with the chunk of 'A' to send and one element after it. -/
def invEmitting : State :=
  { State.reset with ph := .encEmit, cnt := 1, max := 300, wid := 9, hdone := true, acc := zeros 7, nacc := 7,
                     ebuf := [(0, 300)] }
/-- DEC_LOAD with one element stored of two. -/
def invReading : State :=
  { State.reset with ph := .decLoad, cnt := 2, wid := 4, rs := .elem, bcnt := 4, eidx := 1, ebuf := [(0, 15)] }
/-- REPORT with RANGE_ERROR. -/
def invReporting : State := { State.reset with ph := .report, status := 1, rerr := true }

theorem inv_loading : Inv invLoading := by
  refine ⟨by decide, by decide, by decide, .inl rfl, by decide, ⟨by decide, fun _ => ?_⟩, by decide⟩
  exact buffered_one (v := 300) rfl (by decide) (by decide)
theorem inv_emitting : Inv invEmitting := by
  refine ⟨by decide, by decide, by decide, .inr ⟨.w9, rfl⟩, by decide, ⟨rfl, rfl, by decide, rfl, by decide, ?_, ?_⟩,
    by decide⟩
  · exact buffered_one (v := 300) rfl (by decide) (by decide)
  · intro h; cases h
theorem inv_reading : Inv invReading := by
  refine ⟨by decide, by decide, by decide, .inr ⟨.w4, rfl⟩, by decide,
    ⟨⟨.w4, rfl, by decide, by decide, by decide, by decide, ?_⟩, ?_⟩, by decide⟩
  · exact buffered_one (v := 15) rfl (by decide) (by decide)
  · intro h; cases h
theorem inv_sending : Inv sending := by
  refine ⟨by decide, by decide, by decide, .inr ⟨.w9, rfl⟩, by decide, ⟨rfl, rfl, by decide, ?_⟩, by decide⟩
  exact buffered_one (v := 301) rfl (by decide) (by decide)
theorem inv_reporting : Inv invReporting := by
  refine ⟨by decide, by decide, by decide, .inl rfl, by decide, ⟨?_, ?_⟩, by decide⟩
  · intro h; exact absurd h (by decide)
  · intro _; rfl
/-- The invariant does not look at the script. -/
theorem inv_edges {s : State} (h : Inv s) (e : List Pins) : Inv { s with edges := e } :=
  ⟨h.ebuf, h.nacc, h.room, h.wid, h.status, h.phase, h.valid⟩

theorem witness_PhaseTransitions : Inv { invLoading with edges := [willingEdge false true 0] } ∧
    ∃ t, step { invLoading with edges := [willingEdge false true 0] } = .next t := ⟨inv_edges inv_loading _, _, rfl⟩
theorem witness_NoDataBeatBeforeOk :
    (State.reset.ph = .idle ∧ loading.ph = .encLoad ∧ reading.ph = .decLoad) ∧
    (∃ o, offer invEmitting = some o ∧ o.fin = false) ∧ (∃ o, offer sending = some o ∧ o.fin = false) ∧
    (Inv invEmitting ∧ invEmitting.ph = .encEmit) ∧
    (Inv { sending with edges := [drainEdge] } ∧ sending.ph = .decEmit ∧ drainEdge.rst = false ∧
      hostBreaks drainEdge sending = false) :=
  ⟨⟨rfl, rfl, rfl⟩, ⟨_, rfl, rfl⟩, ⟨_, rfl, rfl⟩, ⟨inv_emitting, rfl⟩, inv_edges inv_sending _, rfl, rfl, rfl⟩
theorem witness_OnlyLoadsWriteTheBuffer :
    (Inv { invLoading with edges := [willingEdge false false 1] } ∧
      ∃ t, step { invLoading with edges := [willingEdge false false 1] } = .next t ∧ Memory.read t.ebuf 1 = some 1) ∧
    (Inv { invReading with edges := [willingEdge true false 97] } ∧
      ∃ t, step { invReading with edges := [willingEdge true false 97] } = .next t ∧ Memory.read t.ebuf 1 = some 6) :=
  ⟨⟨inv_edges inv_loading _, _, rfl, rfl⟩, inv_edges inv_reading _, _, rfl, rfl⟩
theorem witness_StepKeepsInvariant : Inv { invReporting with edges := [drainEdge] } ∧
    ∃ t, step { invReporting with edges := [drainEdge] } = .next t := ⟨inv_edges inv_reporting _, _, rfl⟩
theorem witness_InvariantRulesOutStops : (Inv invEmitting ∧ invEmitting.edges = []) ∧
    (Inv { invReading with edges := [drainEdge] } ∧ hostBreaks drainEdge invReading = false) ∧
    (let s := { invLoading with edges := [drainEdge], pend := some { op := false, fin := false, data := 3 } }
     Inv s ∧ s.edges = drainEdge :: [] ∧ drainEdge.rst = false ∧ hostBreaks drainEdge s = true) := by
  refine ⟨⟨inv_emitting, rfl⟩, ⟨inv_edges inv_reading _, by decide⟩, ?_, rfl, rfl, by decide⟩
  exact ⟨inv_loading.ebuf, inv_loading.nacc, inv_loading.room, inv_loading.wid, inv_loading.status, inv_loading.phase,
    inv_loading.valid⟩

/-! The machine as a whole: `DEC ""` of P5, two steps. -/

theorem witness_BeatLevelRefinesFunctionLevel :
    let s := { State.reset with edges := [willingEdge true true 0, drainEdge] }
    s.ph = .idle ∧ s.inLog = [] ∧ s.outLog = [] ∧ noReset s.edges ∧
    ∃ t, runSteps 2 s = .next t ∧ t.ph = .idle ∧ t.outLog = [{ fin := true, data := 0, status := 5 }] := by
  refine ⟨rfl, rfl, rfl, ?_, _, rfl, rfl, rfl⟩
  intro e he
  simp only [List.mem_cons, List.not_mem_nil, or_false] at he
  rcases he with rfl | rfl <;> rfl
theorem witness_TransactionCompletes :
    let s := { State.reset with edges := willingScript true [] 2 }
    s.ph = .idle ∧ s.pend = none ∧ drainBound true [] ≤ 2 ∧ s.edges = willingScript true [] 2 := by decide
theorem witness_PastDoesNotShow :
    let s := { State.reset with edges := [drainEdge] }
    let s' := { State.reset with edges := [drainEdge], cnt := 5, rs := .badwc, icerr := true, ebuf := [(7, 300)] }
    s.ph = .idle ∧ s'.ph = .idle ∧ s.edges = s'.edges ∧ s.pend = s'.pend ∧ s.outValid = s'.outValid ∧ s.inLog = [] ∧
    s'.inLog = [] ∧ s.outLog = [] ∧ s'.outLog = [] ∧ noReset s.edges ∧ ∃ t, runSteps 1 s = .next t := by
  refine ⟨rfl, rfl, rfl, rfl, rfl, rfl, rfl, rfl, rfl, ?_, _, rfl⟩
  intro e he
  simp only [List.mem_cons, List.not_mem_nil, or_false] at he
  subst he; rfl

/-! Liveness: blocks that come to rest in IDLE within two edges. -/

/-- A clock on which the host presents nothing and accepts output, and the block acts. -/
def drain : Clock := fun _ => drainEdge
/-- A clock with the end beat of DECODE first. -/
def endThenDrain : Clock
  | 0 => willingEdge true true 0
  | _ + 1 => drainEdge
/-- IDLE, every edge a drain edge. -/
def resting (o : List OutBeat) (s : State) : State := { s with ph := .idle, pins := drainEdge, outLog := o }

/-- The states after each edge of a clock that ends at rest. -/
theorem at_rest {c : Clock} {s a b : State} (h1 : afterEdges c s 1 = .next a) (h2 : afterEdges c s 2 = .next b)
    (h : ∀ k, step { b with edges := [c (k + 2)] } = .next b) {n : Nat} {t : State} (hn : afterEdges c s n = .next t) :
    (n = 0 ∧ t = s) ∨ (n = 1 ∧ t = a) ∨ t = b := by
  have key : ∀ k, afterEdges c s (k + 2) = .next b := by
    intro k
    induction k with
    | zero => exact h2
    | succ k ih => rw [show k + 1 + 2 = (k + 2) + 1 by omega, afterEdges, ih]; exact h k
  match n with
  | 0 => cases hn; exact .inl ⟨rfl, rfl⟩
  | 1 => rw [h1] at hn; cases hn; exact .inr (.inl ⟨rfl, rfl⟩)
  | k + 2 => rw [key k] at hn; cases hn; exact .inr (.inr rfl)

/-- A block that acts at every edge is weakly fair. -/
theorem drain_fair (s : State) : WeaklyFair drain s := fun n => ⟨n, le_refl n, .inl rfl⟩

/-- ENC_EMIT with nothing left, with the invariant. -/
theorem inv_emitDone : Inv emitDone := by
  refine ⟨by decide, by decide, by decide, .inr ⟨.w4, rfl⟩, by decide, ⟨rfl, rfl, by decide, rfl, by decide, ?_, ?_⟩,
    by decide⟩
  · intro i hi; exact absurd hi (Nat.not_lt_zero i)
  · intro h; cases h
theorem inv_reset : Inv State.reset :=
  ⟨by decide, by decide, by decide, .inl rfl, by decide, trivial, by decide⟩
theorem inv_reading0 : Inv reading :=
  ⟨by decide, by decide, by decide, .inl rfl, by decide, ⟨rfl, fun h => by cases h⟩, by decide⟩

theorem witness_EnabledStepsHappen :
    (Inv State.reset ∧ WeaklyFair drain .reset ∧ HostStable drain .reset ∧ (∀ m, 0 ≤ m → (drain m).rst = false) ∧
      afterEdges drain .reset 0 = .next .reset ∧ acceptsInput State.reset = true) ∧
    (Inv invReporting ∧ WeaklyFair drain invReporting ∧ HostStable drain invReporting ∧
      afterEdges drain invReporting 0 = .next invReporting ∧ beatDue invReporting = true) ∧
    (Inv emitDone ∧ WeaklyFair drain emitDone ∧ HostStable drain emitDone ∧
      afterEdges drain emitDone 0 = .next emitDone ∧ acceptsInput emitDone = false ∧ beatDue emitDone = false) := by
  refine ⟨⟨inv_reset, drain_fair _, ?_, fun _ _ => rfl, rfl, rfl⟩, ⟨inv_reporting, drain_fair _, ?_, rfl, rfl⟩,
    inv_emitDone, drain_fair _, ?_, rfl, rfl, rfl⟩
  · intro n t h
    rcases at_rest (a := resting [] .reset) (b := resting [] .reset) rfl rfl (fun _ => rfl) h with ⟨-, rfl⟩ | ⟨-, rfl⟩ | rfl <;>
      exact .inr rfl
  · intro n t h
    rcases at_rest (a := resting [{ fin := true, data := 0, status := 1 }] invReporting) (b := _) rfl rfl (fun _ => rfl) h
      with ⟨-, rfl⟩ | ⟨-, rfl⟩ | rfl <;> exact .inr rfl
  · intro n t h
    rcases at_rest (a := { emitDone with ph := .report, pins := drainEdge })
      (b := resting [{ fin := true, data := 0, status := 0 }] emitDone) rfl rfl (fun _ => rfl) h
      with ⟨-, rfl⟩ | ⟨-, rfl⟩ | rfl <;> exact .inr rfl

theorem witness_FairTransactionsEnd :
    Inv reading ∧ WeaklyFair endThenDrain reading ∧ HostStable endThenDrain reading ∧ HostCompletes endThenDrain reading ∧
    HostDrains endThenDrain reading ∧ (∀ m, 0 ≤ m → (endThenDrain m).rst = false) ∧
    afterEdges endThenDrain reading 0 = .next reading ∧ reading.ph ≠ .idle := by
  have rest {n t} (h : afterEdges endThenDrain reading n = .next t) :=
    at_rest (a := { reading with
        ph := .report, status := 5, pins := willingEdge true true 0, inLog := [{ op := true, fin := true, data := 0 }] })
      (b := resting [{ fin := true, data := 0, status := 5 }]
        { reading with status := 5, inLog := [{ op := true, fin := true, data := 0 }] }) rfl rfl (fun _ => rfl) h
  refine ⟨inv_reading0, ?_, ?_, ?_, ?_, ?_, rfl, by decide⟩
  · intro n; exact ⟨n, le_refl n, .inl (by cases n <;> rfl)⟩
  · intro n t h
    rcases rest h with ⟨rfl, rfl⟩ | ⟨rfl, rfl⟩ | rfl
    · exact .inr rfl
    · exact .inr rfl
    · exact .inr rfl
  · intro n t h hp
    rcases rest h with ⟨rfl, rfl⟩ | ⟨rfl, rfl⟩ | rfl
    · exact ⟨0, le_refl 0, rfl, rfl⟩
    · rcases hp with hp | hp <;> cases hp
    · rcases hp with hp | hp <;> cases hp
  · intro n t h _; exact ⟨n, le_refl n, by cases n <;> rfl⟩
  · intro m _; cases m <;> rfl
end Sys2Proof.Tests
end

section
/-! The function level: what the symbol codec, the header parser and ENCODE answer, and the width of a sequence. -/

namespace Sys2Proof.Machine

/-! ## The symbol codec -/

/-- SYMDEC undoes SYMENC (42_symbol_codec.md R146): the 64 code units of the alphabet differ. -/
theorem symdec_symenc : ∀ {i : Nat}, i < 64 → symdec (symenc i) = some i := by decide

theorem unchunk_cons_symenc {i : Nat} {t : List CodeUnit} {b : Bits} (hi : i < 64) (h : unchunk t = .ok b) :
    unchunk (symenc i :: t) = .ok (expand i ++ b) := by
  simp only [unchunk, symdec_symenc hi, h]

/-- A symbol expands to the six bits it was chosen for (R147). -/
theorem expand_val {c : Bits} (h : c.length = 6) : expand (val c) = c := by
  rw [expand, ← h, bin_val]

/-- UNCHUNK undoes SYMBOLS (R149). -/
theorem unchunk_symbols (b : Bits) (h : b.length % 6 = 0) : unchunk (symbols b) = .ok b := by
  induction b using chunk.induct with
  | case1 x₀ x₁ x₂ x₃ x₄ x₅ rest ih =>
    have hrest : unchunk (symbols rest) = .ok rest := ih (by simp only [List.length_cons] at h; omega)
    have hval : val [x₀, x₁, x₂, x₃, x₄, x₅] < 64 := val_lt _
    have hcons := unchunk_cons_symenc hval hrest
    rwa [expand_val rfl] at hcons
  | case2 b hshort =>
    match b, h, hshort with
    | [], _, _ => rfl
    | x₀ :: x₁ :: x₂ :: x₃ :: x₄ :: x₅ :: rest, _, hshort => exact absurd rfl (hshort x₀ x₁ x₂ x₃ x₄ x₅ rest)

/-! ## The header, written and read back -/

/-- READ of a field: `a` before the cursor, `b` the field. -/
theorem read_field (a b x : Bits) : read (a ++ (b ++ x)) a.length b.length = .ok (val b, a.length + b.length) := by
  rw [read_ok (by simp only [List.length_append]; omega), List.drop_left, List.take_left]

/-- HPARSE of a flag, a length field of the flag's width and the code of a width (43_bit_unpacker.md R164). -/
theorem hparse_fields {f : Bool} {l c : Bits} {w : Width} (x : Bits) (hl : l.length = lenw f) (hc : c.length = 2)
    (hw : wdec (wcOfNat (val c)) = .ok w) : hparse (f :: (l ++ (c ++ x))) = .ok (val l, w, 1 + lenw f + 2) := by
  have hflag : read (f :: (l ++ (c ++ x))) 0 1 = .ok (val [f], 1) := read_field [] [f] _
  have hbit : decide (val [f] = 1) = f := by cases f <;> rfl
  have hlen : read (f :: (l ++ (c ++ x))) 1 (lenw f) = .ok (val l, 1 + lenw f) := by
    simpa [hl] using read_field [f] l (c ++ x)
  have hcode : read (f :: (l ++ (c ++ x))) (1 + lenw f) 2 = .ok (val c, 1 + lenw f + 2) := by
    simpa [hl, hc, Nat.add_comm] using read_field (f :: l) c x
  simp only [hparse, hflag, hbit, hlen, hcode, hw]

theorem val_wcode (w : Width) : val (wcode w) = wcNat (wcOfWidth w) := by cases w <;> rfl

/-- WDEC undoes WCODE, through the two bits. -/
theorem wdec_wcode (w : Width) : wdec (wcOfNat (val (wcode w))) = .ok w := by
  rw [val_wcode, wcOfNat_wcNat, wdec_wcOfWidth]

/-- The length field of the form LFLAG selects holds every count up to 1023 (40_width_select_header.md R105, R106). -/
theorem lt_two_pow_lenw {n : Nat} (h : n ≤ 1023) : n < 2 ^ lenw (lflag n) := by
  rw [lflag_eq]
  by_cases hs : 64 ≤ n
  · rw [decide_eq_true hs, lenw_true]; omega
  · rw [decide_eq_false hs, lenw_false]; omega

theorem hlen_eq_lenw (n : Nat) : 1 + lenw (lflag n) + 2 = hlen n := by
  rw [← hdr_length n .w4, hdr, List.length_cons, List.length_append, bin_length, wcode_length]
  omega

/-- HPARSE undoes HDR, whatever bits follow (43_bit_unpacker.md R165). -/
theorem hparse_hdr {n : Nat} (w : Width) (x : Bits) (h : n ≤ 1023) : hparse (hdr n w ++ x) = .ok (n, w, hlen n) := by
  have hfields : hdr n w ++ x = lflag n :: (bin (lenw (lflag n)) n ++ (wcode w ++ x)) := by simp [hdr]
  rw [hfields, hparse_fields x (bin_length _ _) (wcode_length w) (wdec_wcode w), val_bin_of_lt (lt_two_pow_lenw h),
    hlen_eq_lenw]

/-! ## The packed sequence -/

theorem pack_length_mod_six (seq : List Nat) (w : Width) : (pack seq w).length % 6 = 0 := by
  rw [pack, pad, List.length_append, zeros_length]
  exact padLen_spec _

/-- The header of a packed sequence tells its number of elements and the width (41_bit_packer.md R128). -/
theorem hparse_pack {seq : List Nat} (w : Width) (h : seq.length ≤ 1023) :
    hparse (pack seq w) = .ok (seq.length, w, hlen seq.length) := by
  rw [pack, pad, List.append_assoc]
  exact hparse_hdr w _ h

/-! ## ENCODE -/

theorem rangechk_of_valid {seq : List Int} (h : ∀ v ∈ seq, 1 ≤ v ∧ v ≤ 300) : rangechk seq = .ok () := by
  rw [rangechk, if_pos (List.all_eq_true.2 fun v hv => (validElem_iff v).2 (h v hv))]

theorem rangechk_of_invalid {seq : List Int} (h : ¬ ∀ v ∈ seq, 1 ≤ v ∧ v ≤ 300) : rangechk seq = .err .rangeError 0 := by
  rw [rangechk, if_neg fun hall => h fun v hv => (validElem_iff v).1 (List.all_eq_true.1 hall v hv)]

/-- ENCODE answers symbols exactly for at most 1023 elements in 1..300, and they are those of the packed sequence at its one
width (44_commands.md R180). -/
theorem encodeFn_eq_ok_iff (seq : List Int) (t : List CodeUnit) :
    encodeFn seq = .ok t ↔ (∀ v ∈ seq, 1 ≤ v ∧ v ≤ 300) ∧ seq.length ≤ 1023 ∧
      t = symbols (pack (seq.map Int.toNat) (seqWidth (seq.map Int.toNat))) := by
  by_cases hv : ∀ v ∈ seq, 1 ≤ v ∧ v ≤ 300
  · by_cases hn : Config.cntMax < seq.length
    · have hlong : ¬ seq.length ≤ 1023 := Nat.not_le.2 hn
      simp [encodeFn, rangechk_of_valid hv, hn, hlong]
    · have henc : encodeFn seq = .ok (symbols (pack (seq.map Int.toNat) (seqWidth (seq.map Int.toNat)))) := by
        simp [encodeFn, rangechk_of_valid hv, hn]
      rw [henc]
      exact ⟨fun h => ⟨hv, Nat.not_lt.1 hn, (Result.ok.inj h).symm⟩, fun ⟨_, _, ht⟩ => congrArg Result.ok ht.symm⟩
  · simp [encodeFn, rangechk_of_invalid hv, hv]

/-! ## The width of a sequence -/

theorem le_seqMax {seq : List Nat} {v : Nat} (h : v ∈ seq) : v ≤ seqMax seq := by
  induction h with
  | head rest => exact le_max_left _ _
  | tail u _ ih => exact ih.trans (le_max_right _ _)

theorem seqMax_le {seq : List Nat} {m : Nat} (h : ∀ v ∈ seq, v ≤ m) : seqMax seq ≤ m := by
  induction seq with
  | nil => exact Nat.zero_le m
  | cons v rest ih => exact max_le (h v (by simp)) (ih fun u hu => h u (by simp [hu]))

/-- The empty sequence's width is that of a maximum of 0 (40_width_select_header.md R102). -/
theorem seqWidth_eq_wsel (seq : List Nat) : seqWidth seq = wsel (seqMax seq) := by cases seq <;> rfl

theorem wsel_of_lt_ten {m : Nat} (h : m < 10) : wsel m = .w4 := by rw [wsel_eq, if_pos h]

theorem wsel_of_lt_hundred {m : Nat} (h : 10 ≤ m) (h' : m < 100) : wsel m = .w7 := by
  rw [wsel_eq, if_neg (Nat.not_lt.2 h), if_pos h']

theorem wsel_of_hundred_le {m : Nat} (h : 100 ≤ m) : wsel m = .w9 := by
  rw [wsel_eq, if_neg (by omega), if_neg (by omega)]

/-- A bound below on an element bounds the maximum below; ENCODE's elements are integers. -/
theorem le_seqMax_toNat {seq : List Int} {k : Nat} (h : ∃ v ∈ seq, (k : Int) ≤ v) : k ≤ seqMax (seq.map Int.toNat) := by
  obtain ⟨v, hmem, hk⟩ := h
  have hle : v.toNat ≤ seqMax (seq.map Int.toNat) := le_seqMax (List.mem_map_of_mem hmem)
  omega

theorem seqMax_toNat_le {seq : List Int} {k : Nat} (h : ∀ v ∈ seq, v ≤ (k : Int)) :
    seqMax (seq.map Int.toNat) ≤ k := by
  refine seqMax_le fun u hu => ?_
  obtain ⟨v, hmem, rfl⟩ := List.mem_map.1 hu
  exact Int.toNat_le.2 (h v hmem)

/-- Settles O12: SYMBOLS is undone by UNCHUNK, HDR by HPARSE, and the width they bring back is WSEL of the maximum. -/
theorem widthFollowsMaximum : Obligations.WidthFollowsMaximum := by
  intro seq t henc
  obtain ⟨-, hlen, rfl⟩ := (encodeFn_eq_ok_iff seq t).1 henc
  refine ⟨_, seqWidth (seq.map Int.toNat), unchunk_symbols _ (pack_length_mod_six _ _), ?_, ?_⟩
  · simpa using hparse_pack (seq := seq.map Int.toNat) (seqWidth (seq.map Int.toNat)) (by simpa using hlen)
  rw [seqWidth_eq_wsel]
  refine ⟨fun hbig => ?_, fun hmid hsmall => ?_, fun hsmall => ?_⟩
  · exact wsel_of_hundred_le (le_seqMax_toNat hbig)
  · exact wsel_of_lt_hundred (le_seqMax_toNat hmid) (Nat.lt_succ_of_le (seqMax_toNat_le hsmall))
  · exact wsel_of_lt_ten (Nat.lt_succ_of_le (seqMax_toNat_le hsmall))

end Sys2Proof.Machine
end

section
/-! The header formatter's units as operations: each row drives its rule's result (40_width_select_header.md). -/

namespace Sys2Proof.Machine

theorem drive_eq (r : Result UnitValue) (s : State) : drive r s = { s with unitOut := some r } := rfl

theorem exec_wsel (m : Nat) (s : State) : exec (.wsel m) s = .next (drive (.ok (.width (wsel m))) s) := rfl

theorem exec_wcode (w : Width) (s : State) : exec (.wcode w) s = .next (drive (.ok (.bits (wcode w))) s) := rfl

theorem exec_lflag (n : BitVec 10) (s : State) : exec (.lflag n) s = .next (drive (.ok (.bit (lflag n.toNat))) s) := rfl

theorem exec_lenw (f : Bool) (s : State) : exec (.lenw f) s = .next (drive (.ok (.num (lenw f))) s) := rfl

theorem exec_hdr (n : BitVec 10) (w : Width) (s : State) :
    exec (.hdr n w) s = .next (drive (.ok (.bits (hdr n.toNat w))) s) := rfl

theorem wcode_w4 : wcode .w4 = [false, false] := rfl
theorem wcode_w7 : wcode .w7 = [false, true] := rfl
theorem wcode_w9 : wcode .w9 = [true, false] := rfl

/-- HDR in its two forms, 64 elements the first of the long one (R108). -/
theorem hdr_eq (n : Nat) (w : Width) :
    hdr n w = if n < 64 then false :: (bin 6 n ++ wcode w) else true :: (bin 10 n ++ wcode w) := by
  by_cases h : n < 64
  · rw [if_pos h, hdr_short h]
  · rw [if_neg h, hdr_long (Nat.not_lt.1 h)]

/-- Settles O15: each row's meaning is to drive its function's value, and the functions are as their rules say. -/
theorem headerUnitsResult : Obligations.HeaderUnitsResult := by
  refine ⟨fun m s => ?wsel, fun s => ⟨?w4, ?w7, ?w9⟩, fun n s => ?lflag, fun s => ⟨?short, ?long⟩, fun n w s => ?hdr⟩
  case wsel => rw [exec_wsel, wsel_eq, drive_eq]
  case w4 => rw [exec_wcode, wcode_w4, drive_eq]
  case w7 => rw [exec_wcode, wcode_w7, drive_eq]
  case w9 => rw [exec_wcode, wcode_w9, drive_eq]
  case lflag => rw [exec_lflag, lflag_eq, drive_eq]
  case short => rw [exec_lenw, lenw_false, drive_eq]
  case long => rw [exec_lenw, lenw_true, drive_eq]
  case hdr => rw [exec_hdr, hdr_eq, drive_eq]

end Sys2Proof.Machine
end

section
/-! The bit packer's units as operations: where every element fits, EMIT and PACK drive the strings of 41_bit_packer.md. -/

namespace Sys2Proof.Machine

theorem exec_emit_of_fits {seq : List Nat} {w : Width} (s : State) (h : ∀ v ∈ seq, v < 2 ^ widthBits w) :
    exec (.emit seq w) s = .next (drive (.ok (.bits (emit seq w))) s) := by
  rw [← emitField_fits h]; rfl

theorem exec_pack_of_fits {seq : List Nat} {w : Width} (s : State) (h : ∀ v ∈ seq, v < 2 ^ widthBits w)
    (hn : seq.length ≤ 1023) : exec (.pack seq w) s = .next (drive (.ok (.bits (pack seq w))) s) := by
  rw [pack, ← headerField_le hn, ← emitField_fits h]; rfl

/-- Each field of EMIT starts where the one before it ends, nothing between them (R123). -/
theorem emit_drop_take {seq : List Nat} {w : Width} {i v : Nat} (h : seq[i]? = some v) :
    ((emit seq w).drop (i * widthBits w)).take (widthBits w) = bin (widthBits w) v := by
  induction seq generalizing i with
  | nil => cases h
  | cons u rest ih =>
    cases i with
    | zero =>
      obtain rfl : u = v := by simpa using h
      rw [Nat.zero_mul, List.drop_zero, emit, List.take_left' (bin_length _ _)]
    | succ j =>
      have hskip : (j + 1) * widthBits w = (bin (widthBits w) u).length + j * widthBits w := by
        rw [bin_length]; ring
      rw [emit, hskip, List.drop_length_add_append]
      exact ih (by simpa using h)

/-- PACK is the header, the fields, and the padding that the length of the two asks for (R128). -/
theorem pack_eq (seq : List Nat) (w : Width) :
    pack seq w = hdr seq.length w ++ emit seq w ++ zeros (padLen (hlen seq.length + (emit seq w).length)) := by
  rw [pack, pad, List.length_append, hdr_length]

/-- Settles O17: the string is `emit`, its fields found by induction on the sequence, and PACK's padding is `padLen`. -/
theorem emitAndPackResult : Obligations.EmitAndPackResult := by
  intro seq w s hfits
  refine ⟨emit seq w, ?emit, emit_length seq w, fun i v => emit_drop_take, fun hn => ?pack⟩
  case emit => rw [exec_emit_of_fits s hfits, drive_eq]
  case pack =>
    refine ⟨padLen (hlen seq.length + (emit seq w).length), padLen_le _, padLen_spec _, ?_⟩
    rw [exec_pack_of_fits s hfits hn, pack_eq, drive_eq]

end Sys2Proof.Machine
end

section
/-! The symbol codec's units as operations (42_symbol_codec.md): what the chunks of a string are, what SYMDEC answers in and
outside the alphabet, and where UNCHUNK fails. -/

namespace Sys2Proof.Machine

/-! ## CHUNK and SYMBOLS -/

theorem length_of_mem_chunk {b c : Bits} (hc : c ∈ chunk b) : c.length = 6 := by
  induction b using chunk.induct with
  | case1 x₀ x₁ x₂ x₃ x₄ x₅ rest ih =>
    rw [chunk, List.mem_cons] at hc
    obtain rfl | hrest := hc
    · rfl
    · exact ih hrest
  | case2 b hshort =>
    rw [chunk.eq_2 b hshort] at hc
    cases hc

/-- The chunks are consecutive and leave no bit out (R140). -/
theorem flatten_chunk {b : Bits} (h : b.length % 6 = 0) : (chunk b).flatten = b := by
  induction b using chunk.induct with
  | case1 x₀ x₁ x₂ x₃ x₄ x₅ rest ih =>
    have hrest : (chunk rest).flatten = rest := ih (by simp only [List.length_cons] at h; omega)
    rw [chunk, List.flatten_cons, hrest]
    rfl
  | case2 b hshort =>
    match b, h, hshort with
    | [], _, _ => rfl
    | x₀ :: x₁ :: x₂ :: x₃ :: x₄ :: x₅ :: rest, _, hshort => exact absurd rfl (hshort x₀ x₁ x₂ x₃ x₄ x₅ rest)

/-- The number of chunks follows from their common length and their concatenation. -/
theorem length_chunk {b : Bits} (h : b.length % 6 = 0) : (chunk b).length = b.length / 6 := by
  have hsix : ∀ n ∈ (chunk b).map List.length, n = 6 := by
    intro n hn
    obtain ⟨c, hc, rfl⟩ := List.mem_map.1 hn
    exact length_of_mem_chunk hc
  have htotal : b.length = (chunk b).length * 6 := by
    calc b.length = (chunk b).flatten.length := by rw [flatten_chunk h]
      _ = ((chunk b).map List.length).sum := List.length_flatten
      _ = (chunk b).length * 6 := by rw [List.sum_eq_card_nsmul _ 6 hsix, List.length_map, smul_eq_mul]
  omega

theorem exec_chunk_of_whole {b : Bits} (s : State) (h : b.length % 6 = 0) :
    exec (.chunk b) s = .next (drive (.ok (.chunks (chunk b))) s) := by
  have hexec : exec (.chunk b) s = execChunk b s := rfl
  rw [hexec, execChunk, if_pos h]

theorem exec_symbols_of_whole {b : Bits} (s : State) (h : b.length % 6 = 0) :
    exec (.symbols b) s = .next (drive (.ok (.units (symbols b))) s) := by
  have hexec : exec (.symbols b) s = execSymbols b s := rfl
  rw [hexec, execSymbols, if_pos h]

/-- Settles O18: the chunks are those of `chunk`, and `symbols` is its image under SYMENC. -/
theorem chunkAndSymbolsResult : Obligations.ChunkAndSymbolsResult := by
  intro b s h
  refine ⟨chunk b, ?chunk, flatten_chunk h, fun c hc => length_of_mem_chunk hc, length_chunk h, ?symbols⟩
  case chunk => rw [exec_chunk_of_whole s h, drive_eq]
  case symbols => rw [exec_symbols_of_whole s h, symbols, drive_eq]

/-! ## SYMENC and SYMDEC -/

theorem alphabet_length : alphabet.length = 64 := rfl

/-- SYMENC of an index is the entry of the alphabet there (R142). -/
theorem alphabet_getElem?_eq_symenc {i : Nat} (h : i < 64) : alphabet[i]? = some (symenc i) := by
  rw [symenc, List.getElem?_eq_getElem (alphabet_length ▸ h), List.getD_eq_getElem]

/-- SYMDEC finds a code unit of the alphabet at its one index (R145). -/
theorem symdec_of_getElem? {i : Nat} {c : CodeUnit} (h : alphabet[i]? = some c) : symdec c = some i := by
  have hi : i < 64 := (List.getElem?_eq_some_iff.1 h).1
  obtain rfl : symenc i = c := Option.some.inj ((alphabet_getElem?_eq_symenc hi).symm.trans h)
  exact symdec_symenc hi

theorem symdec_of_not_mem {c : CodeUnit} (h : c ∉ alphabet) : symdec c = none := by
  refine List.findIdx?_eq_none_iff.2 fun a ha => beq_false_of_ne ?_
  rintro rfl
  exact h ha

theorem symdecResult_of_some {c : CodeUnit} {i : Nat} (h : symdec c = some i) : symdecResult c = .ok i := by
  rw [symdecResult, h]

theorem symdecResult_of_none {c : CodeUnit} (h : symdec c = none) : symdecResult c = .err .invalidCharacter c := by
  rw [symdecResult, h]

/-! ## UNCHUNK -/

/-- UNCHUNK of symbols of the alphabet is their bits in order (R148). -/
theorem unchunk_map_symenc {is : List Nat} (h : ∀ i ∈ is, i < 64) :
    unchunk (is.map symenc) = .ok (is.map (bin 6)).flatten := by
  induction is with
  | nil => rfl
  | cons i rest ih =>
    obtain ⟨hi, hrest⟩ := List.forall_mem_cons.1 h
    rw [List.map_cons, unchunk_cons_symenc hi (ih hrest), expand, List.map_cons, List.flatten_cons]

theorem unchunk_cons_of_not_mem {c : CodeUnit} (rest : List CodeUnit) (h : c ∉ alphabet) :
    unchunk (c :: rest) = .err .invalidCharacter c := by
  simp only [unchunk, symdec_of_not_mem h]

theorem unchunk_cons_symenc_of_err {i : Nat} {t : List CodeUnit} {k : ErrKind} {info : CodeUnit} (hi : i < 64)
    (h : unchunk t = .err k info) : unchunk (symenc i :: t) = .err k info := by
  simp only [unchunk, symdec_symenc hi, h]

/-- Symbols of the alphabet in front of a failure do not change it (R148). -/
theorem unchunk_map_symenc_append_of_err {is : List Nat} {t : List CodeUnit} {k : ErrKind} {info : CodeUnit}
    (his : ∀ i ∈ is, i < 64) (h : unchunk t = .err k info) : unchunk (is.map symenc ++ t) = .err k info := by
  induction is with
  | nil => exact h
  | cons i rest ih =>
    obtain ⟨hi, hrest⟩ := List.forall_mem_cons.1 his
    exact unchunk_cons_symenc_of_err hi (ih hrest)

/-! ## The rows -/

theorem exec_symenc (i : BitVec 6) (s : State) :
    exec (.symenc i) s = .next (drive (.ok (.unit (symenc i.toNat))) s) := rfl

theorem exec_symdec (c : CodeUnit) (s : State) :
    exec (.symdec c) s = .next (drive (asUnit .num (symdecResult c)) s) := rfl

theorem exec_expand (i : BitVec 6) (s : State) :
    exec (.expand i) s = .next (drive (.ok (.bits (expand i.toNat))) s) := rfl

theorem exec_unchunk (t : List CodeUnit) (s : State) :
    exec (.unchunk t) s = .next (drive (asUnit .bits (unchunk t)) s) := rfl

theorem asUnit_ok {α : Type} (f : α → UnitValue) (v : α) : asUnit f (.ok v) = .ok (f v) := rfl

theorem asUnit_err {α : Type} (f : α → UnitValue) (k : ErrKind) (info : CodeUnit) :
    asUnit f (.err k info) = .err k info := rfl

/-- Settles O19: each row drives its function's result, and UNCHUNK's failure is found by induction on the symbols before
it. -/
theorem symbolUnitsResult : Obligations.SymbolUnitsResult := by
  refine ⟨fun i s => ⟨symenc i.toNat, alphabet_getElem?_eq_symenc i.isLt, ?symenc⟩, fun i c s h => ?found,
    fun c s h => ?notFound, fun i s => ?expand, fun is s h => ?unchunked, fun is c rest s his hc => ?failed⟩
  case symenc => rw [exec_symenc, drive_eq]
  case found => rw [exec_symdec, symdecResult_of_some (symdec_of_getElem? h), asUnit_ok, drive_eq]
  case notFound => rw [exec_symdec, symdecResult_of_none (symdec_of_not_mem h), asUnit_err, drive_eq]
  case expand => rw [exec_expand, expand, drive_eq]
  case unchunked => rw [exec_unchunk, unchunk_map_symenc h, asUnit_ok, drive_eq]
  case failed =>
    have herr := unchunk_map_symenc_append_of_err his (unchunk_cons_of_not_mem rest hc)
    rw [exec_unchunk, herr, asUnit_err, drive_eq]

end Sys2Proof.Machine
end

section
/-! The bit unpacker's units as operations (43_bit_unpacker.md): where HPARSE and ELEMS fail, what ELEMS reads back, and that
each row drives its function's result. -/

namespace Sys2Proof.Machine

/-! ## HPARSE -/

/-- The length-flag is read as the number of its bit (R164). -/
theorem read_flag (f : Bool) (x : Bits) : read (f :: x) 0 1 = .ok (f.toNat, 1) := by
  have hval : val [f] = f.toNat := by cases f <;> rfl
  rw [← hval]
  exact read_field [] [f] x

theorem decide_toNat_eq_one (f : Bool) : decide (f.toNat = 1) = f := by cases f <;> rfl

/-- HPARSE fails where the read of the count does. -/
theorem hparse_err_of_count {f : Bool} {x : Bits} {k : ErrKind} {i : CodeUnit}
    (hcount : read (f :: x) 1 (lenw f) = .err k i) : hparse (f :: x) = .err k i := by
  simp only [hparse, read_flag, decide_toNat_eq_one, hcount]

/-- HPARSE fails where the read of the width-code does. -/
theorem hparse_err_of_code {f : Bool} {x : Bits} {n p : Nat} {k : ErrKind} {i : CodeUnit}
    (hcount : read (f :: x) 1 (lenw f) = .ok (n, p)) (hcode : read (f :: x) p 2 = .err k i) :
    hparse (f :: x) = .err k i := by
  simp only [hparse, read_flag, decide_toNat_eq_one, hcount, hcode]

/-- HPARSE fails where WDEC does, once the code is read. -/
theorem hparse_err_of_wdec {f : Bool} {x : Bits} {n p c q : Nat} {k : ErrKind} {i : CodeUnit}
    (hcount : read (f :: x) 1 (lenw f) = .ok (n, p)) (hcode : read (f :: x) p 2 = .ok (c, q))
    (hwidth : wdec (wcOfNat c) = .err k i) : hparse (f :: x) = .err k i := by
  simp only [hparse, read_flag, decide_toNat_eq_one, hcount, hcode, hwidth]

theorem hparse_nil : hparse [] = .err .truncatedInput 0 := rfl

/-- Bits that end inside the header fail at the count or at the code, before the code is known (R164). -/
theorem hparse_cons_truncated {f : Bool} {x : Bits} (h : (f :: x).length < 1 + lenw f + 2) :
    hparse (f :: x) = .err .truncatedInput 0 := by
  by_cases hcount : (f :: x).length < 1 + lenw f
  · exact hparse_err_of_count (read_truncated hcount)
  · exact hparse_err_of_code (read_ok (Nat.not_lt.1 hcount)) (read_truncated h)

/-- The reserved code fails whatever the count and whatever follows (R162). -/
theorem hparse_reserved {f : Bool} {l : Bits} (x : Bits) (hl : l.length = lenw f) :
    hparse (f :: (l ++ true :: true :: x)) = .err .invalidWidthCode 0 := by
  have hcount : read (f :: (l ++ true :: true :: x)) 1 (lenw f) = .ok (val l, 1 + lenw f) := by
    rw [← hl]
    exact read_field [f] l (true :: true :: x)
  have hcode : read (f :: (l ++ true :: true :: x)) (1 + lenw f) 2 = .ok (3, 1 + lenw f + 2) := by
    have hcursor : 1 + lenw f = (f :: l).length := by rw [List.length_cons, hl, Nat.add_comm]
    rw [hcursor]
    exact read_field (f :: l) [true, true] x
  exact hparse_err_of_wdec hcount hcode rfl

/-- HPARSE of a count in the length field the flag selects, with the code of a width (R164). -/
theorem hparse_count {f : Bool} {n : Nat} {c : WidthCode} {w : Width} (x : Bits) (hn : n < 2 ^ lenw f)
    (hc : wdec c = .ok w) : hparse (f :: (bin (lenw f) n ++ bin 2 (wcNat c) ++ x)) = .ok (n, w, 1 + lenw f + 2) := by
  have hwidth : wdec (wcOfNat (val (bin 2 (wcNat c)))) = .ok w := by rw [wcOfNat_val, hc]
  rw [List.append_assoc, hparse_fields x (bin_length _ _) (bin_length _ _) hwidth, val_bin_of_lt hn]

theorem exec_hparse (b : Bits) (s : State) :
    exec (.hparse b) s = .next (drive (asUnit (fun r => .header r.1 r.2.1 r.2.2) (hparse b)) s) := rfl

/-- Settles O21: the whole header is `hparse_count`, the reserved code `hparse_reserved`, and the bits that end inside a header
are none at all or a flag with fewer bits than its form needs. -/
theorem hparseResult : Obligations.HparseResult := by
  refine ⟨fun n c w x s hn hc => ?short, fun n c w x s hn hc => ?long, fun l f x s hl => ?reserved, fun b s h => ?truncated⟩
  case short =>
    have hhdr : hparse (false :: (bin 6 n ++ bin 2 (wcNat c) ++ x)) = .ok (n, w, 9) := hparse_count x hn hc
    rw [exec_hparse, hhdr, asUnit_ok, drive_eq]
  case long =>
    have hhdr : hparse (true :: (bin 10 n ++ bin 2 (wcNat c) ++ x)) = .ok (n, w, 13) := hparse_count x hn hc
    rw [exec_hparse, hhdr, asUnit_ok, drive_eq]
  case reserved => rw [exec_hparse, hparse_reserved x hl, asUnit_err, drive_eq]
  case truncated =>
    have herr : hparse b = .err .truncatedInput 0 := by
      match b, h with
      | [], _ => exact hparse_nil
      | false :: x, h => exact hparse_cons_truncated (h.resolve_right fun ⟨hflag, _⟩ => nomatch hflag)
      | true :: x, h => exact hparse_cons_truncated (h.elim (fun h9 => h9.trans (by decide)) And.right)
    rw [exec_hparse, herr, asUnit_err, drive_eq]

/-! ## ELEMS -/

theorem elems_succ_of_ok {b : Bits} {p p' n v : Nat} {w : Width} {vs : List Nat}
    (hv : read b p (widthBits w) = .ok (v, p')) (hvs : elems b p' n w = .ok vs) : elems b p (n + 1) w = .ok (v :: vs) := by
  simp only [elems, hv, hvs]

theorem elems_succ_of_read_err {b : Bits} {p : Nat} (n : Nat) {w : Width} {k : ErrKind} {i : CodeUnit}
    (hv : read b p (widthBits w) = .err k i) : elems b p (n + 1) w = .err k i := by
  simp only [elems, hv]

theorem elems_succ_of_err {b : Bits} {p p' n v : Nat} {w : Width} {k : ErrKind} {i : CodeUnit}
    (hv : read b p (widthBits w) = .ok (v, p')) (hvs : elems b p' n w = .err k i) : elems b p (n + 1) w = .err k i := by
  simp only [elems, hv, hvs]

/-- ELEMS reads back what EMIT wrote, between any other bits (R166, R167). -/
theorem elems_emit {vs : List Nat} {w : Width} (x z : Bits) (h : ∀ v ∈ vs, v < 2 ^ widthBits w) :
    elems (x ++ emit vs w ++ z) x.length vs.length w = .ok vs := by
  induction vs generalizing x with
  | nil => rfl
  | cons v rest ih =>
    obtain ⟨hv, hrest⟩ := List.forall_mem_cons.1 h
    have hbits : x ++ emit (v :: rest) w ++ z = x ++ (bin (widthBits w) v ++ (emit rest w ++ z)) := by simp [emit]
    have hread := read_field x (bin (widthBits w) v) (emit rest w ++ z)
    have htail := ih (x ++ bin (widthBits w) v) hrest
    rw [bin_length, val_bin_of_lt hv] at hread
    rw [List.length_append, bin_length, List.append_assoc, List.append_assoc] at htail
    rw [hbits]
    exact elems_succ_of_ok hread htail

/-- ELEMS fails at the first element that passes the end (R166). -/
theorem elems_truncated {b : Bits} {p n : Nat} {w : Width} (hp : p ≤ b.length) (h : b.length < p + n * widthBits w) :
    elems b p n w = .err .truncatedInput 0 := by
  induction n generalizing p with
  | zero => omega
  | succ n ih =>
    rw [Nat.succ_mul] at h
    by_cases hread : b.length < p + widthBits w
    · exact elems_succ_of_read_err n (read_truncated hread)
    · exact elems_succ_of_err (read_ok (Nat.not_lt.1 hread)) (ih (Nat.not_lt.1 hread) (by omega))

theorem exec_elems (b : Bits) (p n : Nat) (w : Width) (s : State) :
    exec (.elems b p n w) s = .next (drive (asUnit .values (elems b p n w)) s) := rfl

/-! ## UNPACK -/

theorem unpack_of_header {b : Bits} {n p : Nat} {w : Width} (h : hparse b = .ok (n, w, p)) :
    unpack b = elems b p n w := by
  simp only [unpack, h]

theorem unpack_of_header_err {b : Bits} {k : ErrKind} {i : CodeUnit} (h : hparse b = .err k i) : unpack b = .err k i := by
  simp only [unpack, h]

theorem exec_unpack (b : Bits) (s : State) : exec (.unpack b) s = .next (drive (asUnit .values (unpack b)) s) := rfl

/-- Settles O22: ELEMS undoes EMIT by induction on the elements, it fails by induction on their number, and UNPACK is HPARSE
and then ELEMS. -/
theorem elemsAndUnpackResult : Obligations.ElemsAndUnpackResult := by
  refine ⟨fun x z vs w s hfits => ?values, fun b p n w s hp h => ?truncated, fun b n p w vs s hhdr helems => ?unpacked,
    fun b n p w k i s hhdr helems => ?elemsFailed, fun b k i s hhdr => ?headerFailed⟩
  case values => rw [exec_elems, elems_emit x z hfits, asUnit_ok, drive_eq]
  case truncated => rw [exec_elems, elems_truncated hp h, asUnit_err, drive_eq]
  case unpacked => rw [exec_unpack, unpack_of_header hhdr, helems, asUnit_ok, drive_eq]
  case elemsFailed => rw [exec_unpack, unpack_of_header hhdr, helems, asUnit_err, drive_eq]
  case headerFailed => rw [exec_unpack, unpack_of_header_err hhdr, asUnit_err, drive_eq]

/-! ## READ and WDEC -/

theorem exec_read (b : Bits) (p k : Nat) (s : State) :
    exec (.read b p k) s = .next (drive (asUnit (fun r => .readAt r.1 r.2) (read b p k)) s) := rfl

theorem exec_wdec (c : WidthCode) (s : State) : exec (.wdec c) s = .next (drive (asUnit .width (wdec c)) s) := rfl

theorem wdec_wc00 : wdec .wc00 = .ok .w4 := rfl
theorem wdec_wc01 : wdec .wc01 = .ok .w7 := rfl
theorem wdec_wc10 : wdec .wc10 = .ok .w9 := rfl
theorem wdec_wc11 : wdec .wc11 = .err .invalidWidthCode 0 := rfl

/-- Settles O20: READ of a field is the field's value, a READ past the end fails, and WDEC is its table. -/
theorem readAndWdecResult : Obligations.ReadAndWdecResult := by
  refine ⟨fun x y z s => ?field, fun b p k s h => ?truncated, fun s => ⟨?wc00, ?wc01, ?wc10, ?wc11⟩⟩
  case field => rw [exec_read, List.append_assoc, read_field, asUnit_ok, drive_eq]
  case truncated => rw [exec_read, read_truncated h, asUnit_err, drive_eq]
  case wc00 => rw [exec_wdec, wdec_wc00, asUnit_ok, drive_eq]
  case wc01 => rw [exec_wdec, wdec_wc01, asUnit_ok, drive_eq]
  case wc10 => rw [exec_wdec, wdec_wc10, asUnit_ok, drive_eq]
  case wc11 => rw [exec_wdec, wdec_wc11, asUnit_err, drive_eq]

end Sys2Proof.Machine
end

section
/-! The beats as operations (44_commands.md R185 to R194): what an input beat does in the load phases, and the end
beat that REPORT sends. -/

namespace Sys2Proof.Machine

/-! ## An input beat, by phase -/

theorem exec_inBeat (op fin : Bool) (d : CodeUnit) (s : State) :
    exec (.inBeat op fin d) s = inputBeat { op := op, fin := fin, data := d } s := rfl

/-- In IDLE the beat starts the transaction and is the first beat of its load phase (R183). -/
theorem inputBeat_idle {b : InBeat} {s : State} (h : s.ph = .idle) :
    inputBeat b s = loadBeat b (startTransaction b.op (logIn b s)) := by
  simp only [inputBeat, h]

theorem inputBeat_load {b : InBeat} {s : State} (h : s.ph = .encLoad ∨ s.ph = .decLoad) :
    inputBeat b s = loadBeat b (logIn b s) := by
  rcases h with h | h <;> simp only [inputBeat, h]

/-- In the other phases `in_ready` is 0 and the beat waits (R34, R251). -/
theorem inputBeat_waits {b : InBeat} {s : State} (h : s.ph = .encEmit ∨ s.ph = .decEmit ∨ s.ph = .report) :
    inputBeat b s = .next s := by
  rcases h with h | h | h <;> simp only [inputBeat, h]

theorem loadBeat_encLoad {b : InBeat} {s : State} (h : s.ph = .encLoad) :
    loadBeat b s = .next (if b.fin then encLoadEnd s else encLoadData b.data s) := by
  simp only [loadBeat, h]

theorem loadBeat_decLoad {b : InBeat} {s : State} (h : s.ph = .decLoad) :
    loadBeat b s = if b.fin then .next (decLoadEnd s) else decLoadData b.data s := by
  simp only [loadBeat, h]

theorem exec_inBeat_encLoad_data {s : State} (op : Bool) (v : CodeUnit) (h : s.ph = .encLoad) :
    exec (.inBeat op false v) s = .next (encLoadData v (logIn ⟨op, false, v⟩ s)) := by
  rw [exec_inBeat, inputBeat_load (.inl h), loadBeat_encLoad (s := logIn _ s) h, if_neg Bool.false_ne_true]

theorem exec_inBeat_encLoad_end {s : State} (op : Bool) (d : CodeUnit) (h : s.ph = .encLoad) :
    exec (.inBeat op true d) s = .next (encLoadEnd (logIn ⟨op, true, d⟩ s)) := by
  rw [exec_inBeat, inputBeat_load (.inl h), loadBeat_encLoad (s := logIn _ s) h, if_pos rfl]

theorem exec_inBeat_decLoad_data {s : State} (op : Bool) (c : CodeUnit) (h : s.ph = .decLoad) :
    exec (.inBeat op false c) s = decLoadData c (logIn ⟨op, false, c⟩ s) := by
  rw [exec_inBeat, inputBeat_load (.inr h), loadBeat_decLoad (s := logIn _ s) h, if_neg Bool.false_ne_true]

theorem exec_inBeat_decLoad_end {s : State} (op : Bool) (d : CodeUnit) (h : s.ph = .decLoad) :
    exec (.inBeat op true d) s = .next (decLoadEnd (logIn ⟨op, true, d⟩ s)) := by
  rw [exec_inBeat, inputBeat_load (.inr h), loadBeat_decLoad (s := logIn _ s) h, if_pos rfl]

theorem logIn_eq (b : InBeat) (s : State) : logIn b s = { s with inLog := s.inLog ++ [b] } := rfl

/-! ## ENC_LOAD -/

theorem inRange_eq_false {v : CodeUnit} (h : ¬ (1 ≤ v.toNat ∧ v.toNat ≤ 300)) : inRange v = false :=
  Bool.eq_false_iff.2 fun hr => h ((inRange_iff v).1 hr)

theorem flagRange_of_inRange {v : CodeUnit} {s : State} (h : inRange v = true) : flagRange v s = s := by
  rw [flagRange, if_pos h]

theorem flagRange_of_not_inRange {v : CodeUnit} {s : State} (h : inRange v = false) :
    flagRange v s = { s with rerr := true } := by
  simp only [flagRange, h, Bool.false_eq_true, if_false]

theorem flagOverflow_eq (s : State) : flagOverflow s = { s with ovf := true } := rfl

theorem cnt_toNat_eq_cntMax_iff (s : State) : s.cnt.toNat = Config.cntMax ↔ s.cnt = 1023 :=
  ⟨fun h => BitVec.eq_of_toNat_eq h, fun h => by rw [h]; rfl⟩

/-- With 1023 elements held, an element beat only sets flags (R185). -/
theorem encLoadData_full {s : State} (v : CodeUnit) (h : s.cnt = 1023) :
    encLoadData v s = flagOverflow (flagRange v s) := by
  rw [encLoadData, if_pos ((cnt_toNat_eq_cntMax_iff s).2 h)]

theorem encLoadData_inRange {v : CodeUnit} {s : State} (h : s.cnt ≠ 1023) (hr : inRange v = true) :
    encLoadData v s = { storeElement v s with cnt := s.cnt + 1 } := by
  rw [encLoadData, if_neg (mt (cnt_toNat_eq_cntMax_iff s).1 h), if_pos hr]

theorem encLoadData_outOfRange {v : CodeUnit} {s : State} (h : s.cnt ≠ 1023) (hr : inRange v = false) :
    encLoadData v s = { s with rerr := true, cnt := s.cnt + 1 } := by
  rw [encLoadData, if_neg (mt (cnt_toNat_eq_cntMax_iff s).1 h), if_neg (Bool.eq_false_iff.1 hr),
    flagRange_of_not_inRange hr]

theorem low9_eq_ofNat (v : CodeUnit) : low9 v = BitVec.ofNat 9 v.toNat := rfl

/-- The stored element and the greater maximum, in the element's own terms where it is in range (R185). -/
theorem storeElement_eq {v : CodeUnit} (s : State) (h : v.toNat ≤ 300) :
    storeElement v s = { s with
      ebuf := Memory.write s.ebuf s.cnt.toNat (low9 v), max := if s.max.toNat < v.toNat then low9 v else s.max } := by
  rw [storeElement, low9_toNat h]

/-- Settles O30: the beat is recorded and then one of the three cases of R185, with EBUF read after its one write. -/
theorem encLoadDataBeat : Obligations.EncLoadDataBeat := by
  intro s op v hph
  have hexec := exec_inBeat_encLoad_data op v hph
  refine ⟨fun hcnt hgood => ?full, fun hcnt hbad => ?fullOutOfRange, fun hcnt hgood => ?stored,
    fun hcnt hbad => ?outOfRange⟩
  case full =>
    rw [hexec, encLoadData_full (s := logIn _ s) v hcnt, flagRange_of_inRange ((inRange_iff v).2 hgood),
      flagOverflow_eq, logIn_eq]
  case fullOutOfRange =>
    rw [hexec, encLoadData_full (s := logIn _ s) v hcnt,
      flagRange_of_not_inRange (inRange_eq_false hbad), flagOverflow_eq, logIn_eq]
  case stored =>
    refine ⟨Memory.write s.ebuf s.cnt.toNat (low9 v), ?_, ?_, fun a ha => Memory.read_write_ne _ _ ha⟩
    · rw [hexec, encLoadData_inRange (s := logIn _ s) hcnt ((inRange_iff v).2 hgood),
        storeElement_eq _ hgood.2, logIn_eq]
    · rw [Memory.read_write_same, low9_eq_ofNat]
  case outOfRange =>
    rw [hexec, encLoadData_outOfRange (s := logIn _ s) hcnt (inRange_eq_false hbad), logIn_eq]

theorem encLoadEnd_of_rerr {s : State} (h : s.rerr = true) : encLoadEnd s = takeError .rangeError 0 s := by
  rw [encLoadEnd, if_pos h]

theorem encLoadEnd_of_ovf {s : State} (h : s.rerr = false) (h' : s.ovf = true) :
    encLoadEnd s = takeError .lengthError 0 s := by
  rw [encLoadEnd, if_neg (Bool.eq_false_iff.1 h), if_pos h']

/-- With neither flag the end beat fixes the width and enters ENC_EMIT (R186). -/
theorem encLoadEnd_of_valid {s : State} (h : s.rerr = false) (h' : s.ovf = false) :
    encLoadEnd s = { s with
      wid := widthReg (wsel s.max.toNat), status := okCode, info := 0, eidx := 0, hdone := false, acc := [], nacc := 0,
      ph := .encEmit } := by
  rw [encLoadEnd, if_neg (Bool.eq_false_iff.1 h), if_neg (Bool.eq_false_iff.1 h')]

theorem takeError_eq (k : ErrKind) (info : CodeUnit) (s : State) :
    takeError k info s = { s with status := errCode k, info := info, ph := .report } := rfl

theorem widthReg_wsel (m : Nat) : widthReg (wsel m) = if m < 10 then 4 else if m < 100 then 7 else 9 := by
  rw [wsel_eq]
  split_ifs <;> rfl

/-- Settles O31: the end beat is recorded, and the first line of R186 whose condition holds applies. -/
theorem encLoadEndBeat : Obligations.EncLoadEndBeat := by
  intro s op d hph
  have hexec := exec_inBeat_encLoad_end op d hph
  refine ⟨fun hrerr => ?rangeError, fun hrerr hovf => ?lengthError, fun hrerr hovf => ?valid⟩
  case rangeError => rw [hexec, encLoadEnd_of_rerr (s := logIn _ s) hrerr, takeError_eq, logIn_eq, errCode]
  case lengthError => rw [hexec, encLoadEnd_of_ovf (s := logIn _ s) hrerr hovf, takeError_eq, logIn_eq, errCode]
  case valid => rw [hexec, encLoadEnd_of_valid (s := logIn _ s) hrerr hovf, widthReg_wsel, logIn_eq, okCode]

/-! ## DEC_LOAD -/

theorem decLoadData_of_icerr {s : State} (c : CodeUnit) (h : s.icerr = true) : decLoadData c s = .next s := by
  rw [decLoadData, if_pos h]

theorem decLoadData_invalid {c : CodeUnit} {s : State} (h : s.icerr = false) (hc : symdec c = none) :
    decLoadData c s = .next (flagInvalidCharacter c s) := by
  simp only [decLoadData, h, Bool.false_eq_true, if_false, hc]

theorem decLoadData_symbol {c : CodeUnit} {i : Nat} {s : State} (h : s.icerr = false) (hc : symdec c = some i) :
    decLoadData c s = feedBits (expand i) s := by
  simp only [decLoadData, h, Bool.false_eq_true, if_false, hc]

theorem flagInvalidCharacter_eq (c : CodeUnit) (s : State) :
    flagInvalidCharacter c s = { s with icerr := true, badc := c } := rfl

/-- EXPAND bit by bit, bit 5 first (42_symbol_codec.md R147). -/
theorem expand_eq (i : Nat) : expand i = [decide (i / 32 % 2 = 1), decide (i / 16 % 2 = 1), decide (i / 8 % 2 = 1),
    decide (i / 4 % 2 = 1), decide (i / 2 % 2 = 1), decide (i % 2 = 1)] := by
  simp [expand, bin]

/-- Settles O32: the beat is recorded, and R193 decides by `ICERR` and by what SYMDEC answers. -/
theorem decLoadDataBeat : Obligations.DecLoadDataBeat := by
  intro s op c hph
  have hexec := exec_inBeat_decLoad_data op c hph
  refine ⟨fun hicerr => ?ignored, fun hicerr hc => ?invalid, fun i hi hicerr hc => ?symbol⟩
  case ignored => rw [hexec, decLoadData_of_icerr (s := logIn _ s) c hicerr, logIn_eq]
  case invalid =>
    rw [hexec, decLoadData_invalid (s := logIn _ s) hicerr (symdec_of_not_mem hc), flagInvalidCharacter_eq,
      logIn_eq]
  case symbol =>
    subst hc
    rw [hexec, decLoadData_symbol (s := logIn _ s) hicerr (symdec_symenc hi), expand_eq, logIn_eq]

theorem decLoadEnd_of_icerr {s : State} (h : s.icerr = true) :
    decLoadEnd s = takeError .invalidCharacter s.badc s := by
  rw [decLoadEnd, if_pos h]

theorem decLoadEnd_of_badwc {s : State} (h : s.icerr = false) (hr : s.rs = .badwc) :
    decLoadEnd s = takeError .invalidWidthCode 0 s := by
  simp only [decLoadEnd, h, Bool.false_eq_true, if_false, hr]

theorem decLoadEnd_of_done {s : State} (h : s.icerr = false) (hr : s.rs = .done) :
    decLoadEnd s = { s with status := okCode, info := 0, eidx := 0, ph := .decEmit } := by
  simp only [decLoadEnd, h, Bool.false_eq_true, if_false, hr]

/-- A reader still inside the header or the elements has run out of bits (R194). -/
theorem decLoadEnd_of_unfinished {s : State} (h : s.icerr = false) (hb : s.rs ≠ .badwc) (hd : s.rs ≠ .done) :
    decLoadEnd s = takeError .truncatedInput 0 s := by
  cases hr : s.rs with
  | badwc => exact absurd hr hb
  | done => exact absurd hr hd
  | flag | len | wc | elem => simp only [decLoadEnd, h, Bool.false_eq_true, if_false, hr]

/-- Settles O33: the end beat is recorded, and the first line of R194 whose condition holds applies. -/
theorem decLoadEndBeat : Obligations.DecLoadEndBeat := by
  intro s op d hph
  have hexec := exec_inBeat_decLoad_end op d hph
  refine ⟨fun hi => ?invalidCharacter, fun hi hr => ?invalidWidthCode, fun hi hr => ?done, fun hi hb hd => ?truncated⟩
  case invalidCharacter => rw [hexec, decLoadEnd_of_icerr (s := logIn _ s) hi, takeError_eq, logIn_eq, errCode]
  case invalidWidthCode => rw [hexec, decLoadEnd_of_badwc (s := logIn _ s) hi hr, takeError_eq, logIn_eq, errCode]
  case done => rw [hexec, decLoadEnd_of_done (s := logIn _ s) hi hr, logIn_eq, okCode]
  case truncated => rw [hexec, decLoadEnd_of_unfinished (s := logIn _ s) hi hb hd, takeError_eq, logIn_eq, errCode]

/-! ## REPORT -/

theorem offer_report {s : State} (h : s.ph = .report) : offer s = some (endBeat s) := by
  simp only [offer, h]

theorem beatDue_report {s : State} (h : s.ph = .report) : beatDue s = true := by
  simp only [beatDue, h]

theorem outValidAt_of_go {e : Pins} {s : State} (h : beatDue s = true) (hrst : e.rst = false) (hgo : e.go = true) :
    outValidAt e s = true := by
  simp only [outValidAt, h, hrst, hgo, Bool.or_true, Bool.not_false, Bool.and_true]

theorem deliver_report {s : State} (b : OutBeat) (h : s.ph = .report) :
    deliver b s = { s with ph := .idle, outLog := s.outLog ++ [b] } := by
  simp only [deliver, afterBeat, h]

theorem execOutBeat_of_offer {fin : Bool} {d : CodeUnit} {st : BitVec 3} {s : State}
    (h : offer s = some { fin := fin, data := d, status := st }) :
    exec (.outBeat fin d st) s = .next (deliver { fin := fin, data := d, status := st } s) :=
  if_pos h

theorem reportStatus_of_status {code : BitVec 3} {s : State} (h : s.ph = .report) (hs : s.status = code) :
    reportStatus code s = .next (deliver (endBeat s) s) :=
  if_pos ⟨h, hs⟩

/-- Settles O41: the end beat is what REPORT offers, and it is transferred as an output beat and as the row of its
code. -/
theorem reportSendsEndBeat : Obligations.ReportSendsEndBeat := by
  intro s hph
  have hoffer : offer s = some (OutBeat.mk true s.info s.status) := offer_report hph
  have hsent : deliver (endBeat s) s =
      { s with ph := .idle, outLog := s.outLog ++ [OutBeat.mk true s.info s.status] } := deliver_report _ hph
  have hcode : ∀ code, s.status = code → reportStatus code s =
      .next { s with ph := .idle, outLog := s.outLog ++ [OutBeat.mk true s.info s.status] } := fun code hs => by
    rw [reportStatus_of_status hph hs, hsent]
  refine ⟨hoffer, fun e => outValidAt_of_go (beatDue_report hph), ?_, hcode 0, hcode 1, hcode 2, hcode 3, hcode 4,
    hcode 5⟩
  rw [execOutBeat_of_offer hoffer, deliver_report _ hph]

end Sys2Proof.Machine
end

section
/-! The command bit (44_commands.md R183): how it starts a transaction, and that on a later beat it is only recorded. -/

namespace Sys2Proof.Machine

/-! ## The command bit -/

theorem exec_encodeCmd (s : State) : exec .encodeCmd s = command false s := rfl

theorem exec_decodeCmd (s : State) : exec .decodeCmd s = command true s := rfl

/-- In IDLE a command bit makes a beat of the other pins (R183). -/
theorem command_idle {s : State} (op : Bool) (h : s.ph = .idle) :
    command op s = inputBeat { op := op, fin := s.pins.inEnd, data := s.pins.inData } s := by
  simp only [command, h]

theorem command_later {s : State} (op : Bool) (h : s.ph ≠ .idle) : command op s = .next s := by
  cases hp : s.ph with
  | idle => exact absurd hp h
  | encLoad | encEmit | decLoad | decEmit | report => simp only [command, hp]

/-- The record of the beats is no register: starting the transaction and recording its beat commute (log 8). -/
theorem startTransaction_logIn (op : Bool) (b : InBeat) (s : State) :
    startTransaction op (logIn b s) = logIn b (startTransaction op s) := rfl

theorem startTransaction_ph_load (op : Bool) (s : State) :
    (startTransaction op s).ph = .encLoad ∨ (startTransaction op s).ph = .decLoad := by
  cases op
  · exact .inl rfl
  · exact .inr rfl

/-- The beat that leaves IDLE is processed as in the load phase it starts (R183). -/
theorem inputBeat_startTransaction {s : State} (b : InBeat) (h : s.ph = .idle) :
    inputBeat b s = inputBeat b (startTransaction b.op s) := by
  rw [inputBeat_idle h, inputBeat_load (startTransaction_ph_load _ _), startTransaction_logIn]

/-! ## No operation of a load phase reads the record of the beats -/

/-- The state with another record of the input beats (log 8). -/
def withInLog (l : List InBeat) (s : State) : State := { s with inLog := l }

theorem widthCodeRead_withInLog {n : Nat} {s t : State} (l : List InBeat) (h : widthCodeRead n s = .next t) :
    widthCodeRead n (withInLog l s) = .next (withInLog l t) := by
  rcases widthCodeRead_next h with ⟨rfl, rfl⟩ | ⟨w, hw, hn, ⟨hc, rfl⟩ | ⟨hc, rfl⟩⟩
  · rfl
  · interval_cases n <;> cases hw <;> exact congrArg Host.Outcome.next (if_pos hc)
  · interval_cases n <;> cases hw <;> exact congrArg Host.Outcome.next (if_neg hc)

theorem elementRead_withInLog {v : Entry} {s t : State} (l : List InBeat) (h : elementRead v s = .next t) :
    elementRead v (withInLog l s) = .next (withInLog l t) := by
  obtain ⟨hi, ⟨hc, rfl⟩ | ⟨hc, rfl⟩⟩ := elementRead_next h
  · exact (if_pos hi).trans (if_pos hc)
  · exact (if_pos hi).trans (if_neg hc)

theorem rdstep_withInLog {x : Bool} {s t : State} (l : List InBeat) (h : rdstep x s = .next t) :
    rdstep x (withInLog l s) = .next (withInLog l t) := by
  rcases rdstep_next h with ⟨hr, rfl⟩ | ⟨hr, hb, rfl⟩ | ⟨hr, hb, rfl⟩ | ⟨hr, hb, h⟩ | ⟨hr, hb, h⟩ | ⟨hr, rfl⟩
  · exact rdstep_flag hr
  · exact rdstep_fieldBit hr hb
  · exact rdstep_lengthRead hr hb
  · exact (rdstep_widthCodeRead (s := withInLog l s) hr hb).trans (widthCodeRead_withInLog l h)
  · exact (rdstep_elementRead (s := withInLog l s) hr hb).trans (elementRead_withInLog l h)
  · exact rdstep_ignored hr

theorem feedBits_withInLog {b : Bits} {s t : State} (l : List InBeat) (h : feedBits b s = .next t) :
    feedBits b (withInLog l s) = .next (withInLog l t) := by
  induction b generalizing s with
  | nil => cases h; rfl
  | cons x b ih =>
    obtain ⟨u, hu, htail⟩ := feedBits_cons_next h
    simp only [feedBits, rdstep_withInLog l hu, ih htail]

theorem decLoadData_withInLog {c : CodeUnit} {s t : State} (l : List InBeat) (h : decLoadData c s = .next t) :
    decLoadData c (withInLog l s) = .next (withInLog l t) := by
  rcases decLoadData_next h with ⟨hi, rfl⟩ | ⟨hi, hc, rfl⟩ | ⟨hi, i, hc, hfeed⟩
  · exact decLoadData_of_icerr c hi
  · exact decLoadData_invalid hi hc
  · exact (decLoadData_symbol (s := withInLog l s) hi hc).trans (feedBits_withInLog l hfeed)

theorem flagRange_withInLog (v : CodeUnit) (l : List InBeat) (s : State) :
    flagRange v (withInLog l s) = withInLog l (flagRange v s) := by
  cases hr : inRange v with
  | true => rw [flagRange_of_inRange hr, flagRange_of_inRange hr]
  | false => rw [flagRange_of_not_inRange hr, flagRange_of_not_inRange hr]; rfl

theorem encLoadData_withInLog (v : CodeUnit) (l : List InBeat) (s : State) :
    encLoadData v (withInLog l s) = withInLog l (encLoadData v s) := by
  by_cases hc : s.cnt = 1023
  · rw [encLoadData_full v hc, encLoadData_full (s := withInLog l s) v hc, flagRange_withInLog]; rfl
  · cases hr : inRange v with
    | true => rw [encLoadData_inRange hc hr, encLoadData_inRange (s := withInLog l s) hc hr]; rfl
    | false => rw [encLoadData_outOfRange hc hr, encLoadData_outOfRange (s := withInLog l s) hc hr]; rfl

theorem encLoadEnd_withInLog (l : List InBeat) (s : State) :
    encLoadEnd (withInLog l s) = withInLog l (encLoadEnd s) := by
  rcases encLoadEnd_cases s with ⟨hr, he⟩ | ⟨hr, ho, he⟩ | ⟨hr, ho, he⟩ <;> rw [he]
  · exact encLoadEnd_of_rerr hr
  · exact encLoadEnd_of_ovf hr ho
  · exact encLoadEnd_of_valid hr ho

theorem decLoadEnd_withInLog (l : List InBeat) (s : State) :
    decLoadEnd (withInLog l s) = withInLog l (decLoadEnd s) := by
  rcases decLoadEnd_cases s with ⟨hi, he⟩ | ⟨hi, hr, he⟩ | ⟨hi, hr, he⟩ | ⟨hi, hb, hd, he⟩ <;> rw [he]
  · exact decLoadEnd_of_icerr hi
  · exact decLoadEnd_of_badwc hi hr
  · exact decLoadEnd_of_done hi hr
  · exact decLoadEnd_of_unfinished hi hb hd

theorem loadBeat_withInLog {b : InBeat} {s t : State} (l : List InBeat) (hp : s.ph = .encLoad ∨ s.ph = .decLoad)
    (h : loadBeat b s = .next t) : loadBeat b (withInLog l s) = .next (withInLog l t) := by
  rcases hp with hp | hp
  · rw [loadBeat_encLoad hp] at h
    rw [loadBeat_encLoad (s := withInLog l s) hp]
    cases h
    rw [encLoadEnd_withInLog, encLoadData_withInLog, ← apply_ite (withInLog l)]
  · rw [loadBeat_decLoad hp] at h
    rw [loadBeat_decLoad (s := withInLog l s) hp]
    cases hf : b.fin with
    | true =>
      rw [hf, if_pos rfl] at h
      cases h
      rw [if_pos rfl, decLoadEnd_withInLog]
    | false =>
      rw [hf, if_neg Bool.false_ne_true] at h
      rw [if_neg Bool.false_ne_true]
      exact decLoadData_withInLog l h

/-- Outside IDLE the command bit of a beat decides nothing: it is only recorded (R183). -/
theorem inputBeat_op_ignored {s t : State} {fin : Bool} {d : CodeUnit} (op op' : Bool) (hp : s.ph ≠ .idle)
    (h : inputBeat ⟨op, fin, d⟩ s = .next t) : ∃ l, inputBeat ⟨op', fin, d⟩ s = .next (withInLog l t) := by
  rcases inputBeat_next h with ⟨hidle, -⟩ | ⟨hload, hbeat⟩ | ⟨hwaits, rfl⟩
  · exact absurd hidle hp
  · refine ⟨s.inLog ++ [⟨op', fin, d⟩], ?_⟩
    rw [inputBeat_load hload]
    exact loadBeat_withInLog (s := logIn ⟨op, fin, d⟩ s) _ hload hbeat
  · exact ⟨t.inLog, inputBeat_waits hwaits⟩

/-- Settles O29: leaving IDLE is `startTransaction`, and later `in_op` reaches the record of the beats alone. -/
theorem commandBitReadOnce : Obligations.CommandBitReadOnce := by
  refine ⟨fun s op fin d hidle => ⟨?start, ?encode, ?decode⟩, fun s hlater => ⟨?encodeLater, ?decodeLater⟩,
    fun s t u fin d hlater ht hu => ?recorded⟩
  case start => exact inputBeat_startTransaction ⟨op, fin, d⟩ hidle
  case encode => rw [exec_encodeCmd, command_idle false hidle, exec_inBeat]
  case decode => rw [exec_decodeCmd, command_idle true hidle, exec_inBeat]
  case encodeLater => rw [exec_encodeCmd, command_later false hlater]
  case decodeLater => rw [exec_decodeCmd, command_later true hlater]
  case recorded =>
    obtain ⟨l, hl⟩ := inputBeat_op_ignored false true hlater ht
    obtain rfl : u = withInLog l t := Host.Outcome.next.inj (hu.symm.trans hl)
    rfl

end Sys2Proof.Machine
end

section
/-! The phase transitions (44_commands.md R201): the phase that an edge leaves, for each of the three kinds of edge. -/

namespace Sys2Proof.Machine

/-! ## The table, row by row -/

theorem beatTaken_eq {e : Pins} {s : State} (h : acceptsInput s = true) (hrst : e.rst = false) :
    beatTaken e s = (e.inValid && e.go) := by
  simp only [beatTaken, inReady, h, hrst, Bool.true_and, Bool.not_false, Bool.and_true]

theorem beatGiven_eq {e : Pins} {s : State} (h : beatDue s = true) (hrst : e.rst = false) :
    beatGiven e s = ((s.outValid || e.go) && e.outReady) := by
  simp only [beatGiven, outValidAt, h, hrst, Bool.true_and, Bool.not_false, Bool.and_true]

theorem acceptsInput_iff (s : State) : acceptsInput s = true ↔ s.ph = .idle ∨ s.ph = .encLoad ∨ s.ph = .decLoad := by
  simp only [acceptsInput, Bool.or_eq_true, decide_eq_true_eq, or_assoc]

/-- Without a beat a phase that takes input stays. -/
theorem phaseAfter_of_not_taken {e : Pins} {s : State} (ha : acceptsInput s = true) (h : beatTaken e s = false) :
    phaseAfter e s = s.ph := by
  rcases (acceptsInput_iff s).1 ha with hp | hp | hp <;>
    simp only [phaseAfter, hp, h, Bool.false_and, Bool.false_eq_true, if_false]

/-- The phase after a beat is processed in ENC_LOAD. -/
def encLoadPhase (fin : Bool) (s : State) : Phase :=
  if fin then if s.rerr || s.ovf then .report else .encEmit else .encLoad

/-- The phase after a beat is processed in DEC_LOAD. -/
def decLoadPhase (fin : Bool) (s : State) : Phase :=
  if fin then if !s.icerr && decide (s.rs = .done) then .decEmit else .report else .decLoad

theorem phaseAfter_idle {e : Pins} {s : State} (hp : s.ph = .idle) (h : beatTaken e s = true) :
    phaseAfter e s =
      if e.inOp then decLoadPhase e.inEnd (startTransaction true s)
      else encLoadPhase e.inEnd (startTransaction false s) := by
  cases ho : e.inOp <;> cases hf : e.inEnd <;> simp only [phaseAfter, hp, h, ho, hf] <;> rfl

theorem phaseAfter_encLoad {e : Pins} {s : State} (hp : s.ph = .encLoad) (h : beatTaken e s = true) :
    phaseAfter e s = encLoadPhase e.inEnd s := by
  simp only [phaseAfter, encLoadPhase, hp, h, Bool.true_and]

theorem phaseAfter_decLoad {e : Pins} {s : State} (hp : s.ph = .decLoad) (h : beatTaken e s = true) :
    phaseAfter e s = decLoadPhase e.inEnd s := by
  simp only [phaseAfter, decLoadPhase, hp, h, Bool.true_and]

/-! ## Edges that take input -/

theorem encLoadEnd_ph (s : State) : (encLoadEnd s).ph = if s.rerr || s.ovf then .report else .encEmit := by
  rcases encLoadEnd_cases s with ⟨hr, he⟩ | ⟨hr, ho, he⟩ | ⟨hr, ho, he⟩
  · rw [he, hr]; rfl
  · rw [he, hr, ho]; rfl
  · rw [he, hr, ho]; rfl

theorem encLoadData_ph (v : CodeUnit) (s : State) : (encLoadData v s).ph = s.ph := by
  rcases encLoadData_cases v s with ⟨-, -, he⟩ | ⟨-, -, he⟩ | ⟨-, -, he⟩ | ⟨-, -, he⟩ <;>
    simp only [he, storeElement_ph]

theorem decLoadEnd_ph (s : State) :
    (decLoadEnd s).ph = if !s.icerr && decide (s.rs = .done) then .decEmit else .report := by
  rcases decLoadEnd_cases s with ⟨hi, he⟩ | ⟨hi, hr, he⟩ | ⟨hi, hr, he⟩ | ⟨hi, -, hd, he⟩
  · rw [he, hi]; rfl
  · rw [he, hi, hr]; rfl
  · rw [he, hi, hr]; rfl
  · rw [he, decide_eq_false hd, Bool.and_false]; rfl

theorem decLoadData_ph {c : CodeUnit} {s t : State} (h : decLoadData c s = .next t) : t.ph = s.ph := by
  rcases decLoadData_next h with ⟨-, rfl⟩ | ⟨-, -, rfl⟩ | ⟨-, i, -, hfeed⟩
  · rfl
  · rfl
  · rw [feedBits_frame hfeed]

theorem loadBeat_ph_encLoad {b : InBeat} {s t : State} (hp : s.ph = .encLoad) (h : loadBeat b s = .next t) :
    t.ph = encLoadPhase b.fin s := by
  rw [loadBeat_encLoad hp] at h
  cases h
  rw [apply_ite State.ph, encLoadEnd_ph, encLoadData_ph, hp, encLoadPhase]

theorem loadBeat_ph_decLoad {b : InBeat} {s t : State} (hp : s.ph = .decLoad) (h : loadBeat b s = .next t) :
    t.ph = decLoadPhase b.fin s := by
  rw [loadBeat_decLoad hp] at h
  cases hf : b.fin with
  | true =>
    rw [hf, if_pos rfl] at h
    cases h
    rw [decLoadEnd_ph, decLoadPhase, if_pos rfl]
  | false =>
    rw [hf, if_neg Bool.false_ne_true] at h
    rw [decLoadData_ph h, hp, decLoadPhase, if_neg Bool.false_ne_true]

/-- The phase after a beat that is transferred: in IDLE the command bit selects the load phase
whose rule applies (R183). -/
theorem inputBeat_ph {e : Pins} {s t : State} (ha : acceptsInput s = true) (htaken : beatTaken e s = true)
    (h : inputBeat e.beat s = .next t) : t.ph = phaseAfter e s := by
  rcases (acceptsInput_iff s).1 ha with hp | hp | hp
  · rw [inputBeat_idle hp] at h
    rw [phaseAfter_idle hp htaken]
    cases ho : e.inOp with
    | false =>
      have hop : e.beat.op = false := ho
      rw [hop] at h
      exact loadBeat_ph_encLoad rfl h
    | true =>
      have hop : e.beat.op = true := ho
      rw [hop] at h
      exact loadBeat_ph_decLoad rfl h
  · rw [inputBeat_load (.inl hp)] at h
    rw [phaseAfter_encLoad hp htaken]
    exact loadBeat_ph_encLoad (s := logIn e.beat s) hp h
  · rw [inputBeat_load (.inr hp)] at h
    rw [phaseAfter_decLoad hp htaken]
    exact loadBeat_ph_decLoad (s := logIn e.beat s) hp h

theorem runPosition_input {s : State} (ha : acceptsInput s = true) : runPosition s = inputBeat s.pins.beat s := by
  rcases (acceptsInput_iff s).1 ha with hp | hp | hp
  · exact runPosition_idle hp
  · exact runPosition_load (.inl hp)
  · exact runPosition_load (.inr hp)

theorem inputEdge_ph {e : Pins} {s t : State} (hpins : s.pins = e) (hrst : e.rst = false) (ha : acceptsInput s = true)
    (h : inputEdge e s = .next t) : t.ph = phaseAfter e s := by
  rcases inputEdge_next h with ⟨hvalid, hgo, hrun⟩ | ⟨hnot, rfl⟩
  · have htaken : beatTaken e s = true := by rw [beatTaken_eq ha hrst, hvalid, hgo]; rfl
    rw [runPosition_input (s := { s with pend := none }) ha] at hrun
    subst hpins
    exact inputBeat_ph (s := { s with pend := none }) ha htaken hrun
  · have hnottaken : beatTaken e s = false := by rw [beatTaken_eq ha hrst, hnot]
    rw [phaseAfter_of_not_taken ha hnottaken, keepPresented_ph]

/-! ## Edges with an output beat due -/

theorem beatDue_encEmit {s : State} (hp : s.ph = .encEmit) : beatDue s = true ↔ emitStep s = .symbol := by
  simp only [beatDue, hp, decide_eq_true_eq]

theorem beatDue_decEmit {s : State} (hp : s.ph = .decEmit) : beatDue s = true ↔ s.eidx.toNat < s.cnt.toNat := by
  simp only [beatDue, hp, decide_eq_true_eq]

theorem not_acceptsInput_of_beatDue {s : State} (h : beatDue s = true) : acceptsInput s = false :=
  Bool.eq_false_iff.2 fun ha => Bool.false_ne_true ((beatDue_of_acceptsInput ha).symm.trans h)

theorem phaseAfter_encEmit {s : State} (e : Pins) (hp : s.ph = .encEmit) :
    phaseAfter e s = if e.go && decide (emitStep s = .finish) then .report else .encEmit := by
  simp only [phaseAfter, hp]

theorem phaseAfter_decEmit {s : State} (e : Pins) (hp : s.ph = .decEmit) :
    phaseAfter e s = if e.go && decide (s.eidx = s.cnt) then .report else .decEmit := by
  simp only [phaseAfter, hp]

theorem phaseAfter_report {s : State} (e : Pins) (hp : s.ph = .report) :
    phaseAfter e s = if beatGiven e s then .idle else .report := by
  simp only [phaseAfter, hp]

/-- Where a beat is due, only the transfer of the end beat changes the phase. -/
theorem phaseAfter_of_beatDue {s : State} (e : Pins) (hdue : beatDue s = true) :
    phaseAfter e s = if s.ph = .report ∧ beatGiven e s = true then .idle else s.ph := by
  cases hp : s.ph with
  | idle | encLoad | decLoad => simp only [beatDue, hp, Bool.false_eq_true] at hdue
  | encEmit => rw [phaseAfter_encEmit e hp, (beatDue_encEmit hp).1 hdue]; simp
  | decEmit =>
    have hne : s.eidx ≠ s.cnt := fun heq => absurd ((beatDue_decEmit hp).1 hdue) (by rw [heq]; exact lt_irrefl _)
    rw [phaseAfter_decEmit e hp, decide_eq_false hne, Bool.and_false]
    rfl
  | report => rw [phaseAfter_report e hp]; simp

theorem deliver_ph (b : OutBeat) (s : State) : (deliver b s).ph = if s.ph = .report then .idle else s.ph := by
  rcases deliver_cases b s with ⟨hp, hd⟩ | ⟨hp, hd⟩ | ⟨hp, hd⟩ | ⟨hp | hp | hp, hd⟩ <;> simp [hd, hp]

/-- Where a beat is due, the row at the position delivers a beat. -/
theorem runPosition_beatDue {s t : State} (hdue : beatDue s = true) (h : runPosition s = .next t) :
    ∃ b, t = deliver b s := by
  rcases runPosition_next h with ⟨hp, -⟩ | ⟨hp, hstep⟩ | ⟨hp, hstep⟩ | ⟨hp, -, rfl⟩
  · exact absurd ((acceptsInput_iff s).2 hp) (Bool.eq_false_iff.1 (not_acceptsInput_of_beatDue hdue))
  · rw [(beatDue_encEmit hp).1 hdue] at hstep
    rcases hstep with ⟨-, -, rfl⟩ | ⟨he, -⟩ | ⟨he, -⟩ | ⟨he, -⟩ | ⟨he, -⟩
    · exact ⟨_, rfl⟩
    all_goals cases he
  · have hlt := (beatDue_decEmit hp).1 hdue
    rcases hstep with ⟨-, v, -, rfl⟩ | ⟨hle, -⟩
    · exact ⟨_, rfl⟩
    · exact absurd hlt (Nat.not_lt.2 hle)
  · exact ⟨_, rfl⟩

theorem outputEdge_ph {e : Pins} {s t : State} (hrst : e.rst = false) (hdue : beatDue s = true)
    (h : outputEdge e s = .next t) : t.ph = phaseAfter e s := by
  rw [phaseAfter_of_beatDue e hdue, beatGiven_eq hdue hrst]
  rcases outputEdge_next h with ⟨hvalid, hready, hrun⟩ | ⟨-, hready, rfl⟩ | ⟨hvalid, rfl⟩
  · obtain ⟨b, rfl⟩ := runPosition_beatDue (s := { keepPresented e s with outValid := false }) hdue hrun
    simp [deliver_ph, hvalid, hready]
  · simp [hready]
  · simp [hvalid]

/-! ## Edges with an internal step enabled -/

/-- An internal step pushes bits and stays in ENC_EMIT, or leads to REPORT as the table says; the invariant is needed for
`EIDX` in DEC_EMIT only. -/
theorem runPosition_internal_ph {e : Pins} {s t : State} (hgo : e.go = true) (ha : acceptsInput s = false)
    (hdue : beatDue s = false) (hidx : s.ph = .decEmit → s.eidx.toNat ≤ s.cnt.toNat) (h : runPosition s = .next t) :
    t.ph = phaseAfter e s := by
  rcases runPosition_next h with ⟨hp, -⟩ | ⟨hp, hstep⟩ | ⟨hp, hstep⟩ | ⟨hp, -, -⟩
  · exact absurd ((acceptsInput_iff s).2 hp) (Bool.eq_false_iff.1 ha)
  · rw [phaseAfter_encEmit e hp, hgo]
    rcases hstep with ⟨he, -⟩ | ⟨he, w, -, rfl⟩ | ⟨he, w, v, -, -, -, rfl⟩ | ⟨he, rfl⟩ | ⟨he, rfl⟩
    · exact absurd ((beatDue_encEmit hp).2 he) (Bool.eq_false_iff.1 hdue)
    · rw [pushHeader_ph, hp, he]; rfl
    · rw [pushElement_ph, hp, he]; rfl
    · rw [pushBits_ph, hp, he]; rfl
    · rw [toReport_ph, he]; rfl
  · rcases hstep with ⟨hlt, -⟩ | ⟨hle, rfl⟩
    · exact absurd ((beatDue_decEmit hp).2 hlt) (Bool.eq_false_iff.1 hdue)
    · have heq : s.eidx = s.cnt := BitVec.eq_of_toNat_eq (Nat.le_antisymm (hidx hp) hle)
      rw [phaseAfter_decEmit e hp, hgo, decide_eq_true heq]
      rfl
  · exact absurd (beatDue_report hp) (Bool.eq_false_iff.1 hdue)

/-- An internal step that the block does not take yet leaves the phase. -/
theorem phaseAfter_of_not_go {e : Pins} {s : State} (hgo : e.go = false) (ha : acceptsInput s = false)
    (hdue : beatDue s = false) : phaseAfter e s = s.ph := by
  cases hp : s.ph with
  | idle => exact absurd ((acceptsInput_iff s).2 (.inl hp)) (Bool.eq_false_iff.1 ha)
  | encLoad => exact absurd ((acceptsInput_iff s).2 (.inr (.inl hp))) (Bool.eq_false_iff.1 ha)
  | decLoad => exact absurd ((acceptsInput_iff s).2 (.inr (.inr hp))) (Bool.eq_false_iff.1 ha)
  | encEmit => rw [phaseAfter_encEmit e hp, hgo]; rfl
  | decEmit => rw [phaseAfter_decEmit e hp, hgo]; rfl
  | report => exact absurd (beatDue_report hp) (Bool.eq_false_iff.1 hdue)

theorem internalEdge_ph {e : Pins} {s t : State} (ha : acceptsInput s = false) (hdue : beatDue s = false)
    (hidx : s.ph = .decEmit → s.eidx.toNat ≤ s.cnt.toNat) (h : internalEdge e s = .next t) :
    t.ph = phaseAfter e s := by
  rcases internalEdge_next h with ⟨hgo, hrun⟩ | ⟨hgo, rfl⟩
  · exact runPosition_internal_ph (s := keepPresented e s) hgo ha hdue hidx hrun
  · rw [keepPresented_ph, phaseAfter_of_not_go hgo ha hdue]

/-! ## Every edge -/

theorem eidx_le_cnt_of_decEmit {s : State} (hinv : Inv s) (hp : s.ph = .decEmit) : s.eidx.toNat ≤ s.cnt.toNat := by
  have hphase := hinv.phase
  simp only [PhaseInv, hp] at hphase
  obtain ⟨-, -, hidx, -⟩ := hphase
  exact hidx

/-- Settles O49: reset leads to IDLE, and each of the three kinds of edge follows the table. -/
theorem phaseTransitions : Obligations.PhaseTransitions := by
  intro s t e rest hinv hedges hstep
  rw [step_edge hedges] at hstep
  rcases clockEdge_next hstep with ⟨hrst, rfl⟩ | ⟨hrst, -, ⟨ha, h⟩ | ⟨-, hdue, h⟩ | ⟨ha, hdue, h⟩⟩ <;> rw [hrst]
  · rfl
  · exact inputEdge_ph (s := sampled e rest s) rfl hrst ha h
  · exact outputEdge_ph (s := sampled e rest s) hrst hdue h
  · have hidx := eidx_le_cnt_of_decEmit hinv
    exact internalEdge_ph (s := sampled e rest s) ha hdue hidx h

end Sys2Proof.Machine
end

section
/-! Which status a command reports (60_exceptions.md R216, R217): ENCODE's two errors in their order, and DECODE's four, read
off the string's own bits. -/

namespace Sys2Proof.Machine

/-! ## ENCODE -/

theorem encodeFn_of_invalid {seq : List Int} (h : ¬ ∀ v ∈ seq, 1 ≤ v ∧ v ≤ 300) : encodeFn seq = .err .rangeError 0 := by
  simp only [encodeFn, rangechk_of_invalid h]

theorem encodeFn_of_long {seq : List Int} (h : ∀ v ∈ seq, 1 ≤ v ∧ v ≤ 300) (hlong : 1024 ≤ seq.length) :
    encodeFn seq = .err .lengthError 0 := by
  have hmax : Config.cntMax < seq.length := hlong
  simp only [encodeFn, rangechk_of_valid h, if_pos hmax]

/-- Settles O8: RANGECHK comes before the length is looked at, and a valid sequence that fits is the one ENCODE answers. -/
theorem encodeErrorPriority : Obligations.EncodeErrorPriority := by
  refine fun seq => ⟨fun hout => ?invalid, fun hv hlong => ?long, fun hv hfits => ?ok⟩
  case invalid =>
    obtain ⟨v, hmem, hrange⟩ := hout
    refine encodeFn_of_invalid fun hv => ?_
    have hvalid := hv v hmem
    omega
  case long => exact encodeFn_of_long hv hlong
  case ok => exact ⟨_, (encodeFn_eq_ok_iff seq _).2 ⟨hv, hfits, rfl⟩⟩

/-! ## DECODE, the symbols -/

/-- UNCHUNK reports the first code unit outside the alphabet (42_symbol_codec.md R148). -/
theorem unchunk_of_find? {t : List CodeUnit} {c : CodeUnit} (h : t.find? (fun x => (symdec x).isNone) = some c) :
    unchunk t = .err .invalidCharacter c := by
  induction t with
  | nil => cases h
  | cons x rest ih =>
    cases hx : symdec x with
    | none =>
      obtain rfl : x = c := by simpa [hx] using h
      simp only [unchunk, hx]
    | some i =>
      have hrest : unchunk rest = .err .invalidCharacter c := ih (by simpa [hx] using h)
      simp only [unchunk, hx, hrest]

theorem decodeFn_of_unchunk_err {t : List CodeUnit} {k : ErrKind} {info : CodeUnit} (h : unchunk t = .err k info) :
    decodeFn t = .err k info := by
  simp only [decodeFn, h]

theorem decodeFn_of_unchunk {t : List CodeUnit} {b : Bits} (h : unchunk t = .ok b) : decodeFn t = unpack b := by
  simp only [decodeFn, h]

/-! ## DECODE, the header -/

/-- The length of the header that the first bit announces; no bit announces the short one. -/
def headerLength (b : Bits) : Nat := if b.head? = some true then 13 else 9

/-- The value of the length field, between the flag and the two bits of the width-code. -/
def lengthField (b : Bits) : Nat := val ((b.drop 1).take (headerLength b - 3))

/-- The value of the width-code, the last two bits of the header. -/
def codeField (b : Bits) : Nat := val ((b.drop (headerLength b - 2)).take 2)

theorem headerLength_cons (f : Bool) (x : Bits) : headerLength (f :: x) = 1 + lenw f + 2 := by cases f <;> rfl

theorem lengthField_cons (f : Bool) (x : Bits) : lengthField (f :: x) = val (x.take (lenw f)) := by cases f <;> rfl

theorem codeField_cons (f : Bool) (x : Bits) : codeField (f :: x) = val (((f :: x).drop (1 + lenw f)).take 2) := by
  cases f <;> rfl

theorem codeField_lt_four (b : Bits) : codeField b < 4 :=
  (val_lt _).trans_le (Nat.pow_le_pow_right (by decide) (List.length_take_le 2 _))

theorem hparse_of_length_lt {b : Bits} (h : b.length < headerLength b) : hparse b = .err .truncatedInput 0 := by
  cases b with
  | nil => exact hparse_nil
  | cons f x => exact hparse_cons_truncated (headerLength_cons f x ▸ h)

theorem read_lengthField {f : Bool} {x : Bits} (h : headerLength (f :: x) ≤ (f :: x).length) :
    read (f :: x) 1 (lenw f) = .ok (lengthField (f :: x), 1 + lenw f) := by
  rw [headerLength_cons] at h
  rw [lengthField_cons]
  exact read_ok (Nat.le_of_add_right_le h)

theorem read_codeField {f : Bool} {x : Bits} (h : headerLength (f :: x) ≤ (f :: x).length) :
    read (f :: x) (1 + lenw f) 2 = .ok (codeField (f :: x), headerLength (f :: x)) := by
  rw [headerLength_cons] at h ⊢
  rw [codeField_cons]
  exact read_ok h

/-- A whole header with the code of a width is parsed (43_bit_unpacker.md R164). -/
theorem hparse_of_codeField {b : Bits} {w : Width} (h : headerLength b ≤ b.length)
    (hw : wdec (wcOfNat (codeField b)) = .ok w) : hparse b = .ok (lengthField b, w, headerLength b) := by
  cases b with
  | nil => exact absurd h (by decide)
  | cons f x => simp only [hparse, read_flag, decide_toNat_eq_one, read_lengthField h, read_codeField h, hw]

/-- A whole header with the reserved code fails at WDEC, whatever the count (R162). -/
theorem hparse_of_codeField_reserved {b : Bits} (h : headerLength b ≤ b.length) (hc : codeField b = 3) :
    hparse b = .err .invalidWidthCode 0 := by
  cases b with
  | nil => exact absurd h (by decide)
  | cons f x => exact hparse_err_of_wdec (read_lengthField h) (read_codeField h) (by rw [hc]; exact wdec_wc11)

/-- The three codes below the reserved one, with the bits of their widths. -/
theorem wdec_wcOfNat_of_lt : ∀ {c : Nat}, c < 3 →
    ∃ w, wdec (wcOfNat c) = .ok w ∧ widthBits w = if c = 0 then 4 else if c = 1 then 7 else 9
  | 0, _ => ⟨.w4, rfl, rfl⟩
  | 1, _ => ⟨.w7, rfl, rfl⟩
  | 2, _ => ⟨.w9, rfl, rfl⟩

/-! ## DECODE, the elements -/

/-- Where there are bits for all of them, ELEMS answers exactly the elements asked for (R166). -/
theorem elems_ok_of_le {b : Bits} {p n : Nat} {w : Width} (h : p + n * widthBits w ≤ b.length) :
    ∃ vs, elems b p n w = .ok vs ∧ vs.length = n := by
  induction n generalizing p with
  | zero => exact ⟨[], rfl, rfl⟩
  | succ n ih =>
    rw [Nat.succ_mul] at h
    obtain ⟨vs, hvs, hlen⟩ := ih (p := p + widthBits w) (by omega)
    exact ⟨_, elems_succ_of_ok (read_ok (by omega)) hvs, congrArg Nat.succ hlen⟩

/-- A whole header with a code that is not reserved: UNPACK reads `lengthField b` elements of the code's width after it. -/
theorem unpack_of_codeField {b : Bits} (h : headerLength b ≤ b.length) (hc : codeField b ≠ 3) :
    ∃ w, unpack b = elems b (headerLength b) (lengthField b) w ∧
      widthBits w = if codeField b = 0 then 4 else if codeField b = 1 then 7 else 9 := by
  have hlt : codeField b < 3 := Nat.lt_of_le_of_ne (Nat.le_of_lt_succ (codeField_lt_four b)) hc
  obtain ⟨w, hw, hbits⟩ := wdec_wcOfNat_of_lt hlt
  exact ⟨w, unpack_of_header (hparse_of_codeField h hw), hbits⟩

/-- Settles O9: UNCHUNK fails before UNPACK is reached, HPARSE before ELEMS, and ELEMS only where its elements pass the end. -/
theorem decodeErrorPriority : Obligations.DecodeErrorPriority := by
  refine ⟨fun t c hbad => ?symbols, fun t b hb => ?bits⟩
  case symbols => exact decodeFn_of_unchunk_err (unchunk_of_find? hbad)
  case bits =>
    rw [decodeFn_of_unchunk hb]
    refine ⟨fun hshort => ?header, fun hle hc => ?reserved, fun hle hc hneed => ?elements, fun hle hc hneed => ?ok⟩
    case header => exact unpack_of_header_err (hparse_of_length_lt hshort)
    case reserved => exact unpack_of_header_err (hparse_of_codeField_reserved hle hc)
    case elements =>
      obtain ⟨w, hunpack, hbits⟩ := unpack_of_codeField hle hc
      exact hunpack.trans (elems_truncated hle (hbits ▸ hneed))
    case ok =>
      obtain ⟨w, hunpack, hbits⟩ := unpack_of_codeField hle hc
      rw [hunpack]
      exact elems_ok_of_le (hbits ▸ hneed)

end Sys2Proof.Machine
end

section
/-! Reset (70_reset_and_hazards.md R240, R241): the registers right after it, and the edge with `rst` = 1 from every state. -/

namespace Sys2Proof.Machine

/-! ## IDLE has nothing to send -/

theorem beatDue_idle {s : State} (hp : s.ph = .idle) : beatDue s = false :=
  beatDue_of_acceptsInput ((acceptsInput_iff s).2 (.inl hp))

theorem offer_idle {s : State} (hp : s.ph = .idle) : offer s = none := by
  simp only [offer, hp]

theorem outValidAt_of_not_beatDue {s : State} (e : Pins) (h : beatDue s = false) : outValidAt e s = false := by
  simp only [outValidAt, h, Bool.false_and]

/-! ## The edge with `rst` = 1 -/

theorem inReady_of_rst {e : Pins} (s : State) (hrst : e.rst = true) : inReady e s = false := by
  simp only [inReady, hrst, Bool.not_true, Bool.and_false]

theorem outValidAt_of_rst {e : Pins} (s : State) (hrst : e.rst = true) : outValidAt e s = false := by
  simp only [outValidAt, hrst, Bool.not_true, Bool.and_false]

/-- Reset comes before the host's obligation and before the phase. -/
theorem clockEdge_of_rst {e : Pins} (s : State) (hrst : e.rst = true) : clockEdge e s = .next (resetEdge s) :=
  if_pos hrst

theorem step_of_rst {s : State} {e : Pins} {rest : List Pins} (hedges : s.edges = e :: rest) (hrst : e.rst = true) :
    step s = .next (resetEdge (sampled e rest s)) :=
  (step_edge hedges).trans (clockEdge_of_rst _ hrst)

/-- A reset keeps only what is no register: the pins, the script, the result of a unit and the records of beats. -/
theorem resetEdge_eq_reset (s : State) :
    resetEdge s = { State.reset with
      pins := s.pins, edges := s.edges, unitOut := s.unitOut, inLog := s.inLog, outLog := s.outLog } := rfl

/-! ## The obligations -/

/-- Settles O47: the registers are those `State.reset` lists, and IDLE has nothing to send. -/
theorem resetValues : Obligations.ResetValues := by
  have hidle : State.reset.ph = .idle := rfl
  have hout : ∀ e, outValidAt e State.reset = false := fun e => outValidAt_of_not_beatDue e (beatDue_idle hidle)
  exact ⟨hidle, rfl, rfl, rfl, rfl, rfl, rfl, rfl, rfl, rfl, rfl, rfl, rfl, rfl, rfl, rfl, rfl, rfl,
    offer_idle hidle, hout⟩

/-- Settles O48: `rst` holds both handshakes low, and the step is `resetEdge` on the sampled pins, whatever the phase.
(The model's function has the name `resetEdge`.) -/
theorem resetEdge_spec : Obligations.ResetEdge := by
  intro s e rest hedges hrst
  have hstep : step s = .next (resetEdge (sampled e rest s)) := step_of_rst hedges hrst
  have hnothing : offer (resetEdge (sampled e rest s)) = none := offer_idle (resetEdge_ph _)
  exact ⟨inReady_of_rst s hrst, outValidAt_of_rst s hrst, _, hstep, rfl, rfl, rfl, hnothing, resetEdge_outValid _,
    resetEdge_eq_reset _⟩

end Sys2Proof.Machine
end

section
/-! The encodings (30_encoding.md R70 to R84): in each format the rows and the bit strings of the format's length are in
bijection, which settles decoding in both directions at once. -/

namespace Sys2Proof.Machine

/-! ## The rows of each format -/

theorem val_lt_of_length {n : Nat} {b : Bits} (h : b.length = n) : val b < 2 ^ n := by
  rw [← h]
  exact val_lt b

theorem encode_cmd_iff (i : Instr) (b : Bits) :
    encode i = some (.cmd, b) ↔ b.length = 1 ∧ i = if val b = 0 then .encodeCmd else .decodeCmd := by
  refine ⟨fun h => ?_, fun ⟨hlen, hi⟩ => ?_⟩
  · cases i <;> cases h <;> exact ⟨rfl, rfl⟩
  · obtain ⟨x, rfl⟩ := List.length_eq_one_iff.1 hlen
    subst hi
    cases x <;> rfl

theorem encode_wcode_iff (i : Instr) (b : Bits) :
    encode i = some (.wcode, b) ↔ b.length = 2 ∧ i = wcInstr (wcOfNat (val b)) := by
  refine ⟨fun h => ?_, fun ⟨hlen, hi⟩ => ?_⟩
  · cases i <;> cases h <;> exact ⟨rfl, rfl⟩
  · obtain ⟨x, y, rfl⟩ := List.length_eq_two.1 hlen
    subst hi
    cases x <;> cases y <;> rfl

theorem encode_status_iff (i : Instr) (b : Bits) :
    encode i = some (.status, b) ↔ b.length = 3 ∧ i = statusInstr (val b) := by
  refine ⟨fun h => ?_, fun ⟨hlen, hi⟩ => ?_⟩
  · cases i <;> cases h <;> exact ⟨rfl, rfl⟩
  · obtain ⟨x, y, z, rfl⟩ := List.length_eq_three.1 hlen
    subst hi
    cases x <;> cases y <;> cases z <;> rfl

theorem encode_symInstr : ∀ {n : Nat}, n < 64 → encode (symInstr n) = some (.sym, bin 6 n) := by decide

/-- The rows of the symbol format are the 64 rows of the alphabet (R80). -/
theorem mem_symRows_of_encode {i : Instr} {b : Bits} (h : encode i = some (.sym, b)) : i ∈ symRows := by
  cases i <;> cases h <;> decide

theorem exists_symInstr_of_mem {i : Instr} (h : i ∈ symRows) : ∃ n, n < 64 ∧ i = symInstr n := by
  obtain ⟨n, hn, rfl⟩ := List.getElem_of_mem h
  exact ⟨n, hn, (List.getD_eq_getElem _ _ _).symm⟩

theorem encode_sym_iff (i : Instr) (b : Bits) :
    encode i = some (.sym, b) ↔ b.length = 6 ∧ i = symInstr (val b) := by
  refine ⟨fun h => ?_, fun ⟨hlen, hi⟩ => ?_⟩
  · obtain ⟨n, hn, rfl⟩ := exists_symInstr_of_mem (mem_symRows_of_encode h)
    obtain rfl : bin 6 n = b := by simpa [encode_symInstr hn] using h
    exact ⟨bin_length _ _, by rw [val_bin_of_lt hn]⟩
  · have hlt : val b < 64 := val_lt_of_length hlen
    rw [hi, encode_symInstr hlt]
    exact congrArg (fun c => some (Format.sym, c)) (expand_val hlen)

/-- The row of an element is encoded as its value, at the width of its format (R79). -/
theorem encode_elemInstr (w : Width) (v : Nat) : encode (elemInstr w v) = some (.elem w, bin (widthBits w) v) := by
  cases w <;> simp only [elemInstr, encode, BitVec.toNat_ofNat, bin_mod, widthBits]

theorem encode_elem_iff (w : Width) (i : Instr) (b : Bits) :
    encode i = some (.elem w, b) ↔ b.length = widthBits w ∧ i = elemInstr w (val b) := by
  refine ⟨fun h => ?_, fun ⟨hlen, hi⟩ => ?_⟩
  · cases i <;> cases h <;>
      exact ⟨bin_length _ _, by rw [elemInstr, val_bin_of_lt (BitVec.isLt _), BitVec.ofNat_toNat, BitVec.setWidth_eq]⟩
  · rw [hi, encode_elemInstr, ← hlen, bin_val]

theorem encode_padf_iff (k : Nat) (i : Instr) (b : Bits) :
    encode i = some (.padf k, b) ↔ i = .padf k ∧ b = zeros k := by
  refine ⟨fun h => ?_, fun ⟨hi, hb⟩ => ?_⟩
  · cases i <;> cases h
    exact ⟨rfl, rfl⟩
  · rw [hi, hb]; rfl

/-! ## Rows of more than one field -/

theorem val_bin_two_wcNat (c : WidthCode) : val (bin 2 (wcNat c)) = wcNat c := by cases c <;> rfl

theorem wcNat_lt_four (c : WidthCode) : wcNat c < 4 := by cases c <;> decide

theorem wcNat_wcOfNat : ∀ {n : Nat}, n < 4 → wcNat (wcOfNat n) = n := by decide

/-- A count followed by a width-code, as one number: the count is its quotient by 4 and the code its remainder. -/
theorem val_count_code {n m : Nat} (c : WidthCode) (hm : m < 2 ^ n) :
    val (bin n m ++ bin 2 (wcNat c)) / 4 = m ∧ val (bin n m ++ bin 2 (wcNat c)) % 4 = wcNat c := by
  have hc := wcNat_lt_four c
  rw [val_append, bin_length, val_bin_of_lt hm, val_bin_two_wcNat]
  omega

/-- Bits are the count and the width-code of their own value. -/
theorem count_code_of_val {n : Nat} {x : Bits} (h : x.length = n + 2) :
    bin n (val x / 4) ++ bin 2 (wcNat (wcOfNat (val x % 4))) = x := by
  obtain ⟨l, c, rfl, hl, hc⟩ : ∃ l c : Bits, l ++ c = x ∧ l.length = n ∧ c.length = 2 :=
    ⟨x.take n, x.drop n, List.take_append_drop n x, by simp [h], by simp [h]⟩
  have hlt : val c < 4 := val_lt_of_length hc
  have hdiv : val (l ++ c) / 4 = val l := by rw [val_append, hc]; omega
  have hmod : val (l ++ c) % 4 = val c := by rw [val_append, hc]; omega
  rw [hdiv, hmod, wcNat_wcOfNat hlt, ← hl, bin_val, ← hc, bin_val]

theorem encode_hdr_short_iff (i : Instr) (x : Bits) :
    encode i = some (.hdr, false :: x) ↔ x.length = 8 ∧ i = hdrShortRow (val x) := by
  refine ⟨fun h => ?_, fun ⟨hlen, hi⟩ => ?_⟩
  · cases i <;> cases h
    next n c =>
      obtain ⟨hdiv, hmod⟩ := val_count_code c n.isLt
      exact ⟨by simp, by rw [hdrShortRow, hdiv, hmod, wcOfNat_wcNat, BitVec.ofNat_toNat, BitVec.setWidth_eq]⟩
  · have hlt : val x / 4 < 2 ^ 6 := by have := val_lt_of_length hlen; omega
    rw [hi, hdrShortRow, encode, BitVec.toNat_ofNat, Nat.mod_eq_of_lt hlt, count_code_of_val (n := 6) hlen]

theorem encode_hdr_long_iff (i : Instr) (x : Bits) :
    encode i = some (.hdr, true :: x) ↔ x.length = 12 ∧ i = hdrLongRow (val x) := by
  refine ⟨fun h => ?_, fun ⟨hlen, hi⟩ => ?_⟩
  · cases i <;> cases h
    next n c =>
      obtain ⟨hdiv, hmod⟩ := val_count_code c n.isLt
      exact ⟨by simp, by rw [hdrLongRow, hdiv, hmod, wcOfNat_wcNat, BitVec.ofNat_toNat, BitVec.setWidth_eq]⟩
  · have hlt : val x / 4 < 2 ^ 10 := by have := val_lt_of_length hlen; omega
    rw [hi, hdrLongRow, encode, BitVec.toNat_ofNat, Nat.mod_eq_of_lt hlt, count_code_of_val (n := 10) hlen]

theorem encode_hdr_ne_nil (i : Instr) : encode i ≠ some (.hdr, []) := by
  intro h
  cases i <;> cases h

/-- The input beat read from the bits of a beat is that beat (R83). -/
theorem inBeatRow_val (op fin : Bool) (d : CodeUnit) :
    inBeatRow (val (op :: fin :: bin 16 d.toNat)) = .inBeat op fin d := by
  have h := decode_inBeat_bits op fin d
  have hfixed := decodeFixed_append (f := .inBeat) (row := inBeatRow) (n := 18) (b := op :: fin :: bin 16 d.toNat) []
    (by simp)
  rw [List.append_nil] at hfixed
  rw [decode, hfixed] at h
  exact congrArg Prod.fst (Except.ok.inj h)

theorem outBeatRow_val (o : OutBeat) : outBeatRow (val (outBeatBits o)) = .outBeat o.fin o.data o.status := by
  have h := decode_outBeat_bits o
  have hfixed := decodeFixed_append (f := .outBeat) (row := outBeatRow) (n := 20) (b := outBeatBits o) []
    (by simp [outBeatBits])
  rw [List.append_nil] at hfixed
  rw [decode, hfixed] at h
  exact congrArg Prod.fst (Except.ok.inj h)

/-- Bits are the numeral of the word with their value. -/
theorem bin_toNat_val {n : Nat} {x : Bits} (h : x.length = n) : bin n (BitVec.ofNat n (val x)).toNat = x := by
  rw [BitVec.toNat_ofNat, bin_mod, ← h, bin_val]

theorem encode_inBeat_iff (i : Instr) (b : Bits) :
    encode i = some (.inBeat, b) ↔ b.length = 18 ∧ i = inBeatRow (val b) := by
  refine ⟨fun h => ?_, fun ⟨hlen, hi⟩ => ?_⟩
  · cases i <;> cases h
    next op fin d => exact ⟨by simp, (inBeatRow_val op fin d).symm⟩
  · match b, hlen with
    | op :: fin :: d, hlen =>
      have hd : d.length = 16 := by simpa using hlen
      have hrow := inBeatRow_val op fin (BitVec.ofNat 16 (val d))
      rw [bin_toNat_val hd] at hrow
      rw [hi, hrow, encode, bin_toNat_val hd]

theorem encode_outBeat_iff (i : Instr) (b : Bits) :
    encode i = some (.outBeat, b) ↔ b.length = 20 ∧ i = outBeatRow (val b) := by
  refine ⟨fun h => ?_, fun ⟨hlen, hi⟩ => ?_⟩
  · cases i <;> cases h
    next fin d st => exact ⟨by simp, (outBeatRow_val ⟨fin, d, st⟩).symm⟩
  · obtain ⟨fin, d, st, rfl, hd, hst⟩ : ∃ (fin : Bool) (d st : Bits), fin :: (d ++ st) = b ∧ d.length = 16 ∧ st.length = 3 := by
      match b, hlen with
      | fin :: x, hlen =>
        rw [List.length_cons] at hlen
        exact ⟨fin, x.take 16, x.drop 16, by rw [List.take_append_drop], by simp; omega, by simp; omega⟩
    have hrow := outBeatRow_val ⟨fin, BitVec.ofNat 16 (val d), BitVec.ofNat 3 (val st)⟩
    rw [outBeatBits, bin_toNat_val hd, bin_toNat_val hst] at hrow
    rw [hi, hrow, encode, bin_toNat_val hd, bin_toNat_val hst]

/-! ## Decoding an encoding -/

theorem decode_hdr_short {x : Bits} (rest : Bits) (h : x.length = 8) :
    decode .hdr (false :: (x ++ rest)) = .ok (hdrShortRow (val x), rest) :=
  decodeFixed_append rest h

theorem decode_hdr_long {x : Bits} (rest : Bits) (h : x.length = 12) :
    decode .hdr (true :: (x ++ rest)) = .ok (hdrLongRow (val x), rest) :=
  decodeFixed_append rest h

theorem decode_padf {k : Nat} {x : Bits} (rest : Bits) (hk : k ≤ 5) (h : x.length = k) :
    decode (.padf k) (x ++ rest) = .ok (.padf k, rest) :=
  (if_neg (Nat.not_lt.2 hk)).trans (decodeFixed_append rest h)

/-- Settles O1: in each format the row is the one made from the bits' value, and `decode` reads that value. -/
theorem decodeInvertsEncode : Obligations.DecodeInvertsEncode := by
  intro i f b rest hwf henc
  cases f with
  | cmd =>
    obtain ⟨hlen, rfl⟩ := (encode_cmd_iff i b).1 henc
    exact decodeFixed_append rest hlen
  | hdr =>
    match b, henc with
    | [], henc => exact absurd henc (encode_hdr_ne_nil i)
    | false :: x, henc =>
      obtain ⟨hlen, rfl⟩ := (encode_hdr_short_iff i x).1 henc
      exact decode_hdr_short rest hlen
    | true :: x, henc =>
      obtain ⟨hlen, rfl⟩ := (encode_hdr_long_iff i x).1 henc
      exact decode_hdr_long rest hlen
  | wcode =>
    obtain ⟨hlen, rfl⟩ := (encode_wcode_iff i b).1 henc
    exact decodeFixed_append rest hlen
  | elem w =>
    obtain ⟨hlen, rfl⟩ := (encode_elem_iff w i b).1 henc
    exact decodeFixed_append rest hlen
  | padf k =>
    obtain ⟨rfl, rfl⟩ := (encode_padf_iff k i b).1 henc
    exact decode_padf rest (of_decide_eq_true hwf) (zeros_length k)
  | sym =>
    obtain ⟨hlen, rfl⟩ := (encode_sym_iff i b).1 henc
    exact decodeFixed_append rest hlen
  | inBeat =>
    obtain ⟨hlen, rfl⟩ := (encode_inBeat_iff i b).1 henc
    exact decodeFixed_append rest hlen
  | outBeat =>
    obtain ⟨hlen, rfl⟩ := (encode_outBeat_iff i b).1 henc
    exact decodeFixed_append rest hlen
  | status =>
    obtain ⟨hlen, rfl⟩ := (encode_status_iff i b).1 henc
    exact decodeFixed_append rest hlen

/-! ## Encoding what was decoded -/

/-- Everything a format of fixed length can read: the row of the value of the bits it takes. -/
theorem decodeFixed_eq_ok {f : Format} {n : Nat} {row : Nat → Instr} {b rest : Bits} {i : Instr}
    (h : decodeFixed f n row b = .ok (i, rest)) : ∃ x, b = x ++ rest ∧ x.length = n ∧ i = row (val x) := by
  unfold decodeFixed at h
  split at h
  · cases h
  · next v r htake =>
    cases h
    obtain ⟨x, hb, hlen, rfl⟩ := takeField_eq_some htake
    exact ⟨x, hb, hlen, rfl⟩

/-- Settles O2: the bits a format takes determine its row, and are that row's encoding; of padding only their number
counts. -/
theorem decodedBitsAreTheEncoding : Obligations.DecodedBitsAreTheEncoding := by
  intro f b rest i hdec
  cases f with
  | cmd =>
    obtain ⟨x, hb, hlen, hi⟩ := decodeFixed_eq_ok hdec
    exact ⟨x, hb, .inl ((encode_cmd_iff i x).2 ⟨hlen, hi⟩)⟩
  | hdr =>
    match b, hdec with
    | false :: y, hdec =>
      obtain ⟨x, rfl, hlen, hi⟩ := decodeFixed_eq_ok (b := y) hdec
      exact ⟨false :: x, rfl, .inl ((encode_hdr_short_iff i x).2 ⟨hlen, hi⟩)⟩
    | true :: y, hdec =>
      obtain ⟨x, rfl, hlen, hi⟩ := decodeFixed_eq_ok (b := y) hdec
      exact ⟨true :: x, rfl, .inl ((encode_hdr_long_iff i x).2 ⟨hlen, hi⟩)⟩
  | wcode =>
    obtain ⟨x, hb, hlen, hi⟩ := decodeFixed_eq_ok hdec
    exact ⟨x, hb, .inl ((encode_wcode_iff i x).2 ⟨hlen, hi⟩)⟩
  | elem w =>
    obtain ⟨x, hb, hlen, hi⟩ := decodeFixed_eq_ok hdec
    exact ⟨x, hb, .inl ((encode_elem_iff w i x).2 ⟨hlen, hi⟩)⟩
  | padf k =>
    have hfixed : decodeFixed (.padf k) k (fun _ => .padf k) b = .ok (i, rest) := by
      by_cases hk : 5 < k
      · rw [decode, if_pos hk] at hdec
        cases hdec
      · rwa [decode, if_neg hk] at hdec
    obtain ⟨x, hb, hlen, hi⟩ := decodeFixed_eq_ok hfixed
    exact ⟨x, hb, .inr ⟨k, rfl, hi, hlen⟩⟩
  | sym =>
    obtain ⟨x, hb, hlen, hi⟩ := decodeFixed_eq_ok hdec
    exact ⟨x, hb, .inl ((encode_sym_iff i x).2 ⟨hlen, hi⟩)⟩
  | inBeat =>
    obtain ⟨x, hb, hlen, hi⟩ := decodeFixed_eq_ok hdec
    exact ⟨x, hb, .inl ((encode_inBeat_iff i x).2 ⟨hlen, hi⟩)⟩
  | outBeat =>
    obtain ⟨x, hb, hlen, hi⟩ := decodeFixed_eq_ok hdec
    exact ⟨x, hb, .inl ((encode_outBeat_iff i x).2 ⟨hlen, hi⟩)⟩
  | status =>
    obtain ⟨x, hb, hlen, hi⟩ := decodeFixed_eq_ok hdec
    exact ⟨x, hb, .inl ((encode_status_iff i x).2 ⟨hlen, hi⟩)⟩

/-- Settles O3: each word is evaluated in its format. -/
theorem writtenWordsDecode : Obligations.WrittenWordsDecode :=
  ⟨rfl, rfl, rfl, rfl, rfl, rfl, rfl, rfl, rfl, rfl⟩

end Sys2Proof.Machine
end

section
/-! The function level as a whole: the symbol codec and the header parser as inverses, the map of the bit string, what an
encoded string looks like, and the round trip (44_commands.md R203). -/

namespace Sys2Proof.Machine

/-! ## The symbol codec -/

/-- SYMDEC finds exactly the index at which the alphabet has the code unit (42_symbol_codec.md R145, R146). -/
theorem symdec_eq_some_iff {c : CodeUnit} {i : Nat} : symdec c = some i ↔ i < 64 ∧ symenc i = c := by
  refine ⟨fun h => ?_, fun ⟨hi, hc⟩ => hc ▸ symdec_symenc hi⟩
  obtain ⟨hi, hbeq, -⟩ := List.findIdx?_eq_some_iff_getElem.1 h
  refine ⟨alphabet_length ▸ hi, ?_⟩
  rw [symenc, List.getD_eq_getElem _ _ hi]
  exact eq_of_beq hbeq

theorem symenc_mem_alphabet {i : Nat} (h : i < 64) : symenc i ∈ alphabet :=
  List.mem_of_getElem? (alphabet_getElem?_eq_symenc h)

theorem symdec_eq_none_iff {c : CodeUnit} : symdec c = none ↔ c ∉ alphabet := by
  refine ⟨fun h hmem => ?_, symdec_of_not_mem⟩
  obtain ⟨i, hi⟩ := List.getElem?_of_mem hmem
  exact Option.some_ne_none i ((symdec_of_getElem? hi).symm.trans h)

/-- Settles O5: both directions of SYMDEC are one equivalence, and UNCHUNK is undone chunk by chunk. -/
theorem symbolCodecInverses : Obligations.SymbolCodecInverses :=
  ⟨fun _ hi => symdec_symenc hi, fun _ _ h => symdec_eq_some_iff.1 h, unchunk_symbols⟩

/-- The code unit of an index as a number (30_encoding.md R81). -/
theorem symenc_toNat : ∀ {i : Nat}, i < 64 → (symenc i).toNat =
    if i ≤ 25 then 65 + i else if i ≤ 51 then 71 + i else if i ≤ 61 then i - 4 else if i = 62 then 43 else 47 := by
  decide

theorem symdec_of_toNat {c : CodeUnit} {i : Nat} (hi : i < 64) (h : (symenc i).toNat = c.toNat) : symdec c = some i :=
  symdec_eq_some_iff.2 ⟨hi, BitVec.eq_of_toNat_eq h⟩

/-- Settles O4: the table of SYMENC is evaluated, and SYMDEC follows from it since the two are inverse. -/
theorem symbolTableIsArithmetic : Obligations.SymbolTableIsArithmetic := by
  refine ⟨fun i => symenc_toNat, fun c => ?_⟩
  split_ifs with hupper hlower hdigit hplus hslash
  · refine symdec_of_toNat (by omega) ?_
    rw [symenc_toNat (by omega)]
    split_ifs <;> omega
  · refine symdec_of_toNat (by omega) ?_
    rw [symenc_toNat (by omega)]
    split_ifs <;> omega
  · refine symdec_of_toNat (by omega) ?_
    rw [symenc_toNat (by omega)]
    split_ifs <;> omega
  · exact symdec_of_toNat (by decide) hplus.symm
  · exact symdec_of_toNat (by decide) hslash.symm
  · refine Option.eq_none_iff_forall_ne_some.2 fun i hsome => ?_
    obtain ⟨hi, rfl⟩ := symdec_eq_some_iff.1 hsome
    rw [symenc_toNat hi] at *
    split_ifs at * <;> omega

/-! ## The packed sequence -/

/-- Settles O6. -/
theorem hparseInvertsHdr : Obligations.HparseInvertsHdr := fun _ w x hn => hparse_hdr w x hn

/-- The length of a packed sequence: header and elements, up to the next multiple of 6 (41_bit_packer.md R128). -/
theorem pack_length (seq : List Nat) (w : Width) :
    (pack seq w).length = 6 * ((hlen seq.length + seq.length * widthBits w + 5) / 6) := by
  rw [pack_eq, List.length_append, List.length_append, hdr_length, emit_length, zeros_length]
  unfold padLen
  omega

theorem symbols_pack_length (seq : List Nat) (w : Width) :
    (symbols (pack seq w)).length = (hlen seq.length + seq.length * widthBits w + 5) / 6 := by
  rw [symbols, List.length_map, length_chunk (pack_length_mod_six _ _), pack_length]
  omega

/-- A packed sequence field by field: flag, count, width-code, elements, padding (20_memory.md R60). -/
theorem pack_fields (seq : List Nat) (w : Width) : pack seq w = lflag seq.length ::
    (bin (lenw (lflag seq.length)) seq.length ++ (wcode w ++ (emit seq w ++
      zeros (padLen (hlen seq.length + (emit seq w).length))))) := by
  rw [pack_eq, hdr]
  simp only [List.cons_append, List.append_assoc]

theorem pack_drop_hlen (seq : List Nat) (w : Width) : (pack seq w).drop (hlen seq.length) =
    emit seq w ++ zeros (padLen (hlen seq.length + (emit seq w).length)) := by
  rw [pack_eq, List.append_assoc, List.drop_left' (hdr_length _ _)]

/-- An element of a packed sequence starts where the ones before it end. -/
theorem pack_drop_take {seq : List Nat} {w : Width} {i v : Nat} (h : seq[i]? = some v) :
    ((pack seq w).drop (hlen seq.length + i * widthBits w)).take (widthBits w) = bin (widthBits w) v := by
  have hi : i < seq.length := (List.getElem?_eq_some_iff.1 h).1
  have hroom : i * widthBits w + widthBits w ≤ (emit seq w).length := by
    rw [emit_length, ← Nat.succ_mul]
    exact Nat.mul_le_mul_right _ hi
  rw [← List.drop_drop, pack_drop_hlen, List.drop_append_of_le_length (by omega),
    List.take_append_of_le_length (by rw [List.length_drop]; omega), emit_drop_take h]

/-- Settles O7: the string is its fields one after the other, and each is found by the lengths of those before it. -/
theorem bitStringMap : Obligations.BitStringMap := by
  intro seq w hcount hfits n f len h p
  have hheader : h = hlen n := hlen_eq_lenw n
  have hfields := pack_fields seq w
  refine ⟨?length, ?symbols, ?flag, ?count, ?code, fun i v hv => ?element, ?padding⟩
  case length => rw [pack_length, ← hheader]
  case symbols => rw [symbols_pack_length, ← hheader]
  case flag => rw [hfields]; rfl
  case count =>
    rw [hfields, List.drop_succ_cons, List.drop_zero]
    exact List.take_left' (bin_length _ _)
  case code =>
    have hskip : 1 + len = lenw (lflag seq.length) + 1 := Nat.add_comm _ _
    rw [hfields, hskip, List.drop_succ_cons, List.drop_left' (bin_length _ _), List.take_left' (wcode_length w)]
  case element => rw [hheader]; exact pack_drop_take hv
  case padding =>
    have hpad : p - (hlen n + n * widthBits w) = 6 * ((hlen seq.length + seq.length * widthBits w + 5) / 6) -
        (hlen seq.length + seq.length * widthBits w) := by rw [← hheader]
    have htotal := pack_length seq w
    rw [pack_eq, List.length_append, List.length_append, hdr_length, emit_length, zeros_length] at htotal
    rw [hheader, ← List.drop_drop, pack_drop_hlen, List.drop_left' (emit_length _ _), emit_length, hpad]
    exact congrArg zeros (by omega)

/-- Every symbol of a bit string is in the alphabet (42_symbol_codec.md R144). -/
theorem mem_alphabet_of_mem_symbols {b : Bits} {c : CodeUnit} (h : c ∈ symbols b) : c ∈ alphabet := by
  obtain ⟨x, hx, rfl⟩ := List.mem_map.1 h
  exact symenc_mem_alphabet (val_lt_of_length (length_of_mem_chunk hx))

/-- Settles O11: an encoded string is the symbols of a packed sequence, whose length is known. -/
theorem encodedAlphabetAndLength : Obligations.EncodedAlphabetAndLength := by
  intro seq t henc
  obtain ⟨-, hcount, rfl⟩ := (encodeFn_eq_ok_iff seq t).1 henc
  have hlength := symbols_pack_length (seq.map Int.toNat) (seqWidth (seq.map Int.toNat))
  rw [List.length_map] at hlength
  refine ⟨fun c => mem_alphabet_of_mem_symbols, hlength, ?_, ?_⟩ <;> rw [hlength]
  · have hheader : 9 ≤ hlen seq.length := by rw [hlen_eq]; split_ifs <;> decide
    omega
  · have hheader : hlen seq.length ≤ 13 := by rw [hlen_eq]; split_ifs <;> decide
    have helements := Nat.mul_le_mul hcount (widthBits_le (seqWidth (seq.map Int.toNat)))
    omega

/-! ## What UNPACK reads -/

/-- UNPACK undoes PACK where the elements fit the width (43_bit_unpacker.md R165, R166, R167). -/
theorem unpack_pack {seq : List Nat} {w : Width} (hlen : seq.length ≤ 1023) (hfits : ∀ v ∈ seq, v < 2 ^ widthBits w) :
    unpack (pack seq w) = .ok seq := by
  rw [unpack_of_header (hparse_pack w hlen), pack_eq, ← hdr_length seq.length w]
  exact elems_emit _ _ hfits

theorem fits_seqWidth {seq : List Nat} (h : ∀ v ∈ seq, v ≤ 300) : ∀ v ∈ seq, v < 2 ^ widthBits (seqWidth seq) := by
  intro v hv
  rw [seqWidth_eq_wsel]
  exact lt_width_of_le (le_seqMax hv) (seqMax_le h)

theorem map_toNat_cast (seq : List Nat) : (seq.map Nat.cast : List Int).map Int.toNat = seq := by
  rw [List.map_map]
  exact List.map_id seq

/-- ENCODE of natural numbers in range: the symbols of the packed sequence (44_commands.md R180). -/
theorem encodeFn_cast {seq : List Nat} (hlen : seq.length ≤ 1023) (h : ∀ v ∈ seq, 1 ≤ v ∧ v ≤ 300) :
    encodeFn (seq.map Nat.cast) = .ok (symbols (pack seq (seqWidth seq))) := by
  refine (encodeFn_eq_ok_iff _ _).2 ⟨fun v hv => ?_, by rwa [List.length_map], by rw [map_toNat_cast]⟩
  obtain ⟨u, hu, rfl⟩ := List.mem_map.1 hv
  have hrange := h u hu
  omega

/-- The obligation's spelling of the sequence as integers. -/
theorem map_bind_pure_cast (seq : List Nat) :
    ((do let a ← seq; pure (a : Int)).map fun v => v) = seq.map Nat.cast := by
  rw [List.map_id', bind_pure_comp, List.map_eq_map]

/-- Settles O13: UNCHUNK undoes SYMBOLS and UNPACK undoes PACK; "AB" is another string for the empty sequence. -/
theorem roundTrip : Obligations.RoundTrip := by
  refine ⟨fun seq hlen hrange => ?_, [65, 66], [65, 65], by decide⟩
  rw [map_bind_pure_cast]
  refine ⟨_, encodeFn_cast hlen hrange, ?_⟩
  rw [decodeFn_of_unchunk (unchunk_symbols _ (pack_length_mod_six _ _))]
  exact unpack_pack hlen (fits_seqWidth fun v hv => (hrange v hv).2)

/-- Everything a header that is parsed can be: a flag, a length field of its width, and the code of a width (R164). -/
theorem hparse_eq_ok {b : Bits} {n p : Nat} {w : Width} (h : hparse b = .ok (n, w, p)) :
    ∃ f l c x, b = f :: (l ++ (c ++ x)) ∧ l.length = lenw f ∧ c.length = 2 ∧ wdec (wcOfNat (val c)) = .ok w ∧
      n = val l ∧ p = 1 + lenw f + 2 := by
  cases b with
  | nil => cases h
  | cons f y =>
    have hlong : lenw f + 2 ≤ y.length := by
      by_contra hshort
      rw [hparse_cons_truncated (by rw [List.length_cons]; omega)] at h
      cases h
    obtain ⟨l, c, x, rfl, hl, hc⟩ : ∃ l c x : Bits, y = l ++ (c ++ x) ∧ l.length = lenw f ∧ c.length = 2 :=
      ⟨y.take (lenw f), (y.drop (lenw f)).take 2, (y.drop (lenw f)).drop 2, by simp only [List.take_append_drop],
        by simp; omega, by simp; omega⟩
    obtain ⟨a, d, rfl⟩ := List.length_eq_two.1 hc
    cases hw : wdec (wcOfNat (val [a, d])) with
    | ok w' =>
      rw [hparse_fields x hl hc hw] at h
      cases h
      exact ⟨f, l, _, x, rfl, hl, hc, hw, rfl, rfl⟩
    | err k i =>
      obtain ⟨rfl, rfl⟩ : a = true ∧ d = true := by revert hw; cases a <;> cases d <;> simp [val, valFrom, wcOfNat, wdec]
      have hreserved := hparse_reserved x hl
      rw [List.cons_append, List.cons_append, List.nil_append, hreserved] at h
      cases h

/-- HPARSE does not look past the header. -/
theorem hparse_take_append {b : Bits} {n p : Nat} {w : Width} (h : hparse b = .ok (n, w, p)) {k : Nat} (hk : p ≤ k)
    (x : Bits) : hparse (b.take k ++ x) = .ok (n, w, p) := by
  obtain ⟨f, l, c, y, rfl, hl, hc, hw, rfl, rfl⟩ := hparse_eq_ok h
  have hbits : f :: (l ++ (c ++ y)) = (f :: (l ++ c)) ++ y := by simp
  have hlength : (f :: (l ++ c)).length ≤ k := by rw [List.length_cons, List.length_append, hl, hc]; omega
  rw [hbits, List.take_append, List.take_of_length_le hlength]
  simpa using hparse_fields (y.take (k - (f :: (l ++ c)).length) ++ x) hl hc hw

theorem read_take_append {b : Bits} {p k m : Nat} (x : Bits) (hm : p + k ≤ m) (hb : m ≤ b.length) :
    read (b.take m ++ x) p k = read b p k := by
  have htake : (b.take m).length = m := List.length_take_of_le hb
  rw [read_ok (show p + k ≤ b.length by omega), read_ok (by rw [List.length_append]; omega), List.drop_append_of_le_length (by omega),
    List.take_append_of_le_length (by rw [List.length_drop]; omega), List.drop_take, List.take_take,
    Nat.min_eq_left (by omega)]

/-- ELEMS does not look past the last element (R166, R167). -/
theorem elems_take_append {b : Bits} {p n m : Nat} {w : Width} (x : Bits) (hm : p + n * widthBits w ≤ m)
    (hb : m ≤ b.length) : elems (b.take m ++ x) p n w = elems b p n w := by
  induction n generalizing p with
  | zero => rfl
  | succ n ih =>
    rw [Nat.succ_mul] at hm
    have hread := read_take_append x (b := b) (p := p) (k := widthBits w) (m := m) (by omega) hb
    have htail := ih (p := p + widthBits w) (by omega)
    simp only [elems, hread, read_ok (show p + widthBits w ≤ b.length by omega), htail]

/-- Settles O10: neither the header nor the elements are read past their end. -/
theorem leftoverBitsIgnored : Obligations.LeftoverBitsIgnored := by
  intro b x n p w hhdr hroom
  rw [unpack_of_header hhdr, unpack_of_header (hparse_take_append hhdr (Nat.le_add_right _ _) x),
    elems_take_append x le_rfl hroom]

/-! ## RANGECHK, PAD and TOTBITS as operations -/

theorem exec_rangechk (seq : List Int) (s : State) :
    exec (.rangechk seq) s = .next (drive (asUnit (fun _ => .pass) (rangechk seq)) s) := rfl

theorem exec_pad (b : Bits) (s : State) : exec (.pad b) s = .next (drive (.ok (.bits (pad b))) s) := rfl

theorem exec_totbits (n : Nat) (w : Width) (s : State) :
    exec (.totbits n w) s = .next (drive (.ok (.num (totbits n w))) s) := rfl

/-- Settles O16: each row drives its function's value. -/
theorem rangechkPadTotbitsResult : Obligations.RangechkPadTotbitsResult := by
  refine ⟨fun seq s hvalid => ?pass, fun seq s hbad => ?fail, fun b s => ⟨padLen b.length, padLen_le _, padLen_spec _, ?pad⟩,
    fun n w s => ?totbits⟩
  case pass => rw [exec_rangechk, rangechk_of_valid hvalid, asUnit_ok, drive_eq]
  case fail =>
    obtain ⟨v, hmem, hv⟩ := hbad
    have hinvalid : ¬ ∀ u ∈ seq, 1 ≤ u ∧ u ≤ 300 := fun h => by
      have hrange := h v hmem
      omega
    rw [exec_rangechk, rangechk_of_invalid hinvalid, asUnit_err, drive_eq]
  case pad => rw [exec_pad, pad, drive_eq]
  case totbits => rw [exec_totbits, totbits, hlen_eq, drive_eq]

end Sys2Proof.Machine
end

section
/-! The bit-serial reader, field by field (43_bit_unpacker.md R172 to R175): what a header, a width-code and an element leave,
as bits of a string and as rows executed in DEC_LOAD, and that the reader agrees with UNPACK. -/

namespace Sys2Proof.Machine

/-! ## One bit -/

theorem exec_rdstep {s : State} (x : Bool) (h : s.ph = .decLoad) : exec (.rdstep x) s = rdstep x s := if_pos h

/-- The last bit of a width-code other than the reserved one (R172). -/
theorem widthCodeRead_of_lt {n : Nat} (s : State) (h : n < 3) : widthCodeRead n s =
    .next (if s.cnt = 0 then
        { s with sh := 0, eidx := 0, wid := if n = 0 then 4 else if n = 1 then 7 else 9, rs := .done }
      else { s with sh := 0, eidx := 0, wid := if n = 0 then 4 else if n = 1 then 7 else 9, rs := .elem,
                    bcnt := if n = 0 then 4 else if n = 1 then 7 else 9 }) := by
  interval_cases n <;> rfl

theorem elementRead_of_lt {s : State} (v : Entry) (h : s.eidx.toNat < 1023) : elementRead v s =
    .next { s with
      ebuf := Memory.write s.ebuf s.eidx.toNat v, eidx := s.eidx + 1, sh := 0,
      rs := if s.eidx + 1 = s.cnt then .done else s.rs, bcnt := if s.eidx + 1 = s.cnt then s.bcnt else s.wid } := by
  have hdepth : s.eidx.toNat < Config.ebufDepth := h
  by_cases hlast : s.eidx + 1 = s.cnt
  · rw [elementRead, if_pos hdepth, if_pos hlast, if_pos hlast, if_pos hlast]
  · rw [elementRead, if_pos hdepth, if_neg hlast, if_neg hlast, if_neg hlast]

theorem shiftIn_eq (sh : BitVec 10) (x : Bool) : shiftIn sh x = BitVec.ofNat 10 (2 * sh.toNat + x.toNat) := rfl

theorem shLow9_ofNat (n : Nat) : shLow9 (BitVec.ofNat 10 n) = BitVec.ofNat 9 n :=
  BitVec.eq_of_toNat_eq (by
    simp only [shLow9, BitVec.truncate_eq_setWidth, BitVec.toNat_setWidth, BitVec.toNat_ofNat]
    omega)

/-- Settles O24: the equations of RDSTEP at each reader state, `SH'` and `BCNT'` written out. -/
theorem rdstepFollowsItsTable : Obligations.RdstepFollowsItsTable := by
  intro x s hph sh'
  rw [exec_rdstep x hph]
  have hsh : shiftIn s.sh x = BitVec.ofNat 10 sh' := shiftIn_eq s.sh x
  have hsmall : sh' ≤ 3 → (shiftIn s.sh x).toNat = sh' := fun h => by
    rw [hsh, BitVec.toNat_ofNat, Nat.mod_eq_of_lt (by omega)]
  refine ⟨fun hr => ?flag, fun hr hb => ?inside, fun hr hb => ?length, fun hr hb h3 => ?reserved,
    fun hr hb hlt hcnt => ?empty, fun hr hb hlt hcnt => ?elements, fun hr hb hi hlast => ?last,
    fun hr hb hi hlast => ?notLast, fun hr => rdstep_ignored hr⟩
  case flag => rw [rdstep_flag hr]; cases x <;> rfl
  case inside => rw [rdstep_fieldBit hr hb]; rfl
  case length => rw [rdstep_lengthRead hr hb, hsh]
  case reserved =>
    rw [rdstep_widthCodeRead hr hb, hsmall h3.le, h3]
    rfl
  case empty => rw [rdstep_widthCodeRead hr hb, hsmall hlt.le, widthCodeRead_of_lt s hlt, if_pos hcnt]
  case elements => rw [rdstep_widthCodeRead hr hb, hsmall hlt.le, widthCodeRead_of_lt s hlt, if_neg hcnt]
  case last =>
    rw [rdstep_elementRead hr hb, hsh, shLow9_ofNat, elementRead_of_lt _ hi, if_pos hlast, if_pos hlast]
  case notLast =>
    rw [rdstep_elementRead hr hb, hsh, shLow9_ofNat, elementRead_of_lt _ hi, if_neg hlast, if_neg hlast]

/-! ## One field -/

theorem feedBits_singleton (x : Bool) (s : State) : feedBits [x] s = rdstep x s := by
  rw [feedBits]
  cases rdstep x s <;> rfl

theorem feedBits_cons_of_next {x : Bool} {s t : State} (b : Bits) (h : rdstep x s = .next t) :
    feedBits (x :: b) s = feedBits b t := by
  simp only [feedBits, h]

/-- The bits of a whole field: the last of them is read with `BCNT` 1, and `SH'` is then the field's value. -/
theorem feedBits_wholeField {b : Bits} {s : State} (hr : s.rs = .len ∨ s.rs = .wc ∨ s.rs = .elem) (hsh : s.sh = 0)
    (hb : b.length = s.bcnt.toNat) (hpos : 0 < b.length) :
    ∃ x sh, feedBits b s = rdstep x { s with sh := sh, bcnt := 1 } ∧ shiftIn sh x = BitVec.ofNat 10 (val b) := by
  obtain ⟨c, x, rfl⟩ := (List.eq_nil_or_concat' b).resolve_left (List.length_pos_iff.1 hpos)
  have hc : c.length + 1 = s.bcnt.toNat := by simpa using hb
  have hfield := feedBits_field (b := c) hr (by omega)
  have hlast : s.bcnt - BitVec.ofNat 4 c.length = 1 := by
    have hlt := s.bcnt.isLt
    have hone : (1 : BitVec 4).toNat = 1 := rfl
    exact BitVec.eq_of_toNat_eq (by simp only [BitVec.toNat_sub, BitVec.toNat_ofNat]; omega)
  refine ⟨x, BitVec.ofNat 10 (val c), ?_, ?_⟩
  · rw [hlast, hsh] at hfield
    rw [feedBits_append hfield, feedBits_singleton]
    simp
  · have hval : val (c ++ [x]) = 2 * val c + x.toNat := by
      rw [val_append, val_cons]
      simp [val, valFrom]
      omega
    rw [shiftIn_eq, hval]
    exact BitVec.eq_of_toNat_eq (by simp only [BitVec.toNat_ofNat]; omega)

/-- The length field leaves its value in `CNT` (R172). -/
theorem feedBits_lengthField {l : Bits} {s : State} (hr : s.rs = .len) (hsh : s.sh = 0) (hl : l.length = s.bcnt.toNat)
    (hpos : 0 < l.length) :
    feedBits l s = .next { s with cnt := BitVec.ofNat 10 (val l), sh := 0, bcnt := 2, rs := .wc } := by
  obtain ⟨x, sh, hfeed, hval⟩ := feedBits_wholeField (.inl hr) hsh hl hpos
  rw [hfeed, rdstep_lengthRead (s := { s with sh := sh, bcnt := 1 }) hr rfl, hval]

theorem lenw_pos (f : Bool) : 0 < lenw f := by cases f <;> decide

theorem lenw_toNat (f : Bool) : (BitVec.ofNat 4 (lenw f)).toNat = lenw f := by cases f <;> rfl

/-- The flag and the length field, from the start of the header. -/
theorem feedBits_flagLength {f : Bool} {l : Bits} {s : State} (hr : s.rs = .flag) (hl : l.length = lenw f) :
    feedBits (f :: l) s =
      .next { s with flag := f, cnt := BitVec.ofNat 10 (val l), sh := 0, bcnt := 2, rs := .wc } := by
  rw [feedBits_cons_of_next l (rdstep_flag hr), feedBits_lengthField rfl rfl (hl.trans (lenw_toNat f).symm) (hl ▸ lenw_pos f)]

/-- The two bits of a width-code leave what `afterWidthCode` says. -/
theorem feedBits_widthCode {c : Bits} {s : State} (hr : s.rs = .wc) (hb : s.bcnt = 2) (hsh : s.sh = 0)
    (hc : c.length = 2) : feedBits c s = .next (afterWidthCode (wcOfNat (val c)) s) := by
  obtain ⟨x, sh, hfeed, hval⟩ := feedBits_wholeField (.inr (.inl hr)) hsh (by rw [hb, hc]; rfl) (by omega)
  have hlt : val c < 4 := val_lt_of_length hc
  rw [hfeed, rdstep_widthCodeRead (s := { s with sh := sh, bcnt := 1 }) hr rfl, hval, BitVec.toNat_ofNat,
    Nat.mod_eq_of_lt (by omega)]
  generalize val c = n at hlt
  interval_cases n <;> rfl

/-- A whole header leaves its flag, its count and what its width-code says. -/
theorem feedBits_header {f : Bool} {l c : Bits} {s : State} (hr : s.rs = .flag) (hl : l.length = lenw f)
    (hc : c.length = 2) : feedBits (f :: (l ++ c)) s =
      .next (afterWidthCode (wcOfNat (val c)) { s with flag := f, cnt := BitVec.ofNat 10 (val l) }) := by
  have hlength := feedBits_flagLength hr hl
  rw [← List.cons_append, feedBits_append hlength, feedBits_widthCode rfl rfl rfl hc]
  cases wcOfNat (val c) <;> rfl

/-- The bits of an element leave its value at `EBUF[EIDX]` (R172). -/
theorem feedBits_element {b : Bits} {w : Width} {s : State} (hr : s.rs = .elem) (hsh : s.sh = 0)
    (hb : s.bcnt = widthReg w) (hi : s.eidx.toNat < 1023) (hlen : b.length = widthBits w) :
    feedBits b s = .next { s with
      ebuf := Memory.write s.ebuf s.eidx.toNat (BitVec.ofNat 9 (val b)), eidx := s.eidx + 1, sh := 0,
      rs := if s.eidx + 1 = s.cnt then .done else .elem, bcnt := if s.eidx + 1 = s.cnt then 1 else s.wid } := by
  have hpos := widthBits_pos w
  obtain ⟨x, sh, hfeed, hval⟩ :=
    feedBits_wholeField (.inr (.inr hr)) hsh (by rw [hb, hlen, widthReg_toNat]) (hlen ▸ hpos)
  rw [hfeed, rdstep_elementRead (s := { s with sh := sh, bcnt := 1 }) hr rfl, hval, shLow9_ofNat,
    elementRead_of_lt (s := { s with sh := sh, bcnt := 1 }) _ hi, hr]

/-! ## Fields as rows in DEC_LOAD -/

/-- In DEC_LOAD, where the reader stands at its start, a field's row is its bits through RDSTEP. -/
theorem bitField_read {i : Instr} {f : Format} {b : Bits} {push : Bits → State → State} {s : State}
    (henc : encode i = some (f, b)) (hph : s.ph = .decLoad) (hi : s.icerr = false) :
    bitField i push true s = feedBits b s := by
  simp only [bitField, henc, hph, if_true, readerInput, hi, Bool.false_eq_true, if_false]

theorem exec_hdrShort (n : BitVec 6) (c : WidthCode) (s : State) :
    exec (.hdrShort n c) s = bitField (.hdrShort n c) pushHeader (atHeader s) s := rfl

theorem exec_hdrLong (n : BitVec 10) (c : WidthCode) (s : State) :
    exec (.hdrLong n c) s = bitField (.hdrLong n c) pushHeader (atHeader s) s := rfl

theorem exec_wcInstr (c : WidthCode) (s : State) :
    exec (wcInstr c) s = bitField (wcInstr c) pushBits (atWidthCode s) s := by
  cases c <;> rfl

theorem exec_elemInstr (w : Width) (v : Nat) (s : State) :
    exec (elemInstr w v) s = bitField (elemInstr w v) pushElement (atElement w s) s := by
  cases w <;> rfl

theorem encode_wcInstr (c : WidthCode) : encode (wcInstr c) = some (.wcode, bin 2 (wcNat c)) := by cases c <;> rfl

theorem atHeader_of_flag {s : State} (h : s.rs = .flag) : atHeader s = true := decide_eq_true h

theorem atWidthCode_of_wc {s : State} (hr : s.rs = .wc) (hb : s.bcnt = 2) : atWidthCode s = true := by
  simp only [atWidthCode, hr, hb, decide_true, Bool.and_self]

theorem atElement_of_elem {w : Width} {s : State} (hr : s.rs = .elem) (hb : s.bcnt = widthReg w)
    (hw : s.wid = widthReg w) : atElement w s = true := by
  simp only [atElement, hr, hb, hw, decide_true, Bool.and_self]

theorem exec_wcInstr_read {c : WidthCode} {s : State} (hph : s.ph = .decLoad) (hi : s.icerr = false) (hr : s.rs = .wc)
    (hb : s.bcnt = 2) (hsh : s.sh = 0) : exec (wcInstr c) s = .next (afterWidthCode c s) := by
  rw [exec_wcInstr, atWidthCode_of_wc hr hb, bitField_read (encode_wcInstr c) hph hi,
    feedBits_widthCode hr hb hsh (bin_length _ _), wcOfNat_val]

/-- Settles O25: a header is its flag, its length field and its width-code, read one after the other. -/
theorem headerAndWidthCodeRead : Obligations.HeaderAndWidthCodeRead := by
  refine ⟨fun s c hph hi hr => ⟨fun n => ?short, fun n => ?long⟩, fun s hph hi hr hb hsh => ?codes⟩
  case short =>
    rw [exec_hdrShort, atHeader_of_flag hr, bitField_read rfl hph hi,
      feedBits_header (f := false) (l := bin 6 n.toNat) hr (bin_length _ _) (bin_length _ _), wcOfNat_val, val_bin_of_lt n.isLt,
      BitVec.ofNat_toNat]
  case long =>
    rw [exec_hdrLong, atHeader_of_flag hr, bitField_read rfl hph hi,
      feedBits_header (f := true) (l := bin 10 n.toNat) hr (bin_length _ _) (bin_length _ _), wcOfNat_val, val_bin_of_lt n.isLt,
      BitVec.ofNat_toNat, BitVec.setWidth_eq]
  case codes =>
    have hcode := fun c => exec_wcInstr_read (c := c) hph hi hr hb hsh
    exact ⟨hcode .wc00, hcode .wc01, hcode .wc10, hcode .wc11⟩

/-- Settles O26: the row is the element's bits, and EBUF is read after its one write. -/
theorem elementRead_spec : Obligations.ElementRead := by
  intro s w v hph hi hr hwid hb hsh hidx hv
  refine ⟨Memory.write s.ebuf s.eidx.toNat (BitVec.ofNat 9 v), ?_, Memory.read_write_same _ _ _,
    fun a ha => Memory.read_write_ne _ _ ha⟩
  rw [exec_elemInstr, atElement_of_elem hr hb hwid, bitField_read (encode_elemInstr w v) hph hi,
    feedBits_element hr hsh hb hidx (bin_length _ _), val_bin_of_lt hv]

theorem exec_symInstr {i : Nat} (h : i < 64) (s : State) : exec (symInstr i) s = symbolRow i s := by
  have hrow := (symbol_of_chunk (bin_length 6 i)).2 s
  rwa [val_bin_of_lt h] at hrow

theorem symbolRow_decLoad {s : State} (i : Nat) (h : s.ph = .decLoad) : symbolRow i s = readerInput (expand i) s := by
  simp only [symbolRow, h]

/-- Settles O38: the row of a symbol is its six bits at the reader. -/
theorem symbolRead : Obligations.SymbolRead := by
  intro s i hi hph
  rw [exec_symInstr hi, symbolRow_decLoad i hph, readerInput]
  exact ⟨fun h => if_neg (Bool.eq_false_iff.1 h), fun h => if_pos h⟩

/-! ## The whole string -/

theorem read_append_left (x z : Bits) (p k : Nat) : read (x ++ z) (x.length + p) k =
    match read z p k with
    | .ok (v, q) => .ok (v, x.length + q)
    | .err e i => .err e i := by
  by_cases h : z.length < p + k
  · rw [read_truncated h, read_truncated (by rw [List.length_append]; omega)]
  · rw [read_ok (Nat.not_lt.1 h), read_ok (by rw [List.length_append]; omega), List.drop_length_add_append, Nat.add_assoc]

/-- ELEMS from the cursor on does not look at the bits before it (R166). -/
theorem elems_append_left (x z : Bits) (p n : Nat) (w : Width) : elems (x ++ z) (x.length + p) n w = elems z p n w := by
  induction n generalizing p with
  | zero => rfl
  | succ n ih =>
    rw [elems, elems, read_append_left]
    cases read z p (widthBits w) with
    | err k i => rfl
    | ok r => simp only [ih]

/-- ELEMS of a whole first element: its value, then the elements of the bits after it. -/
theorem elems_cons {x z : Bits} {n : Nat} {w : Width} {vs : List Nat} (hx : x.length = widthBits w)
    (hvs : elems z 0 n w = .ok vs) : elems (x ++ z) 0 (n + 1) w = .ok (val x :: vs) := by
  have hread := read_field [] x z
  rw [List.nil_append, List.length_nil, hx, Nat.zero_add] at hread
  refine elems_succ_of_ok hread ?_
  rw [← hx, ← hvs, ← elems_append_left x z 0, Nat.add_zero]

/-- The reader stands at the start of an element of width `w`, with `n` elements to come. -/
structure AtElements (w : Width) (n : Nat) (s : State) : Prop where
  rs : s.rs = .elem
  sh : s.sh = 0
  wid : s.wid = widthReg w
  bcnt : s.bcnt = widthReg w
  count : s.cnt.toNat = s.eidx.toNat + n

/-- The state after an element that is not the last. -/
theorem AtElements.next {w : Width} {n : Nat} {s : State} (h : AtElements w (n + 2) s) {b : Bits}
    (hb : b.length = widthBits w) : ∃ t, feedBits b s = .next t ∧ AtElements w (n + 1) t ∧ t.cnt = s.cnt ∧
      t.eidx.toNat = s.eidx.toNat + 1 ∧ t.ebuf = Memory.write s.ebuf s.eidx.toNat (BitVec.ofNat 9 (val b)) := by
  have hcount := h.count
  have hcnt := s.cnt.isLt
  have hidx : (s.eidx + 1).toNat = s.eidx.toNat + 1 := by rw [BitVec.toNat_add]; simp; omega
  have hmore : s.eidx + 1 ≠ s.cnt := fun heq => by have := congrArg BitVec.toNat heq; omega
  have hfeed := feedBits_element h.rs h.sh h.bcnt (by omega) hb
  rw [if_neg hmore, if_neg hmore] at hfeed
  refine ⟨_, hfeed, ⟨rfl, rfl, h.wid, h.wid, ?_⟩, rfl, hidx, rfl⟩
  show s.cnt.toNat = (s.eidx + 1).toNat + (n + 1)
  omega

/-- The state after the last element. -/
theorem AtElements.last {w : Width} {s : State} (h : AtElements w 1 s) {b : Bits} (hb : b.length = widthBits w) :
    ∃ t, feedBits b s = .next t ∧ t.rs = .done ∧ t.cnt = s.cnt ∧ t.wid = s.wid ∧
      t.ebuf = Memory.write s.ebuf s.eidx.toNat (BitVec.ofNat 9 (val b)) := by
  have hcount := h.count
  have hcnt := s.cnt.isLt
  have hdone : s.eidx + 1 = s.cnt := BitVec.eq_of_toNat_eq (by rw [BitVec.toNat_add]; simp; omega)
  have hfeed := feedBits_element h.rs h.sh h.bcnt (by omega) hb
  rw [if_pos hdone, if_pos hdone] at hfeed
  exact ⟨_, hfeed, rfl, rfl, rfl, rfl⟩

/-- Bits that end before the last element leave the reader among the elements. -/
theorem AtElements.truncated {w : Width} {n : Nat} {s : State} (h : AtElements w n s) {b : Bits}
    (hb : b.length < n * widthBits w) : ∃ t, feedBits b s = .next t ∧ t.rs = .elem := by
  induction n generalizing s b with
  | zero => omega
  | succ n ih =>
    by_cases hshort : b.length < widthBits w
    · have hfield := feedBits_field (b := b) (.inr (.inr h.rs)) (by rw [h.bcnt, widthReg_toNat]; exact hshort)
      exact ⟨_, hfield, h.rs⟩
    · rw [Nat.succ_mul] at hb
      have hsplit := List.take_append_drop (widthBits w) b
      cases n with
      | zero => omega
      | succ n =>
        obtain ⟨u, hfeed, hu, -⟩ := h.next (List.length_take_of_le (Nat.not_lt.1 hshort))
        obtain ⟨t, ht, hrs⟩ := ih hu (b := b.drop (widthBits w)) (by rw [List.length_drop]; omega)
        exact ⟨t, by rw [← hsplit, feedBits_append hfeed, ht], hrs⟩

/-- The entries of the buffer from `i` on are the values of the list. -/
def Holds (m : Memory) (i : Nat) (vs : List Nat) : Prop :=
  ∀ j v, vs[j]? = some v → ∃ u, Memory.read m (i + j) = some u ∧ u.toNat = v

theorem holds_cons {m : Memory} {i v : Nat} {vs : List Nat} {u : Entry} (hu : Memory.read m i = some u)
    (hv : u.toNat = v) (h : Holds m (i + 1) vs) : Holds m i (v :: vs) := by
  intro j x hx
  cases j with
  | zero =>
    obtain rfl : v = x := by simpa using hx
    exact ⟨u, hu, hv⟩
  | succ j =>
    have hrest := h j x (by simpa using hx)
    rwa [Nat.add_right_comm] at hrest

theorem ofNat9_val_toNat {w : Width} {x : Bits} (h : x.length = widthBits w) :
    (BitVec.ofNat 9 (val x)).toNat = val x := by
  have hlt := val_lt_of_length h
  have hpow : 2 ^ widthBits w ≤ 2 ^ 9 := Nat.pow_le_pow_right (by decide) (widthBits_le w)
  rw [BitVec.toNat_ofNat, Nat.mod_eq_of_lt (by omega)]

/-- Bits enough for all elements: the reader is done, and the buffer holds what ELEMS answers; entries before the first element
stay. -/
theorem AtElements.complete {w : Width} {n : Nat} {s : State} (h : AtElements w (n + 1) s) {b : Bits}
    (hb : (n + 1) * widthBits w ≤ b.length) : ∃ t vs, feedBits b s = .next t ∧ elems b 0 (n + 1) w = .ok vs ∧
      t.rs = .done ∧ t.cnt = s.cnt ∧ t.wid = widthReg w ∧ Holds t.ebuf s.eidx.toNat vs ∧
      ∀ a, a < s.eidx.toNat → Memory.read t.ebuf a = Memory.read s.ebuf a := by
  induction n generalizing s b with
  | zero =>
    have hx : (b.take (widthBits w)).length = widthBits w := List.length_take_of_le (by omega)
    obtain ⟨t, hfeed, hrs, hcnt, hwid, hebuf⟩ := h.last hx
    have hall : feedBits b s = .next t := by
      rw [← List.take_append_drop (widthBits w) b, feedBits_append hfeed, feedBits_ignored (.inl hrs)]
    have helems := elems_cons (z := b.drop (widthBits w)) (n := 0) hx rfl
    rw [List.take_append_drop] at helems
    refine ⟨t, _, hall, helems, hrs, hcnt, hwid.trans h.wid, ?_, fun a ha => ?_⟩
    · exact holds_cons (by rw [hebuf, Memory.read_write_same]) (ofNat9_val_toNat hx) fun j v hv => by cases hv
    · rw [hebuf, Memory.read_write_ne _ _ (by omega)]
  | succ n ih =>
    rw [Nat.succ_mul] at hb
    have hx : (b.take (widthBits w)).length = widthBits w := List.length_take_of_le (by omega)
    obtain ⟨u, hfeed, hu, hcnt, hidx, hebuf⟩ := h.next hx
    obtain ⟨t, vs, ht, hvs, hrs, htcnt, hwid, hholds, hkept⟩ :=
      ih hu (b := b.drop (widthBits w)) (by rw [List.length_drop]; omega)
    have hall : feedBits b s = .next t := by
      rw [← List.take_append_drop (widthBits w) b, feedBits_append hfeed, ht]
    have helems := elems_cons hx hvs
    rw [List.take_append_drop] at helems
    have hfirst : Memory.read t.ebuf s.eidx.toNat = some (BitVec.ofNat 9 (val (b.take (widthBits w)))) := by
      rw [hkept _ (by omega), hebuf, Memory.read_write_same]
    refine ⟨t, _, hall, helems, hrs, htcnt.trans hcnt, hwid, ?_, fun a ha => ?_⟩
    · exact holds_cons hfirst (ofNat9_val_toNat hx) (hidx ▸ hholds)
    · rw [hkept a (by omega), hebuf, Memory.read_write_ne _ _ (by omega)]

/-- What UNPACK's result says of the reader after the same bits (R175). -/
def ReaderAnswers (b : Bits) (t : State) : Prop :=
  match unpack b with
  | .ok vs => t.rs = .done ∧ t.cnt.toNat = vs.length ∧
      (∃ w p, hparse b = .ok (vs.length, w, p) ∧ t.wid = widthReg w) ∧ Holds t.ebuf 0 vs
  | .err .invalidWidthCode _ => t.rs = .badwc
  | .err _ _ => t.rs = .flag ∨ t.rs = .len ∨ t.rs = .wc ∨ t.rs = .elem

theorem readerAnswers_of_truncated {b : Bits} {t : State} (h : unpack b = .err .truncatedInput 0)
    (hr : t.rs = .flag ∨ t.rs = .len ∨ t.rs = .wc ∨ t.rs = .elem) : ReaderAnswers b t := by
  simp only [ReaderAnswers, h]
  exact hr

theorem readerAnswers_of_reserved {b : Bits} {t : State} (h : unpack b = .err .invalidWidthCode 0)
    (hr : t.rs = .badwc) : ReaderAnswers b t := by
  simp only [ReaderAnswers, h]
  exact hr

theorem readerAnswers_of_ok {b : Bits} {t : State} {vs : List Nat} {w : Width} {p : Nat} (h : unpack b = .ok vs)
    (hr : t.rs = .done) (hcnt : t.cnt.toNat = vs.length) (hhdr : hparse b = .ok (vs.length, w, p))
    (hwid : t.wid = widthReg w) (hholds : Holds t.ebuf 0 vs) : ReaderAnswers b t := by
  simp only [ReaderAnswers, h]
  exact ⟨hr, hcnt, ⟨w, p, hhdr, hwid⟩, hholds⟩

/-- Bits that end inside the header leave the reader in it. -/
theorem feedBits_truncatedHeader {f : Bool} {y : Bits} {s : State} (hr : s.rs = .flag)
    (h : (f :: y).length < 1 + lenw f + 2) : ∃ t, feedBits (f :: y) s = .next t ∧ (t.rs = .len ∨ t.rs = .wc) := by
  rw [List.length_cons] at h
  by_cases hlen : y.length < lenw f
  · rw [feedBits_cons_of_next y (rdstep_flag hr),
      feedBits_field (.inl rfl) (show y.length < (BitVec.ofNat 4 (lenw f)).toNat by rw [lenw_toNat]; exact hlen)]
    exact ⟨_, rfl, .inl rfl⟩
  · have hl : (y.take (lenw f)).length = lenw f := List.length_take_of_le (Nat.not_lt.1 hlen)
    have hcode : (y.drop (lenw f)).length < 2 := by rw [List.length_drop]; omega
    rw [← List.take_append_drop (lenw f) y, ← List.cons_append, feedBits_append (feedBits_flagLength hr hl),
      feedBits_field (.inr (.inl rfl)) hcode]
    exact ⟨_, rfl, .inr rfl⟩

theorem afterWidthCode_wcOfWidth (w : Width) (s : State) : afterWidthCode (wcOfWidth w) s =
    if s.cnt = 0 then { s with sh := 0, eidx := 0, bcnt := 1, wid := widthReg w, rs := .done }
    else { s with sh := 0, eidx := 0, bcnt := widthReg w, wid := widthReg w, rs := .elem } := by
  cases w <;> rfl

theorem wdec_eq_ok {c : WidthCode} {w : Width} (h : wdec c = .ok w) : c = wcOfWidth w := by
  cases c <;> cases h <;> rfl

theorem wdec_eq_err {c : WidthCode} {k : ErrKind} {i : CodeUnit} (h : wdec c = .err k i) :
    c = .wc11 ∧ k = .invalidWidthCode ∧ i = 0 := by
  cases c <;> cases h
  exact ⟨rfl, rfl, rfl⟩

/-- A whole header and any bits after it: the reserved code, no elements, elements cut short, or all of them. -/
theorem readerAnswers_of_header {f : Bool} {l c z : Bits} {s : State} (hr : s.rs = .flag) (hl : l.length = lenw f)
    (hc : c.length = 2) : ∃ t, feedBits (f :: (l ++ (c ++ z))) s = .next t ∧ ReaderAnswers (f :: (l ++ (c ++ z))) t := by
  have hbits : f :: (l ++ (c ++ z)) = (f :: (l ++ c)) ++ z := by simp
  have hfeed := feedBits_header hr hl hc
  have hcnt : (BitVec.ofNat 10 (val l)).toNat = val l := by
    have hlt := val_lt_of_length hl
    have hpow : 2 ^ lenw f ≤ 2 ^ 10 := Nat.pow_le_pow_right (by decide) (by cases f <;> decide)
    rw [BitVec.toNat_ofNat, Nat.mod_eq_of_lt (by omega)]
  cases hw : wdec (wcOfNat (val c)) with
  | err k i =>
    obtain ⟨hcode, -, -⟩ := wdec_eq_err hw
    have hc3 : c = [true, true] := by
      obtain ⟨a, d, rfl⟩ := List.length_eq_two.1 hc
      revert hcode; cases a <;> cases d <;> decide
    rw [hcode] at hfeed
    subst hc3
    refine ⟨_, by rw [hbits, feedBits_append hfeed]; exact feedBits_ignored (.inr rfl) z, ?_⟩
    exact readerAnswers_of_reserved (unpack_of_header_err (hparse_reserved z hl)) rfl
  | ok w =>
    have hhdr := hparse_fields z hl hc hw
    have hcursor : (f :: (l ++ c)).length + 0 = 1 + lenw f + 2 := by
      rw [List.length_cons, List.length_append, hl, hc]; omega
    have hunpack : unpack (f :: (l ++ (c ++ z))) = elems z 0 (val l) w := by
      rw [unpack_of_header hhdr, ← hcursor, hbits, elems_append_left]
    rw [wdec_eq_ok hw, afterWidthCode_wcOfWidth] at hfeed
    by_cases hzero : val l = 0
    · have hempty : BitVec.ofNat 10 (val l) = 0 := BitVec.eq_of_toNat_eq (hcnt.trans hzero)
      rw [if_pos hempty] at hfeed
      refine ⟨_, by rw [hbits, feedBits_append hfeed]; exact feedBits_ignored (.inl rfl) z, ?_⟩
      rw [hzero] at hunpack hhdr
      exact readerAnswers_of_ok hunpack rfl (hcnt.trans hzero) hhdr rfl fun j v hv => by cases hv
    · rw [if_neg fun heq => hzero (hcnt.symm.trans (congrArg BitVec.toNat heq))] at hfeed
      obtain ⟨n, hn⟩ := Nat.exists_eq_succ_of_ne_zero hzero
      have hat : AtElements w (n + 1) { s with
          flag := f, cnt := BitVec.ofNat 10 (val l), sh := 0, eidx := 0, bcnt := widthReg w, wid := widthReg w,
          rs := .elem } := ⟨rfl, rfl, rfl, rfl, by rw [hcnt, hn]; simp⟩
      by_cases hroom : z.length < (n + 1) * widthBits w
      · obtain ⟨t, ht, hrs⟩ := hat.truncated hroom
        have herr : unpack (f :: (l ++ (c ++ z))) = .err .truncatedInput 0 := by
          rw [hunpack, hn]
          exact elems_truncated (Nat.zero_le _) (by rw [Nat.zero_add]; exact hroom)
        exact ⟨t, by rw [hbits, feedBits_append hfeed, ht], readerAnswers_of_truncated herr (.inr (.inr (.inr hrs)))⟩
      · obtain ⟨t, vs, ht, hvs, hrs, htcnt, hwid, hholds, -⟩ := hat.complete (Nat.not_lt.1 hroom)
        obtain ⟨us, hus, hlen⟩ := elems_ok_of_le (b := z) (p := 0) (n := n + 1) (w := w)
          (by rw [Nat.zero_add]; exact Nat.not_lt.1 hroom)
        obtain rfl : vs = us := Result.ok.inj (hvs.symm.trans hus)
        have hlength : vs.length = val l := hlen.trans hn.symm
        refine ⟨t, by rw [hbits, feedBits_append hfeed, ht], ?_⟩
        exact readerAnswers_of_ok (hunpack.trans (hn ▸ hvs)) hrs (by rw [htcnt, hlength]; exact hcnt) (hlength ▸ hhdr) hwid
          hholds

/-- The reader, from its start state, answers as UNPACK does (R175). -/
theorem feedBits_answers (b : Bits) {s : State} (hr : s.rs = .flag) :
    ∃ t, feedBits b s = .next t ∧ ReaderAnswers b t := by
  cases b with
  | nil => exact ⟨s, rfl, readerAnswers_of_truncated (unpack_of_header_err hparse_nil) (.inl hr)⟩
  | cons f y =>
    by_cases hshort : (f :: y).length < 1 + lenw f + 2
    · obtain ⟨t, ht, hrs⟩ := feedBits_truncatedHeader hr hshort
      exact ⟨t, ht, readerAnswers_of_truncated (unpack_of_header_err (hparse_cons_truncated hshort))
        (hrs.elim (fun h => .inr (.inl h)) fun h => .inr (.inr (.inl h)))⟩
    · rw [List.length_cons] at hshort
      have hl : (y.take (lenw f)).length = lenw f := List.length_take_of_le (by omega)
      have hc : ((y.drop (lenw f)).take 2).length = 2 := List.length_take_of_le (by rw [List.length_drop]; omega)
      have hwhole := readerAnswers_of_header (z := (y.drop (lenw f)).drop 2) hr hl hc
      rwa [List.take_append_drop, List.take_append_drop] at hwhole

/-- Settles O14: by the form of the string's header, and induction on the elements. -/
theorem serialReaderAgrees : Obligations.SerialReaderAgrees := by
  refine ⟨fun b s hr _ _ _ _ _ _ => ?_, fun b s hr => feedBits_ignored hr b⟩
  obtain ⟨t, hfeed, hanswers⟩ := feedBits_answers b hr
  refine ⟨t, hfeed, ?_⟩
  unfold ReaderAnswers Holds at hanswers
  simp only [Nat.zero_add] at hanswers
  exact hanswers

/-! ## The rows of the units -/

/-- Settles O23: the rows without an encoding are those of the units, and each but RDSTEP drives a value. -/
theorem unitRowsChangeNoRegister : Obligations.UnitRowsChangeNoRegister := by
  intro i s henc hne
  cases i with
  | rdstep x => exact absurd rfl (hne x)
  | wsel | wcode | lflag | lenw | hdr | rangechk | emit | pad | totbits | pack | chunk | symenc | symbols | symdec
  | expand | unchunk | read | wdec | hparse | elems | unpack => exact ⟨_, rfl⟩
  | _ => cases henc

end Sys2Proof.Machine
end

section
/-! The first beat of a transaction, and the rows of the emit phases (44_commands.md R183 to R196): what each leaves, and that a
row which is not due is refused by name. -/

namespace Sys2Proof.Machine

/-! ## The first beat of a transaction -/

theorem exec_encodeCmd_idle {s : State} (h : s.ph = .idle) : exec .encodeCmd s = .next (if s.pins.inEnd then
      encLoadEnd (startTransaction false (logIn ⟨false, s.pins.inEnd, s.pins.inData⟩ s))
    else encLoadData s.pins.inData (startTransaction false (logIn ⟨false, s.pins.inEnd, s.pins.inData⟩ s))) := by
  rw [exec_encodeCmd, command_idle false h, inputBeat_idle h, loadBeat_encLoad rfl]

theorem exec_decodeCmd_idle {s : State} (h : s.ph = .idle) : exec .decodeCmd s = if s.pins.inEnd then
      .next (decLoadEnd (startTransaction true (logIn ⟨true, s.pins.inEnd, s.pins.inData⟩ s)))
    else decLoadData s.pins.inData (startTransaction true (logIn ⟨true, s.pins.inEnd, s.pins.inData⟩ s)) := by
  rw [exec_decodeCmd, command_idle true h, inputBeat_idle h, loadBeat_decLoad rfl]

/-- Settles O27: the beat that starts the transaction is processed by R185 or R186 on the reset registers. -/
theorem encodeCommandResult : Obligations.EncodeCommandResult := by
  intro s hph s0
  rw [exec_encodeCmd_idle hph]
  refine ⟨fun hend => ?empty, fun hdata hlo hhi => ?inRange, fun hdata hbad => ?outOfRange⟩
  case empty => rw [if_pos hend, encLoadEnd_of_valid rfl rfl, widthReg_wsel]; rfl
  case inRange =>
    rw [if_neg (Bool.eq_false_iff.1 hdata), encLoadData_inRange (show (0 : BitVec 10) ≠ 1023 by decide)
      ((inRange_iff _).2 ⟨hlo, hhi⟩), storeElement_eq _ hhi, if_pos (by exact hlo)]
    rfl
  case outOfRange =>
    rw [if_neg (Bool.eq_false_iff.1 hdata), encLoadData_outOfRange (show (0 : BitVec 10) ≠ 1023 by decide)
      (inRange_eq_false (by omega))]
    rfl

/-- The reader after the first symbol: the flag is the first bit, and the five others begin the length field (20_memory.md R51). -/
theorem feedBits_firstSymbol {i : Nat} {s : State} (hi : i < 64) (hr : s.rs = .flag) : feedBits (expand i) s =
    .next { s with
      rs := .len, flag := decide (32 ≤ i), bcnt := if 32 ≤ i then 5 else 1, sh := BitVec.ofNat 10 (i % 32) } := by
  have hsplit : expand i = decide (32 ≤ i) :: bin 5 i := by
    rw [expand, bin]
    congr 1
    exact decide_eq_decide.2 (by omega)
  have hval : val (bin 5 i) = i % 32 := val_bin 5 i
  rw [hsplit, feedBits_cons_of_next _ (rdstep_flag hr), feedBits_field (.inl rfl), hval, bin_length]
  · by_cases h : 32 ≤ i
    · rw [decide_eq_true h, if_pos h]; simp [lenw_true]
    · rw [decide_eq_false h, if_neg h]; simp [lenw_false]
  · rw [bin_length, lenw_toNat]
    cases decide (32 ≤ i) <;> decide

/-- Settles O28: the beat that starts the transaction is processed by R193 or R194 on the reset registers. -/
theorem decodeCommandResult : Obligations.DecodeCommandResult := by
  intro s hph s0
  rw [exec_decodeCmd_idle hph]
  have hsymbol : ∀ i, i < 64 → s.pins.inEnd = false → s.pins.inData = symenc i →
      decLoadData s.pins.inData (startTransaction true (logIn ⟨true, s.pins.inEnd, s.pins.inData⟩ s)) =
        .next { s0 with
          ph := .decLoad, rs := .len, flag := decide (32 ≤ i), bcnt := if 32 ≤ i then 5 else 1,
          sh := BitVec.ofNat 10 (i % 32) } := fun i hi hdata hsym => by
    rw [decLoadData_symbol (i := i) rfl (by rw [hsym, symdec_symenc hi]), feedBits_firstSymbol hi rfl]
    rfl
  refine ⟨fun hend => ?empty, fun hdata hbad => ?invalid, fun i hi hdata hsym => ?short,
    fun i hlo hi hdata hsym => ?long⟩
  case empty => rw [if_pos hend, decLoadEnd_of_unfinished rfl (show ReaderState.flag ≠ .badwc by decide)
      (show ReaderState.flag ≠ .done by decide), takeError_eq]; rfl
  case invalid =>
    rw [if_neg (Bool.eq_false_iff.1 hdata), decLoadData_invalid rfl (symdec_of_not_mem hbad), flagInvalidCharacter_eq]
    rfl
  case short =>
    rw [if_neg (Bool.eq_false_iff.1 hdata), hsymbol i (by omega) hdata hsym, decide_eq_false (by omega),
      if_neg (by omega), Nat.mod_eq_of_lt hi]
  case long =>
    rw [if_neg (Bool.eq_false_iff.1 hdata), hsymbol i hi hdata hsym, decide_eq_true hlo, if_pos hlo,
      show i % 32 = i - 32 by omega]

/-! ## Which step of ENC_EMIT is due -/

theorem emitStep_of_symbol {s : State} (h : 6 ≤ s.nacc.toNat) : emitStep s = .symbol := if_pos h

theorem emitStep_of_header {s : State} (h : s.nacc.toNat < 6) (hd : s.hdone = false) : emitStep s = .header := by
  rw [emitStep, if_neg (Nat.not_le.2 h), if_pos hd]

theorem emitStep_of_element {s : State} (h : s.nacc.toNat < 6) (hd : s.hdone = true)
    (hi : s.eidx.toNat < s.cnt.toNat) : emitStep s = .element := by
  rw [emitStep, if_neg (Nat.not_le.2 h), if_neg (by rw [hd]; decide), if_pos hi]

theorem emitStep_of_padding {s : State} (h : s.nacc.toNat < 6) (hd : s.hdone = true)
    (hi : s.cnt.toNat ≤ s.eidx.toNat) (hn : 0 < s.nacc.toNat) : emitStep s = .padding := by
  rw [emitStep, if_neg (Nat.not_le.2 h), if_neg (by rw [hd]; decide), if_neg (Nat.not_lt.2 hi), if_pos hn]

theorem emitStep_of_finish {s : State} (hd : s.hdone = true) (hi : s.cnt.toNat ≤ s.eidx.toNat)
    (hn : s.nacc.toNat = 0) : emitStep s = .finish := by
  rw [emitStep, if_neg (by omega), if_neg (by rw [hd]; decide), if_neg (Nat.not_lt.2 hi), if_neg (by omega)]

/-! ## Fields pushed -/

theorem fetch_encEmit {s : State} (h : s.ph = .encEmit) : fetch s = fetchEmit s := by simp only [fetch, h]

theorem fetch_header {s : State} {w : Width} (h : s.ph = .encEmit) (he : emitStep s = .header)
    (hw : s.wid = widthReg w) : fetch s = .word .hdr (hdr s.cnt.toNat w) := by
  simp only [fetch_encEmit h, fetchEmit, he, hw, widthOfReg_widthReg]

theorem fetch_element {s : State} {w : Width} {v : Entry} (h : s.ph = .encEmit) (he : emitStep s = .element)
    (hw : s.wid = widthReg w) (hv : Memory.read s.ebuf s.eidx.toNat = some v) (hlt : v.toNat < 2 ^ widthBits w) :
    fetch s = .word (.elem w) (bin (widthBits w) v.toNat) := by
  simp only [fetch_encEmit h, fetchEmit, he, hw, widthOfReg_widthReg, fetchElement, hv, hlt, if_true]

theorem fetch_padding {s : State} (h : s.ph = .encEmit) (he : emitStep s = .padding) :
    fetch s = .word (.padf (6 - s.nacc.toNat)) (zeros (6 - s.nacc.toNat)) := by
  simp only [fetch_encEmit h, fetchEmit, he]

theorem fetch_symbol {s : State} (h : s.ph = .encEmit) (he : emitStep s = .symbol) :
    fetch s = .word .sym (s.acc.take 6) := by
  simp only [fetch_encEmit h, fetchEmit, he]

theorem pushHeader_eq (b : Bits) (s : State) : pushHeader b s =
    { s with acc := s.acc ++ b, nacc := s.nacc + BitVec.ofNat 4 b.length, hdone := true } := rfl

theorem pushElement_eq (b : Bits) (s : State) : pushElement b s =
    { s with acc := s.acc ++ b, nacc := s.nacc + BitVec.ofNat 4 b.length, eidx := s.eidx + 1 } := rfl

theorem pushBits_eq (b : Bits) (s : State) :
    pushBits b s = { s with acc := s.acc ++ b, nacc := s.nacc + BitVec.ofNat 4 b.length } := rfl

theorem ofNat_widthBits (w : Width) : BitVec.ofNat 4 (widthBits w) = widthReg w := rfl

/-- Settles O34: the header that is due is the one of the registers, in the form their count selects. -/
theorem headerPushed : Obligations.HeaderPushed := by
  intro s w hph hn hd hw
  have hfetch := fetch_header hph (emitStep_of_header hn hd) hw
  refine ⟨fun hshort => ?short, fun hlong => ?long⟩
  case short =>
    rw [hdr_short hshort] at hfetch
    have henc : encode (.hdrShort (BitVec.ofNat 6 s.cnt.toNat) (wcOfWidth w)) =
        some (.hdr, false :: (bin 6 s.cnt.toNat ++ wcode w)) := by
      rw [encode, BitVec.toNat_ofNat, bin_mod, wcode]
    rw [exec_hdrShort, bitField_push henc hph hfetch, pushHeader_eq]
    simp
  case long =>
    rw [hdr_long hlong] at hfetch
    rw [exec_hdrLong, bitField_push (i := .hdrLong s.cnt (wcOfWidth w)) rfl hph hfetch, pushHeader_eq, ← wcode]
    simp

/-- Settles O35: the element that is due is the entry at `EIDX`, and its row has that word. -/
theorem elementPushed : Obligations.ElementPushed := by
  intro s w v hph hn hd hi hw hv hlt
  have hfetch := fetch_element hph (emitStep_of_element hn hd hi) hw hv hlt
  rw [exec_elemInstr, bitField_push (encode_elemInstr w v.toNat) hph hfetch, pushElement_eq, bin_length, ofNat_widthBits]

theorem exec_padf (k : Nat) (s : State) : exec (.padf k) s =
    if k = 0 ∧ s.ph = .encEmit ∧ emitStep s = .finish then .next s else bitField (.padf k) pushBits (atPadding s) s := rfl

theorem atPadding_iff (s : State) : atPadding s = true ↔ s.rs = .done ∨ s.rs = .badwc := by
  simp only [atPadding, Bool.or_eq_true, decide_eq_true_eq]

theorem bitField_decLoad {i : Instr} {f : Format} {b : Bits} {push : Bits → State → State} {s : State} (atField : Bool)
    (henc : encode i = some (f, b)) (hph : s.ph = .decLoad) :
    bitField i push atField s = if atField then readerInput b s else .refused .notEnabled := by
  simp only [bitField, henc, hph]

/-- Once the reader is done no bit changes anything, `ICERR` or not (R167, R193). -/
theorem readerInput_ignored {s : State} (b : Bits) (h : s.rs = .done ∨ s.rs = .badwc) : readerInput b s = .next s := by
  rw [readerInput, feedBits_ignored h b, ite_self]

/-- Settles O36: the padding that is due fills the chunk; none is due at the end; the reader ignores it. -/
theorem paddingPushedOrIgnored : Obligations.PaddingPushedOrIgnored := by
  refine ⟨fun s hph hn hd hi => ⟨fun hpos => ?push, fun hzero => ?nothing⟩, fun s k hk hph hr => ?ignored⟩
  case push =>
    have hfetch := fetch_padding hph (emitStep_of_padding hn hd hi hpos)
    have hsix : s.nacc + BitVec.ofNat 4 (6 - s.nacc.toNat) = 6 :=
      BitVec.eq_of_toNat_eq (by
        have hsix : (6 : BitVec 4).toNat = 6 := rfl
        simp only [BitVec.toNat_add, BitVec.toNat_ofNat]
        omega)
    rw [exec_padf, if_neg (by omega), bitField_push (i := .padf _) rfl hph hfetch, pushBits_eq, zeros_length, hsix]
  case nothing => exact if_pos ⟨rfl, hph, emitStep_of_finish hd hi hzero⟩
  case ignored =>
    rw [exec_padf, if_neg (by rw [hph]; rintro ⟨-, h, -⟩; cases h), bitField_decLoad (i := .padf k) _ rfl hph,
      if_pos ((atPadding_iff s).2 hr), readerInput_ignored _ hr]

/-! ## Beats sent -/

theorem symbolRow_encEmit {s : State} {i : Nat} (h : s.ph = .encEmit) (hf : fetch s = .word .sym (expand i)) :
    symbolRow i s = .next (deliver { fin := false, data := symenc i, status := 0 } s) := by
  simp only [symbolRow, h, hf, if_true]

theorem deliver_encEmit {s : State} (b : OutBeat) (h : s.ph = .encEmit) : deliver b s =
    { s with acc := s.acc.drop 6, nacc := s.nacc - 6, outLog := s.outLog ++ [b] } := by
  simp only [deliver, afterBeat, h, popSymbol]

theorem deliver_decEmit {s : State} (b : OutBeat) (h : s.ph = .decEmit) : deliver b s =
    { s with eidx := s.eidx + 1, outLog := s.outLog ++ [b] } := by
  simp only [deliver, afterBeat, h]

/-- Settles O37: the word that is due is the chunk of the symbol, and its beat is delivered. -/
theorem symbolSent : Obligations.SymbolSent := by
  intro s i hi hph hn hacc
  have hfetch := fetch_symbol hph (emitStep_of_symbol hn)
  rw [hacc] at hfetch
  rw [exec_symInstr hi, symbolRow_encEmit hph hfetch, deliver_encEmit _ hph]

theorem offer_decEmit {s : State} {v : Entry} (h : s.ph = .decEmit) (hi : s.eidx.toNat < s.cnt.toNat)
    (hv : Memory.read s.ebuf s.eidx.toNat = some v) : offer s = some (elementBeat v) := by
  simp only [offer, h, if_pos hi, hv, Option.map_some]

theorem elementBeat_eq (v : Entry) : elementBeat v = { fin := false, data := BitVec.ofNat 16 v.toNat, status := 0 } := by
  rw [elementBeat, zext16, BitVec.ofNat_toNat]

/-- Settles O39: the element is the beat that is offered. -/
theorem elementSent : Obligations.ElementSent := by
  intro s v hph hi hv
  rw [execOutBeat_of_offer ((offer_decEmit hph hi hv).trans (congrArg some (elementBeat_eq v))), deliver_decEmit _ hph]

/-! ## Rows that are not due -/

/-- Settles O42. -/
theorem reservedStatusStops : Obligations.ReservedStatusStops := fun _ => ⟨rfl, rfl⟩

theorem bitField_refused_idle {i : Instr} {f : Format} {b : Bits} {push : Bits → State → State} {atField : Bool}
    {s : State} (henc : encode i = some (f, b))
    (hph : s.ph = .idle ∨ s.ph = .encLoad ∨ s.ph = .decEmit ∨ s.ph = .report) :
    bitField i push atField s = .refused .notEnabled := by
  rcases hph with h | h | h | h <;> simp only [bitField, henc, h]

theorem bitField_refused_encEmit {i : Instr} {f : Format} {b : Bits} {push : Bits → State → State} {atField : Bool}
    {s : State} (henc : encode i = some (f, b)) (hph : s.ph = .encEmit) (hf : fetch s ≠ .word f b) :
    bitField i push atField s = .refused .notEnabled := by
  simp only [bitField, henc, hph, if_neg hf]

theorem symbolRow_refused_idle {s : State} (i : Nat)
    (hph : s.ph = .idle ∨ s.ph = .encLoad ∨ s.ph = .decEmit ∨ s.ph = .report) :
    symbolRow i s = .refused .notEnabled := by
  rcases hph with h | h | h | h <;> simp only [symbolRow, h]

theorem symbolRow_refused_encEmit {s : State} {i : Nat} (hph : s.ph = .encEmit)
    (hf : fetch s ≠ .word .sym (expand i)) : symbolRow i s = .refused .notEnabled := by
  simp only [symbolRow, hph, if_neg hf]

/-- The row of a header, a width-code, an element or padding is a field at its place in the string. -/
theorem exec_field {i : Instr} {f : Format} {b : Bits} (s : State) (henc : encode i = some (f, b))
    (hf : f = .hdr ∨ f = .wcode ∨ (∃ w, f = .elem w) ∨ ∃ k, f = .padf k)
    (hpad : f = .padf 0 → s.ph = .encEmit → emitStep s ≠ .finish) :
    ∃ push atField, exec i s = bitField i push atField s ∧
      (f = .hdr → atField = atHeader s) ∧ (f = .wcode → atField = atWidthCode s) ∧
      (∀ w, f = .elem w → atField = atElement w s) ∧ (∀ k, f = .padf k → atField = atPadding s) := by
  rcases hf with rfl | rfl | ⟨w, rfl⟩ | ⟨k, rfl⟩
  · refine ⟨pushHeader, atHeader s, ?_, fun _ => rfl, nofun, nofun, nofun⟩
    match b, henc with
    | [], henc => exact absurd henc (encode_hdr_ne_nil i)
    | false :: x, henc => obtain ⟨-, rfl⟩ := (encode_hdr_short_iff i x).1 henc; rfl
    | true :: x, henc => obtain ⟨-, rfl⟩ := (encode_hdr_long_iff i x).1 henc; rfl
  · obtain ⟨-, rfl⟩ := (encode_wcode_iff i b).1 henc
    exact ⟨pushBits, atWidthCode s, exec_wcInstr _ s, nofun, fun _ => rfl, nofun, nofun⟩
  · obtain ⟨-, rfl⟩ := (encode_elem_iff w i b).1 henc
    exact ⟨pushElement, atElement w s, exec_elemInstr w _ s, nofun, nofun, fun u hu => by cases hu; rfl, nofun⟩
  · obtain ⟨rfl, rfl⟩ := (encode_padf_iff k i b).1 henc
    refine ⟨pushBits, atPadding s, ?_, nofun, nofun, nofun, fun _ _ => rfl⟩
    rw [exec_padf, if_neg]
    rintro ⟨rfl, hph, hfin⟩
    exact hpad rfl hph hfin

theorem exec_sym_of_encode {i : Instr} {b : Bits} (henc : encode i = some (.sym, b)) :
    ∃ n, b = expand n ∧ ∀ s, exec i s = symbolRow n s := by
  obtain ⟨hlen, rfl⟩ := (encode_sym_iff i b).1 henc
  exact ⟨val b, (expand_val hlen).symm, exec_symInstr (val_lt_of_length hlen)⟩

theorem execOutBeat_refused {fin : Bool} {d : CodeUnit} {st : BitVec 3} {s : State}
    (h : offer s ≠ some { fin := fin, data := d, status := st }) : exec (.outBeat fin d st) s = .refused .notEnabled :=
  if_neg h

/-- The row of a status code that is produced is the report of that code (R188). -/
theorem exec_statusInstr {k : Nat} (h : k ≤ 5) (s : State) :
    exec (statusInstr k) s = reportStatus (BitVec.ofNat 3 k) s := by
  interval_cases k <;> rfl

theorem reportStatus_refused {code : BitVec 3} {s : State} (h : ¬ (s.ph = .report ∧ s.status = code)) :
    reportStatus code s = .refused .notEnabled := if_neg h

/-- In DEC_LOAD a field is refused where the reader does not stand at its start. -/
theorem exec_field_refused_decLoad {i : Instr} {f : Format} {b : Bits} {s : State} (henc : encode i = some (f, b))
    (hph : s.ph = .decLoad)
    (hf : (f = .hdr ∧ atHeader s = false) ∨ (f = .wcode ∧ atWidthCode s = false) ∨
      (∃ w, f = .elem w ∧ atElement w s = false) ∨ (∃ k, f = .padf k) ∧ atPadding s = false) :
    exec i s = .refused .notEnabled := by
  have hfield : f = .hdr ∨ f = .wcode ∨ (∃ w, f = .elem w) ∨ ∃ k, f = .padf k := by
    rcases hf with ⟨h, -⟩ | ⟨h, -⟩ | ⟨w, h, -⟩ | ⟨h, -⟩
    · exact .inl h
    · exact .inr (.inl h)
    · exact .inr (.inr (.inl ⟨w, h⟩))
    · exact .inr (.inr (.inr h))
  obtain ⟨push, atField, hexec, hhdr, hwc, helem, hpadf⟩ :=
    exec_field s henc hfield fun _ h => by rw [hph] at h; cases h
  have hat : atField = false := by
    rcases hf with ⟨h, hno⟩ | ⟨h, hno⟩ | ⟨w, h, hno⟩ | ⟨⟨k, h⟩, hno⟩
    · rw [hhdr h, hno]
    · rw [hwc h, hno]
    · rw [helem w h, hno]
    · rw [hpadf k h, hno]
  rw [hexec, bitField_decLoad _ henc hph, hat, if_neg Bool.false_ne_true]

/-- Settles O43: fields and symbols by phase, with the reader's place in DEC_LOAD; then output beats, status codes, RDSTEP. -/
theorem refusedByName : Obligations.RefusedByName := by
  refine ⟨fun i f b s henc hf => ⟨fun hph => ?waits, fun hph hfetch hpad => ?encEmit, fun hph hh hr => ?header,
    fun hph hh hr => ?widthCode, fun hph hh => ?element, fun hph hh hd hb => ?padding⟩,
    fun fin d st s => execOutBeat_refused, fun k s hk hno => ?status, fun x s hph => if_neg hph⟩
  case waits =>
    by_cases hsym : f = .sym
    · subst hsym
      obtain ⟨n, -, hexec⟩ := exec_sym_of_encode henc
      rw [hexec, symbolRow_refused_idle n hph]
    · have hpad : f = .padf 0 → s.ph = .encEmit → emitStep s ≠ .finish := fun _ h => by simp [h] at hph
      obtain ⟨push, atField, hexec, -⟩ := exec_field s henc (by tauto) hpad
      rw [hexec, bitField_refused_idle henc hph]
  case encEmit =>
    by_cases hsym : f = .sym
    · subst hsym
      obtain ⟨n, rfl, hexec⟩ := exec_sym_of_encode henc
      rw [hexec, symbolRow_refused_encEmit hph hfetch]
    · obtain ⟨push, atField, hexec, -⟩ := exec_field s henc (by tauto) fun h _ => hpad h
      rw [hexec, bitField_refused_encEmit henc hph hfetch]
  case header => exact exec_field_refused_decLoad henc hph (.inl ⟨hh, decide_eq_false hr⟩)
  case widthCode =>
    refine exec_field_refused_decLoad henc hph (.inr (.inl ⟨hh, ?_⟩))
    rcases hr with hr | hr
    · rw [atWidthCode, decide_eq_false hr, Bool.false_and]
    · rw [atWidthCode, decide_eq_false hr, Bool.and_false]
  case element =>
    obtain ⟨w, hw, hr⟩ := hh
    refine exec_field_refused_decLoad henc hph (.inr (.inr (.inl ⟨w, hw, ?_⟩)))
    rcases hr with hr | hr | hr <;> simp [atElement, hr]
  case padding =>
    exact exec_field_refused_decLoad henc hph (.inr (.inr (.inr ⟨hh, by simp [atPadding, hd, hb]⟩)))
  case status =>
    rw [exec_statusInstr hk]
    refine reportStatus_refused fun ⟨hph, hst⟩ => hno.elim (fun h => h hph) fun h => h ?_
    rw [hst, BitVec.toNat_ofNat, Nat.mod_eq_of_lt (by omega)]

end Sys2Proof.Machine
end

section
/-! One clock edge (44_commands.md R205; 10_state.md R23, R30, R34): which row it runs, which beats move, what waits, and which
flags it can set. -/

namespace Sys2Proof.Machine

/-! ## The three kinds of edge -/

theorem clockEdge_input {e : Pins} {s : State} (hrst : e.rst = false) (hhost : hostBreaks e s = false)
    (ha : acceptsInput s = true) : clockEdge e s = inputEdge e s := by
  simp only [clockEdge, hrst, hhost, ha, Bool.false_eq_true, if_false, if_true]

theorem clockEdge_output {e : Pins} {s : State} (hrst : e.rst = false) (hhost : hostBreaks e s = false)
    (hdue : beatDue s = true) : clockEdge e s = outputEdge e s := by
  simp only [clockEdge, hrst, hhost, not_acceptsInput_of_beatDue hdue, hdue, Bool.false_eq_true, if_false, if_true]

theorem clockEdge_internal {e : Pins} {s : State} (hrst : e.rst = false) (hhost : hostBreaks e s = false)
    (ha : acceptsInput s = false) (hdue : beatDue s = false) : clockEdge e s = internalEdge e s := by
  simp only [clockEdge, hrst, hhost, ha, hdue, Bool.false_eq_true, if_false]

theorem inputEdge_taken {e : Pins} (s : State) (hvalid : e.inValid = true) (hgo : e.go = true) :
    inputEdge e s = runPosition { s with pend := none } := by
  simp only [inputEdge, hvalid, hgo, Bool.and_self, if_true]

theorem inputEdge_waits {e : Pins} (s : State) (h : (e.inValid && e.go) = false) :
    inputEdge e s = .next (keepPresented e s) := by
  simp only [inputEdge, h, Bool.false_eq_true, if_false]

theorem outputEdge_given {e : Pins} {s : State} (hvalid : (s.outValid || e.go) = true) (hready : e.outReady = true) :
    outputEdge e s = runPosition { keepPresented e s with outValid := false } := by
  simp only [outputEdge, hvalid, hready, if_true]

theorem outputEdge_offered {e : Pins} {s : State} (hvalid : (s.outValid || e.go) = true) (hready : e.outReady = false) :
    outputEdge e s = .next { keepPresented e s with outValid := true } := by
  simp only [outputEdge, hvalid, hready, Bool.false_eq_true, if_false, if_true]

theorem outputEdge_waits {e : Pins} {s : State} (hvalid : (s.outValid || e.go) = false) :
    outputEdge e s = .next (keepPresented e s) := by
  simp only [outputEdge, hvalid, Bool.false_eq_true, if_false]

theorem internalEdge_go {e : Pins} (s : State) (h : e.go = true) : internalEdge e s = runPosition (keepPresented e s) :=
  if_pos h

theorem internalEdge_waits {e : Pins} (s : State) (h : e.go = false) : internalEdge e s = .next (keepPresented e s) :=
  if_neg (Bool.eq_false_iff.1 h)

theorem or_eq_true_of_or {a b : Bool} (h : a = true ∨ b = true) : (a || b) = true := Bool.or_eq_true_iff.2 h

/-- Settles O44: the handshake decides the kind of edge and the state it runs on, and `runPosition` the row. -/
theorem stepRunsDecodedRow : Obligations.StepRunsDecodedRow := by
  intro s e rest f b i hedges hrst hhost hwf hfetch hdec shown
  rw [step_edge hedges]
  refine ⟨fun ha hvalid hgo => ?input, fun hdue hready hvalid => ?output, fun ha hdue hgo => ?internal⟩
  case input =>
    rw [clockEdge_input (s := sampled e rest s) hrst hhost ha, inputEdge_taken _ hvalid hgo]
    exact runPosition_word (s := { sampled e rest s with pend := none }) hfetch hdec
  case output =>
    rw [clockEdge_output (s := sampled e rest s) hrst hhost hdue,
      outputEdge_given (s := sampled e rest s) (or_eq_true_of_or hvalid) hready]
    exact runPosition_word (s := { keepPresented e (sampled e rest s) with outValid := false }) hfetch hdec
  case internal =>
    rw [clockEdge_internal (s := sampled e rest s) hrst hhost ha hdue, internalEdge_go _ hgo]
    exact runPosition_word (s := keepPresented e (sampled e rest s)) hfetch hdec

/-- Settles O46: an edge at which the handshake is not met leaves `keepPresented`, with `out_valid` up once a beat is offered. -/
theorem untakenBeatsWait : Obligations.UntakenBeatsWait := by
  refine ⟨fun s op fin d hph => inputBeat_waits hph, fun s e rest hedges hrst hhost => ?_⟩
  intro t
  rw [step_edge hedges]
  refine ⟨fun ha hno => ?input, fun hdue hvalid hready => ⟨?offered, hdue, rfl⟩, fun hdue hno hgo => ?notOffered,
    fun ha hdue hgo => ?internal⟩
  case input =>
    rw [clockEdge_input (s := sampled e rest s) hrst hhost ha, inputEdge_waits _ (Bool.and_eq_false_iff.2 hno)]
    rfl
  case offered =>
    rw [clockEdge_output (s := sampled e rest s) hrst hhost hdue,
      outputEdge_offered (s := sampled e rest s) (or_eq_true_of_or hvalid) hready]
    rfl
  case notOffered =>
    rw [clockEdge_output (s := sampled e rest s) hrst hhost hdue,
      outputEdge_waits (s := sampled e rest s) (Bool.or_eq_false_iff.2 ⟨hno, hgo⟩)]
    rfl
  case internal =>
    rw [clockEdge_internal (s := sampled e rest s) hrst hhost ha hdue, internalEdge_waits _ hgo]
    rfl

theorem acceptsInput_emit {s : State} (h : s.ph = .encEmit ∨ s.ph = .decEmit) : acceptsInput s = false := by
  rcases h with h | h <;> simp [acceptsInput, h]

/-- Settles O40: nothing is due and no input is taken, so the edge takes the internal step. -/
theorem emitPhasesEndInReport : Obligations.EmitPhasesEndInReport := by
  intro s e rest hedges hrst hhost hgo
  rw [step_edge hedges]
  refine ⟨fun hph hd hi hn => ?encode, fun hph hi => ?decode⟩
  case encode =>
    have hstep : emitStep s = .finish := emitStep_of_finish hd hi (by rw [hn]; rfl)
    have hdue : beatDue s = false := Bool.eq_false_iff.2 fun h => by
      rw [(beatDue_encEmit hph).1 h] at hstep
      cases hstep
    rw [clockEdge_internal (s := sampled e rest s) hrst hhost (acceptsInput_emit (.inl hph)) hdue, internalEdge_go _ hgo,
      runPosition_encFinish (s := keepPresented e (sampled e rest s)) hph hstep]
    rfl
  case decode =>
    have hdue : beatDue s = false := Bool.eq_false_iff.2 fun h => by
      have hlt := (beatDue_decEmit hph).1 h
      rw [hi] at hlt
      exact lt_irrefl _ hlt
    rw [clockEdge_internal (s := sampled e rest s) hrst hhost (acceptsInput_emit (.inr hph)) hdue, internalEdge_go _ hgo,
      runPosition_decFinish (s := keepPresented e (sampled e rest s)) hph (by exact hi ▸ le_refl _)]
    rfl

/-! ## The beats that move -/

/-- `t` differs from `s` in the registers and EBUF at most: the pins, `out_valid` and the model's own fields stay. -/
def RegsOnly (s t : State) : Prop :=
  t = { s with
    ph := t.ph, cnt := t.cnt, max := t.max, wid := t.wid, eidx := t.eidx, hdone := t.hdone, acc := t.acc, nacc := t.nacc,
    rs := t.rs, flag := t.flag, bcnt := t.bcnt, sh := t.sh, rerr := t.rerr, ovf := t.ovf, icerr := t.icerr,
    badc := t.badc, status := t.status, info := t.info, ebuf := t.ebuf }

/-- `t` differs from `s` in the registers of the emit phases, the phase and the record of output beats at most. -/
def EmitOnly (s t : State) : Prop :=
  t = { s with
    ph := t.ph, eidx := t.eidx, hdone := t.hdone, acc := t.acc, nacc := t.nacc, outLog := t.outLog }

theorem ReaderOnly.regsOnly {s t : State} (h : ReaderOnly s t) : RegsOnly s t := by
  unfold RegsOnly
  rw [h]

/-- A beat of a load phase changes registers and EBUF at most (R185, R186, R193, R194). -/
theorem loadBeat_frame {b : InBeat} {s t : State} (h : loadBeat b s = .next t) : RegsOnly s t := by
  rcases loadBeat_next h with ⟨-, -, rfl⟩ | ⟨-, -, rfl⟩ | ⟨-, -, rfl⟩ | ⟨-, -, hdata⟩ | ⟨-, -, rfl⟩
  · rcases encLoadEnd_cases s with ⟨-, he⟩ | ⟨-, -, he⟩ | ⟨-, -, he⟩ <;> rw [he] <;> rfl
  · rcases encLoadData_cases b.data s with ⟨-, -, he⟩ | ⟨-, -, he⟩ | ⟨-, -, he⟩ | ⟨-, -, he⟩ <;> rw [he] <;> rfl
  · rcases decLoadEnd_cases s with ⟨-, he⟩ | ⟨-, -, he⟩ | ⟨-, -, he⟩ | ⟨-, -, -, he⟩ <;> rw [he] <;> rfl
  · rcases decLoadData_next hdata with ⟨-, rfl⟩ | ⟨-, -, rfl⟩ | ⟨-, i, -, hfeed⟩
    · rfl
    · rfl
    · exact (feedBits_frame hfeed).regsOnly
  · rfl

theorem deliver_frame (b : OutBeat) (s : State) : EmitOnly s (deliver b s) := by
  rcases deliver_cases b s with ⟨-, hd⟩ | ⟨-, hd⟩ | ⟨-, hd⟩ | ⟨-, hd⟩ <;> rw [hd] <;> rfl

/-- Outside IDLE and the load phases running the position changes the registers of the emit phases at most (R187, R188, R196). -/
theorem runPosition_frame {s t : State} (ha : acceptsInput s = false) (h : runPosition s = .next t) : EmitOnly s t := by
  rcases runPosition_next h with ⟨hp, -⟩ | ⟨-, hstep⟩ | ⟨-, hstep⟩ | ⟨-, -, rfl⟩
  · exact absurd ((acceptsInput_iff s).2 hp) (Bool.eq_false_iff.1 ha)
  · rcases hstep with ⟨-, -, rfl⟩ | ⟨-, w, -, rfl⟩ | ⟨-, w, v, -, -, -, rfl⟩ | ⟨-, rfl⟩ | ⟨-, rfl⟩
    · exact deliver_frame _ s
    all_goals rfl
  · rcases hstep with ⟨-, v, -, rfl⟩ | ⟨-, rfl⟩
    · exact deliver_frame _ s
    · rfl
  · exact deliver_frame _ s

/-- A beat that is taken is recorded, and no output beat moves (R23). -/
theorem inputBeat_logs {b : InBeat} {s t : State} (ha : acceptsInput s = true) (h : inputBeat b s = .next t) :
    t.inLog = s.inLog ++ [b] ∧ t.outLog = s.outLog := by
  rcases (acceptsInput_iff s).1 ha with hp | hp
  · rw [inputBeat_idle hp] at h
    rw [loadBeat_frame h]
    exact ⟨rfl, rfl⟩
  · rw [inputBeat_load hp] at h
    rw [loadBeat_frame h]
    exact ⟨rfl, rfl⟩

/-- Where a beat is due, running the position delivers the offered beat (R23). -/
theorem runPosition_delivers {s t : State} (hdue : beatDue s = true) (h : runPosition s = .next t) :
    ∃ o, offer s = some o ∧ t = deliver o s := by
  rcases runPosition_next h with ⟨hp, -⟩ | ⟨hp, hstep⟩ | ⟨hp, hstep⟩ | ⟨hp, -, rfl⟩
  · exact absurd ((acceptsInput_iff s).2 hp) (Bool.eq_false_iff.1 (not_acceptsInput_of_beatDue hdue))
  · have hsym := (beatDue_encEmit hp).1 hdue
    have hn : 6 ≤ s.nacc.toNat := by
      rcases emitStep_cases s with ⟨-, hn⟩ | ⟨he, -⟩ | ⟨he, -⟩ | ⟨he, -⟩ | ⟨he, -⟩
      · exact hn
      all_goals exact absurd (hsym.symm.trans he) (by decide)
    rw [hsym] at hstep
    rcases hstep with ⟨-, -, rfl⟩ | ⟨he, -⟩ | ⟨he, -⟩ | ⟨he, -⟩ | ⟨he, -⟩
    · exact ⟨_, by simp only [offer, hp, if_pos hn], rfl⟩
    all_goals cases he
  · have hlt := (beatDue_decEmit hp).1 hdue
    rcases hstep with ⟨-, v, hv, rfl⟩ | ⟨hle, -⟩
    · exact ⟨_, offer_decEmit hp hlt hv, rfl⟩
    · exact absurd hlt (Nat.not_lt.2 hle)
  · exact ⟨_, offer_report hp, rfl⟩

/-- An internal step moves no beat. -/
theorem runPosition_internal_logs {s t : State} (ha : acceptsInput s = false) (hdue : beatDue s = false)
    (h : runPosition s = .next t) : t.inLog = s.inLog ∧ t.outLog = s.outLog := by
  rcases runPosition_next h with ⟨hp, -⟩ | ⟨hp, hstep⟩ | ⟨hp, hstep⟩ | ⟨hp, -, -⟩
  · exact absurd ((acceptsInput_iff s).2 hp) (Bool.eq_false_iff.1 ha)
  · rcases hstep with ⟨he, -⟩ | ⟨-, w, -, rfl⟩ | ⟨-, w, v, -, -, -, rfl⟩ | ⟨-, rfl⟩ | ⟨-, rfl⟩
    · exact absurd ((beatDue_encEmit hp).2 he) (Bool.eq_false_iff.1 hdue)
    all_goals exact ⟨rfl, rfl⟩
  · rcases hstep with ⟨hlt, -⟩ | ⟨-, rfl⟩
    · exact absurd ((beatDue_decEmit hp).2 hlt) (Bool.eq_false_iff.1 hdue)
    · exact ⟨rfl, rfl⟩
  · exact absurd (beatDue_report hp) (Bool.eq_false_iff.1 hdue)

theorem beatTaken_of_not_acceptsInput {e : Pins} {s : State} (h : acceptsInput s = false) : beatTaken e s = false := by
  simp only [beatTaken, inReady, h, Bool.false_and, Bool.and_false]

theorem beatGiven_of_not_beatDue {e : Pins} {s : State} (h : beatDue s = false) : beatGiven e s = false := by
  simp only [beatGiven, outValidAt_of_not_beatDue e h, Bool.false_and]

/-- What the two records are after an edge: one beat more exactly at its handshake. -/
def LogsMove (e : Pins) (s t : State) : Prop :=
  (beatTaken e s = true → t.inLog = s.inLog ++ [e.beat]) ∧ (beatTaken e s = false → t.inLog = s.inLog) ∧
  (beatGiven e s = true → ∃ o, offer s = some o ∧ t.outLog = s.outLog ++ [o]) ∧
  (beatGiven e s = false → t.outLog = s.outLog)

theorem logsMove_of_input {e : Pins} {s t : State} (htaken : beatTaken e s = true) (hgiven : beatGiven e s = false)
    (hin : t.inLog = s.inLog ++ [e.beat]) (hout : t.outLog = s.outLog) : LogsMove e s t :=
  ⟨fun _ => hin, fun h => absurd (htaken.symm.trans h) (by decide), fun h => absurd (hgiven.symm.trans h) (by decide),
    fun _ => hout⟩

theorem logsMove_of_output {e : Pins} {s t : State} {o : OutBeat} (htaken : beatTaken e s = false)
    (hgiven : beatGiven e s = true) (hoffer : offer s = some o) (hin : t.inLog = s.inLog)
    (hout : t.outLog = s.outLog ++ [o]) : LogsMove e s t :=
  ⟨fun h => absurd (htaken.symm.trans h) (by decide), fun _ => hin, fun _ => ⟨o, hoffer, hout⟩,
    fun h => absurd (hgiven.symm.trans h) (by decide)⟩

theorem logsMove_of_none {e : Pins} {s t : State} (htaken : beatTaken e s = false) (hgiven : beatGiven e s = false)
    (hin : t.inLog = s.inLog) (hout : t.outLog = s.outLog) : LogsMove e s t :=
  ⟨fun h => absurd (htaken.symm.trans h) (by decide), fun _ => hin, fun h => absurd (hgiven.symm.trans h) (by decide),
    fun _ => hout⟩

theorem inputEdge_logs {e : Pins} {s t : State} (hpins : s.pins = e) (hrst : e.rst = false)
    (ha : acceptsInput s = true) (h : inputEdge e s = .next t) : LogsMove e s t := by
  have hgiven : beatGiven e s = false := beatGiven_of_not_beatDue (beatDue_of_acceptsInput ha)
  rcases inputEdge_next h with ⟨hvalid, hgo, hrun⟩ | ⟨hnot, rfl⟩
  · rw [runPosition_input (s := { s with pend := none }) ha] at hrun
    obtain ⟨hin, hout⟩ := inputBeat_logs (s := { s with pend := none }) ha hrun
    subst hpins
    exact logsMove_of_input (by rw [beatTaken_eq ha hrst, hvalid, hgo]; rfl) hgiven hin hout
  · exact logsMove_of_none ((beatTaken_eq ha hrst).trans hnot) hgiven rfl rfl

theorem outputEdge_logs {e : Pins} {s t : State} (hrst : e.rst = false) (hdue : beatDue s = true)
    (h : outputEdge e s = .next t) : LogsMove e s t := by
  have htaken : beatTaken e s = false := beatTaken_of_not_acceptsInput (not_acceptsInput_of_beatDue hdue)
  have hgiven := beatGiven_eq hdue hrst
  rcases outputEdge_next h with ⟨hvalid, hready, hrun⟩ | ⟨-, hready, rfl⟩ | ⟨hvalid, rfl⟩
  · obtain ⟨o, hoffer, rfl⟩ := runPosition_delivers (s := { keepPresented e s with outValid := false }) hdue hrun
    exact logsMove_of_output htaken (by rw [hgiven, hvalid, hready]; rfl) hoffer (deliver_inLog _ _) (deliver_outLog _ _)
  · exact logsMove_of_none htaken (by rw [hgiven, hready, Bool.and_false]) rfl rfl
  · exact logsMove_of_none htaken (by rw [hgiven, hvalid, Bool.false_and]) rfl rfl

theorem internalEdge_logs {e : Pins} {s t : State} (ha : acceptsInput s = false) (hdue : beatDue s = false)
    (h : internalEdge e s = .next t) : LogsMove e s t := by
  have htaken : beatTaken e s = false := beatTaken_of_not_acceptsInput ha
  have hgiven : beatGiven e s = false := beatGiven_of_not_beatDue hdue
  rcases internalEdge_next h with ⟨-, hrun⟩ | ⟨-, rfl⟩
  · obtain ⟨hin, hout⟩ := runPosition_internal_logs (s := keepPresented e s) ha hdue hrun
    exact logsMove_of_none htaken hgiven hin hout
  · exact logsMove_of_none htaken hgiven rfl rfl

/-- Settles O45: by the kind of edge; a reset holds both handshakes low. -/
theorem onlyHandshakesMoveBeats : Obligations.OnlyHandshakesMoveBeats := by
  intro s t e rest hedges hstep
  suffices hlogs : LogsMove e s t from hlogs
  rw [step_edge hedges] at hstep
  rcases clockEdge_next hstep with ⟨hrst, rfl⟩ | ⟨hrst, -, ⟨ha, h⟩ | ⟨-, hdue, h⟩ | ⟨ha, hdue, h⟩⟩
  · refine logsMove_of_none ?_ ?_ rfl rfl
    · rw [beatTaken, inReady_of_rst s hrst, Bool.and_false]
    · rw [beatGiven, outValidAt_of_rst s hrst, Bool.false_and]
  · exact inputEdge_logs (s := sampled e rest s) rfl hrst ha h
  · exact outputEdge_logs (s := sampled e rest s) hrst hdue h
  · exact internalEdge_logs (s := sampled e rest s) ha hdue h

/-! ## The flags -/

/-- The four registers of the flags: `RERR`, `OVF`, `ICERR` and `BADC`. -/
def flagRegs (s : State) : Bool × Bool × Bool × CodeUnit := (s.rerr, s.ovf, s.icerr, s.badc)

/-- Outside IDLE and the load phases running the position changes no flag. -/
theorem runPosition_flagRegs {s t : State} (ha : acceptsInput s = false) (h : runPosition s = .next t) :
    flagRegs t = flagRegs s := by
  rw [runPosition_frame ha h]
  rfl

/-- What an edge may do to the flags of a transaction in progress (R30). -/
def FlagsFollow (e : Pins) (s t : State) : Prop :=
  (s.rerr = true → t.rerr = true) ∧ (s.ovf = true → t.ovf = true) ∧
  (s.icerr = true → t.icerr = true ∧ t.badc = s.badc) ∧
  (t.rerr = true → s.rerr = true ∨
    (s.ph = .encLoad ∧ e.inEnd = false ∧ (e.inData.toNat < 1 ∨ 300 < e.inData.toNat))) ∧
  (t.ovf = true → s.ovf = true ∨ (s.ph = .encLoad ∧ e.inEnd = false ∧ s.cnt = 1023)) ∧
  (t.icerr = true → s.icerr = true ∨ (s.ph = .decLoad ∧ e.inEnd = false ∧ e.inData ∉ alphabet ∧ t.badc = e.inData))

theorem flagsFollow_of_same (e : Pins) {s t : State} (h : flagRegs t = flagRegs s) : FlagsFollow e s t := by
  simp only [flagRegs, Prod.mk.injEq] at h
  obtain ⟨hrerr, hovf, hicerr, hbadc⟩ := h
  exact ⟨fun h => hrerr.trans h, fun h => hovf.trans h, fun h => ⟨hicerr.trans h, hbadc⟩,
    fun h => .inl (hrerr.symm.trans h), fun h => .inl (hovf.symm.trans h), fun h => .inl (hicerr.symm.trans h)⟩

theorem not_inRange {v : CodeUnit} (h : inRange v = false) : v.toNat < 1 ∨ 300 < v.toNat := by
  have hno : ¬ (1 ≤ v.toNat ∧ v.toNat ≤ 300) := fun hr => Bool.eq_false_iff.1 h ((inRange_iff v).2 hr)
  omega

theorem encLoadData_flags {e : Pins} {s : State} (hp : s.ph = .encLoad) (hend : e.inEnd = false) :
    FlagsFollow e s (encLoadData e.inData s) := by
  have hfull : s.cnt.toNat = Config.cntMax → s.cnt = 1023 := (cnt_toNat_eq_cntMax_iff s).1
  rcases encLoadData_cases e.inData s with ⟨hc, -, he⟩ | ⟨hc, hr, he⟩ | ⟨-, -, he⟩ | ⟨-, hr, he⟩ <;> rw [he]
  · exact ⟨id, fun _ => rfl, fun h => ⟨h, rfl⟩, .inl, fun _ => .inr ⟨hp, hend, hfull hc⟩, .inl⟩
  · exact ⟨fun _ => rfl, fun _ => rfl, fun h => ⟨h, rfl⟩, fun _ => .inr ⟨hp, hend, not_inRange hr⟩,
      fun _ => .inr ⟨hp, hend, hfull hc⟩, .inl⟩
  · exact ⟨id, id, fun h => ⟨h, rfl⟩, .inl, .inl, .inl⟩
  · exact ⟨fun _ => rfl, id, fun h => ⟨h, rfl⟩, fun _ => .inr ⟨hp, hend, not_inRange hr⟩, .inl, .inl⟩

theorem decLoadData_flags {e : Pins} {s t : State} (hp : s.ph = .decLoad) (hend : e.inEnd = false)
    (h : decLoadData e.inData s = .next t) : FlagsFollow e s t := by
  rcases decLoadData_next h with ⟨-, rfl⟩ | ⟨hi, hc, rfl⟩ | ⟨-, i, -, hfeed⟩
  · exact flagsFollow_of_same e rfl
  · exact ⟨id, id, fun h => absurd (hi.symm.trans h) (by decide), .inl, .inl,
      fun _ => .inr ⟨hp, hend, symdec_eq_none_iff.1 hc, rfl⟩⟩
  · exact flagsFollow_of_same e (by rw [feedBits_frame hfeed]; rfl)

theorem encLoadEnd_flagRegs (s : State) : flagRegs (encLoadEnd s) = flagRegs s := by
  rcases encLoadEnd_cases s with ⟨-, he⟩ | ⟨-, -, he⟩ | ⟨-, -, he⟩ <;> rw [he] <;> rfl

theorem decLoadEnd_flagRegs (s : State) : flagRegs (decLoadEnd s) = flagRegs s := by
  rcases decLoadEnd_cases s with ⟨-, he⟩ | ⟨-, -, he⟩ | ⟨-, -, he⟩ | ⟨-, -, -, he⟩ <;> rw [he] <;> rfl

/-- A beat of a load phase sets flags by the rule of its phase only (R185, R193). -/
theorem loadBeat_flags {e : Pins} {s t : State} (h : loadBeat e.beat s = .next t) : FlagsFollow e s t := by
  rcases loadBeat_next h with ⟨-, -, rfl⟩ | ⟨hp, hend, rfl⟩ | ⟨-, -, rfl⟩ | ⟨hp, hend, hdata⟩ | ⟨-, -, rfl⟩
  · exact flagsFollow_of_same e (encLoadEnd_flagRegs s)
  · exact encLoadData_flags hp hend
  · exact flagsFollow_of_same e (decLoadEnd_flagRegs s)
  · exact decLoadData_flags hp hend hdata
  · exact flagsFollow_of_same e rfl

/-- Settles O50: only a beat taken in a load phase reaches the flags; every other edge leaves them. -/
theorem stickyFlags : Obligations.StickyFlags := by
  intro s t e rest hedges hrst hbusy hstep
  suffices hflags : FlagsFollow e s t from hflags
  rw [step_edge hedges] at hstep
  rcases clockEdge_next hstep with ⟨hr, -⟩ | ⟨-, -, ⟨ha, h⟩ | ⟨ha, -, h⟩ | ⟨ha, -, h⟩⟩
  · exact absurd (hrst.symm.trans hr) (by decide)
  · have hload := ((acceptsInput_iff s).1 ha).resolve_left hbusy
    rcases inputEdge_next h with ⟨-, -, hrun⟩ | ⟨-, rfl⟩
    · rw [runPosition_load (s := { sampled e rest s with pend := none }) hload,
        inputBeat_load (s := { sampled e rest s with pend := none }) hload] at hrun
      exact loadBeat_flags (s := logIn e.beat { sampled e rest s with pend := none }) hrun
    · exact flagsFollow_of_same e rfl
  · rcases outputEdge_next h with ⟨-, -, hrun⟩ | ⟨-, -, rfl⟩ | ⟨-, rfl⟩
    · exact flagsFollow_of_same e
        (runPosition_flagRegs (s := { keepPresented e (sampled e rest s) with outValid := false }) ha hrun)
    · exact flagsFollow_of_same e rfl
    · exact flagsFollow_of_same e rfl
  · rcases internalEdge_next h with ⟨-, hrun⟩ | ⟨-, rfl⟩
    · exact flagsFollow_of_same e (runPosition_flagRegs (s := keepPresented e (sampled e rest s)) ha hrun)
    · exact flagsFollow_of_same e rfl

end Sys2Proof.Machine
end

section
/-! The invariant (10_state.md sections 3 to 6): its part about the registers, which every transaction starts with whatever came
before, is kept by every operation and rules out every fault; with the buffer, `WID` and `out_valid` it is the invariant of
the block. -/

namespace Sys2Proof.Machine

/-- The part of the invariant that speaks of the registers of the transaction: what `startTransaction` leaves from any state. -/
structure CoreInv (s : State) : Prop where
  nacc : s.nacc.toNat = s.acc.length
  room : s.acc.length ≤ 14
  status : s.status.toNat ≤ 5
  phase : PhaseInv s

theorem Inv.core {s : State} (h : Inv s) : CoreInv s := ⟨h.nacc, h.room, h.status, h.phase⟩

/-! ## The facts of each phase and reader state -/

theorem phaseInv_idle {s : State} (hp : s.ph = .idle) : PhaseInv s := by simp only [PhaseInv, hp]

theorem phaseInv_encLoad {s : State} (hp : s.ph = .encLoad) : PhaseInv s ↔
    s.max.toNat ≤ Config.vMax ∧ (s.rerr = false → Buffered s.ebuf s.cnt.toNat Config.vMin s.max.toNat) := by
  simp only [PhaseInv, hp]

theorem phaseInv_encEmit {s : State} (hp : s.ph = .encEmit) : PhaseInv s ↔
    s.status = okCode ∧ s.info = 0 ∧ s.max.toNat ≤ Config.vMax ∧ s.wid = widthReg (wsel s.max.toNat) ∧
      s.eidx.toNat ≤ s.cnt.toNat ∧ Buffered s.ebuf s.cnt.toNat Config.vMin s.max.toNat ∧
      (s.hdone = false → s.acc = [] ∧ s.eidx = 0) := by
  simp only [PhaseInv, hp]

theorem phaseInv_decLoad {s : State} (hp : s.ph = .decLoad) :
    PhaseInv s ↔ ReaderInv s ∧ (s.icerr = true → symdec s.badc = none) := by
  simp only [PhaseInv, hp]

theorem phaseInv_decEmit {s : State} (hp : s.ph = .decEmit) : PhaseInv s ↔
    s.status = okCode ∧ s.info = 0 ∧ s.eidx.toNat ≤ s.cnt.toNat ∧ Buffered s.ebuf s.cnt.toNat 0 511 := by
  simp only [PhaseInv, hp]

theorem phaseInv_report {s : State} (hp : s.ph = .report) :
    PhaseInv s ↔ (s.status = 2 → symdec s.info = none) ∧ (s.status ≠ 2 → s.info = 0) := by
  simp only [PhaseInv, hp]

theorem readerInv_flag {s : State} (hr : s.rs = .flag) : ReaderInv s ↔ s.eidx = 0 := by simp only [ReaderInv, hr]

theorem readerInv_len {s : State} (hr : s.rs = .len) : ReaderInv s ↔
    s.eidx = 0 ∧ 1 ≤ s.bcnt.toNat ∧ s.bcnt.toNat ≤ lenw s.flag ∧ s.sh.toNat < 2 ^ (lenw s.flag - s.bcnt.toNat) := by
  simp only [ReaderInv, hr]

theorem readerInv_wc {s : State} (hr : s.rs = .wc) : ReaderInv s ↔
    s.eidx = 0 ∧ ((s.bcnt = 2 ∧ s.sh = 0) ∨ (s.bcnt = 1 ∧ s.sh.toNat ≤ 1)) := by
  simp only [ReaderInv, hr]

theorem readerInv_elem {s : State} (hr : s.rs = .elem) : ReaderInv s ↔
    ∃ w, s.wid = widthReg w ∧ 1 ≤ s.bcnt.toNat ∧ s.bcnt.toNat ≤ widthBits w ∧
      s.sh.toNat < 2 ^ (widthBits w - s.bcnt.toNat) ∧ s.eidx.toNat < s.cnt.toNat ∧
      Buffered s.ebuf s.eidx.toNat 0 (2 ^ widthBits w - 1) := by
  simp only [ReaderInv, hr]

theorem readerInv_done {s : State} (hr : s.rs = .done) : ReaderInv s ↔
    ∃ w, s.wid = widthReg w ∧ Buffered s.ebuf s.cnt.toNat 0 (2 ^ widthBits w - 1) := by
  simp only [ReaderInv, hr]

theorem readerInv_badwc {s : State} (hr : s.rs = .badwc) : ReaderInv s := by simp only [ReaderInv, hr]

/-! ## The buffer -/

theorem buffered_zero (m : Memory) (lo hi : Nat) : Buffered m 0 lo hi := fun i h => absurd h (Nat.not_lt_zero i)

theorem Buffered.mono {m : Memory} {n lo hi hi' : Nat} (h : Buffered m n lo hi) (hle : hi ≤ hi') :
    Buffered m n lo hi' := by
  intro i hi
  obtain ⟨v, hv, hlo, hhi⟩ := h i hi
  exact ⟨v, hv, hlo, hhi.trans hle⟩

/-- One more entry, written right after the known ones. -/
theorem Buffered.write {m : Memory} {n lo hi : Nat} {v : Entry} (h : Buffered m n lo hi) (hlo : lo ≤ v.toNat)
    (hhi : v.toNat ≤ hi) : Buffered (Memory.write m n v) (n + 1) lo hi := by
  intro i hi
  by_cases hlast : i = n
  · exact ⟨v, by rw [hlast, Memory.read_write_same], hlo, hhi⟩
  · obtain ⟨u, hu, hlo', hhi'⟩ := h i (by omega)
    exact ⟨u, by rw [Memory.read_write_ne _ _ hlast, hu], hlo', hhi'⟩

theorem toNat_add_one_of_lt {v : BitVec 10} (h : v.toNat < 1023) : (v + 1).toNat = v.toNat + 1 := by
  have hone : (1 : BitVec 10).toNat = 1 := rfl
  rw [BitVec.toNat_add, hone]
  omega

theorem toNat_sub_one_of_pos {v : BitVec 4} (h : 1 ≤ v.toNat) : (v - 1).toNat = v.toNat - 1 := by
  have hlt := v.isLt
  have hone : (1 : BitVec 4).toNat = 1 := rfl
  rw [BitVec.toNat_sub, hone]
  omega

/-! ## The reader -/

/-- A bit shifted into a field that is not full. -/
theorem shiftIn_lt {sh : BitVec 10} (x : Bool) {k : Nat} (h : sh.toNat < 2 ^ k) : (shiftIn sh x).toNat < 2 ^ (k + 1) := by
  have hle : (shiftIn sh x).toNat ≤ 2 * sh.toNat + x.toNat := by rw [shiftIn_toNat]; exact Nat.mod_le _ _
  have hx : x.toNat ≤ 1 := Bool.toNat_le x
  rw [pow_succ]
  omega

/-- A bit inside a field of `n` bits keeps the bounds of `SH` and `BCNT`. -/
theorem fieldBit_bounds {s : State} {n : Nat} (x : Bool) (hne : s.bcnt ≠ 1) (hpos : 1 ≤ s.bcnt.toNat)
    (hle : s.bcnt.toNat ≤ n) (hsh : s.sh.toNat < 2 ^ (n - s.bcnt.toNat)) :
    1 ≤ (s.bcnt - 1).toNat ∧ (s.bcnt - 1).toNat ≤ n ∧ (shiftIn s.sh x).toNat < 2 ^ (n - (s.bcnt - 1).toNat) := by
  have hsub := toNat_sub_one_of_pos hpos
  have htwo : s.bcnt.toNat ≠ 1 := fun h => hne (BitVec.eq_of_toNat_eq h)
  have hroom : n - (s.bcnt - 1).toNat = n - s.bcnt.toNat + 1 := by omega
  exact ⟨by omega, by omega, hroom ▸ shiftIn_lt x hsh⟩

theorem shLow9_toNat_le (v : BitVec 10) : (shLow9 v).toNat ≤ v.toNat := by
  rw [shLow9, BitVec.truncate_eq_setWidth, BitVec.toNat_setWidth]
  exact Nat.mod_le _ _

/-- The last element's bit gives a value of the element's width. -/
theorem lastBit_value_le {s : State} {w : Width} (x : Bool) (hb : s.bcnt = 1)
    (hsh : s.sh.toNat < 2 ^ (widthBits w - s.bcnt.toNat)) :
    (shLow9 (shiftIn s.sh x)).toNat ≤ 2 ^ widthBits w - 1 := by
  have hone : s.bcnt.toNat = 1 := by rw [hb]; rfl
  have hpos := widthBits_pos w
  have hlt := shiftIn_lt x hsh
  rw [hone, Nat.sub_add_cancel hpos] at hlt
  have hle := shLow9_toNat_le (shiftIn s.sh x)
  omega

theorem readerInv_fieldBit {s : State} (x : Bool) (h : ReaderInv s) (hr : s.rs = .len ∨ s.rs = .wc ∨ s.rs = .elem)
    (hb : s.bcnt ≠ 1) : ReaderInv (fieldBit x s) := by
  rcases hr with hr | hr | hr
  · obtain ⟨hidx, hpos, hle, hsh⟩ := (readerInv_len hr).1 h
    exact (readerInv_len (s := fieldBit x s) hr).2 ⟨hidx, fieldBit_bounds x hb hpos hle hsh⟩
  · obtain ⟨hidx, ⟨hb2, hsh⟩ | ⟨hb1, -⟩⟩ := (readerInv_wc hr).1 h
    · refine (readerInv_wc (s := fieldBit x s) hr).2 ⟨hidx, .inr ⟨?_, ?_⟩⟩
      · rw [fieldBit_bcnt, bitsLeft, hb2]; rfl
      · rw [fieldBit_sh, hsh]; cases x <;> decide
    · exact absurd hb1 hb
  · obtain ⟨w, hwid, hpos, hle, hsh, hidx, hbuf⟩ := (readerInv_elem hr).1 h
    obtain ⟨hpos', hle', hsh'⟩ := fieldBit_bounds x hb hpos hle hsh
    exact (readerInv_elem (s := fieldBit x s) hr).2 ⟨w, hwid, hpos', hle', hsh', hidx, hbuf⟩

theorem readerInv_widthCodeRead {n : Nat} {s t : State} (h : widthCodeRead n s = .next t) : ReaderInv t := by
  rcases widthCodeRead_next h with ⟨-, rfl⟩ | ⟨w, -, -, ⟨hcnt, rfl⟩ | ⟨hcnt, rfl⟩⟩
  · exact readerInv_badwc rfl
  · refine (readerInv_done rfl).2 ⟨w, rfl, ?_⟩
    simp only [hcnt]
    exact buffered_zero _ _ _
  · have hpos : 0 < s.cnt.toNat := Nat.pos_of_ne_zero fun h0 => hcnt (BitVec.eq_of_toNat_eq h0)
    refine (readerInv_elem rfl).2 ⟨w, rfl, ?_, ?_, ?_, hpos, buffered_zero _ _ _⟩
    · rw [widthReg_toNat]; exact widthBits_pos w
    · rw [widthReg_toNat]
    · exact Nat.two_pow_pos _

theorem readerInv_elementRead {s t : State} (x : Bool) (h : ReaderInv s) (hr : s.rs = .elem) (hb : s.bcnt = 1)
    (hread : elementRead (shLow9 (shiftIn s.sh x)) s = .next t) : ReaderInv t := by
  obtain ⟨w, hwid, -, -, hsh, hidx, hbuf⟩ := (readerInv_elem hr).1 h
  have hvalue := lastBit_value_le x hb hsh
  have hcnt := s.cnt.isLt
  have hnext : (s.eidx + 1).toNat = s.eidx.toNat + 1 := toNat_add_one_of_lt (by omega)
  have hbuf' := hbuf.write (Nat.zero_le _) hvalue
  rw [← hnext] at hbuf'
  obtain ⟨-, ⟨hlast, rfl⟩ | ⟨hmore, rfl⟩⟩ := elementRead_next hread
  · exact (readerInv_done rfl).2 ⟨w, hwid, hlast ▸ hbuf'⟩
  · have hlt : (s.eidx + 1).toNat < s.cnt.toNat :=
      lt_of_le_of_ne (by omega) fun heq => hmore (BitVec.eq_of_toNat_eq heq)
    refine (readerInv_elem (by exact hr)).2 ⟨w, hwid, ?_, ?_, Nat.two_pow_pos _, hlt, hbuf'⟩
    · simp only [hwid, widthReg_toNat]; exact widthBits_pos w
    · simp only [hwid, widthReg_toNat]; exact le_refl _

theorem rdstep_keeps_readerInv {x : Bool} {s t : State} (h : ReaderInv s) (hstep : rdstep x s = .next t) :
    ReaderInv t := by
  rcases rdstep_next hstep with ⟨hr, rfl⟩ | ⟨hr, hb, rfl⟩ | ⟨hr, hb, rfl⟩ | ⟨hr, hb, hread⟩ | ⟨hr, hb, hread⟩ | ⟨hr, rfl⟩
  · refine (readerInv_len rfl).2 ⟨(readerInv_flag hr).1 h, ?_, ?_, Nat.two_pow_pos _⟩ <;> simp only [lenw_toNat]
    · exact lenw_pos x
    · exact le_refl _
  · exact readerInv_fieldBit x h hr hb
  · obtain ⟨hidx, -⟩ := (readerInv_len hr).1 h
    exact (readerInv_wc rfl).2 ⟨hidx, .inl ⟨rfl, rfl⟩⟩
  · exact readerInv_widthCodeRead hread
  · exact readerInv_elementRead x h hr hb hread
  · exact h

/-- With its registers in order a bit never stops the reader (R172: the values that never occur). -/
theorem rdstep_progress {s : State} (x : Bool) (h : ReaderInv s) : ∃ t, rdstep x s = .next t := by
  by_cases hb : s.bcnt = 1
  · cases hr : s.rs with
    | flag => exact ⟨_, rdstep_flag hr⟩
    | len => exact ⟨_, rdstep_lengthRead hr hb⟩
    | wc =>
      obtain ⟨-, ⟨hb2, -⟩ | ⟨-, hsh⟩⟩ := (readerInv_wc hr).1 h
      · exact absurd (hb2.symm.trans hb) (by decide)
      · have hlt : (shiftIn s.sh x).toNat < 2 ^ (1 + 1) := shiftIn_lt x (by omega)
        rw [rdstep_widthCodeRead hr hb]
        generalize (shiftIn s.sh x).toNat = n at hlt
        interval_cases n <;> exact ⟨_, rfl⟩
    | elem =>
      obtain ⟨w, -, -, -, -, hidx, -⟩ := (readerInv_elem hr).1 h
      have hcnt := s.cnt.isLt
      exact ⟨_, (rdstep_elementRead hr hb).trans (elementRead_of_lt _ (by omega))⟩
    | done => exact ⟨_, rdstep_ignored (.inl hr)⟩
    | badwc => exact ⟨_, rdstep_ignored (.inr hr)⟩
  · cases hr : s.rs with
    | flag => exact ⟨_, rdstep_flag hr⟩
    | len => exact ⟨_, rdstep_fieldBit (.inl hr) hb⟩
    | wc => exact ⟨_, rdstep_fieldBit (.inr (.inl hr)) hb⟩
    | elem => exact ⟨_, rdstep_fieldBit (.inr (.inr hr)) hb⟩
    | done => exact ⟨_, rdstep_ignored (.inl hr)⟩
    | badwc => exact ⟨_, rdstep_ignored (.inr hr)⟩

theorem feedBits_keeps_readerInv {b : Bits} {s t : State} (h : ReaderInv s) (hfeed : feedBits b s = .next t) :
    ReaderInv t :=
  feedBits_induction (P := ReaderInv) (fun _ _ _ => rdstep_keeps_readerInv) h hfeed

theorem feedBits_progress (b : Bits) {s : State} (h : ReaderInv s) : ∃ t, feedBits b s = .next t := by
  induction b generalizing s with
  | nil => exact ⟨s, rfl⟩
  | cons x b ih =>
    obtain ⟨u, hu⟩ := rdstep_progress x h
    obtain ⟨t, ht⟩ := ih (rdstep_keeps_readerInv h hu)
    exact ⟨t, by rw [feedBits_cons_of_next b hu, ht]⟩

/-! ## The load phases -/

theorem coreInv_startTransaction (op : Bool) (s : State) : CoreInv (startTransaction op s) := by
  refine ⟨rfl, Nat.zero_le _, Nat.zero_le _, ?_⟩
  cases op with
  | false => exact (phaseInv_encLoad rfl).2 ⟨Nat.zero_le _, fun _ => buffered_zero _ _ _⟩
  | true => exact (phaseInv_decLoad rfl).2 ⟨(readerInv_flag rfl).2 rfl, fun h => absurd h Bool.false_ne_true⟩

theorem errCode_le (k : ErrKind) : (errCode k).toNat ≤ 5 := by cases k <;> decide

/-- An error taken leaves the accumulator, and its info word is 0 but for an invalid character (R222). -/
theorem coreInv_takeError {k : ErrKind} {info : CodeUnit} {s : State} (h : CoreInv s)
    (hchar : k = .invalidCharacter → symdec info = none) (hother : k ≠ .invalidCharacter → info = 0) :
    CoreInv (takeError k info s) := by
  refine ⟨h.nacc, h.room, errCode_le k, (phaseInv_report rfl).2 ⟨fun hs => hchar ?_, fun hs => hother ?_⟩⟩
  · revert hs; cases k <;> simp [takeError, errCode]
  · rintro rfl; exact hs rfl

theorem encLoadData_keeps_coreInv {s : State} (v : CodeUnit) (h : CoreInv s) (hp : s.ph = .encLoad) :
    CoreInv (encLoadData v s) := by
  obtain ⟨hmax, hbuf⟩ := (phaseInv_encLoad hp).1 h.phase
  rcases encLoadData_cases v s with ⟨-, -, he⟩ | ⟨-, -, he⟩ | ⟨hc, hr, he⟩ | ⟨-, -, he⟩ <;> rw [he]
  · exact ⟨h.nacc, h.room, h.status, (phaseInv_encLoad (by exact hp)).2 ⟨hmax, hbuf⟩⟩
  · exact ⟨h.nacc, h.room, h.status, (phaseInv_encLoad (by exact hp)).2 ⟨hmax, nofun⟩⟩
  · obtain ⟨hlo, hhi⟩ := (inRange_iff v).1 hr
    have hv : (low9 v).toNat = v.toNat := low9_toNat hhi
    have hcnt : (s.cnt + 1).toNat = s.cnt.toNat + 1 := toNat_add_one_of_lt (by
      have hlt := s.cnt.isLt
      have hne : s.cnt.toNat ≠ 1023 := hc
      omega)
    refine ⟨h.nacc, h.room, h.status, (phaseInv_encLoad (by exact hp)).2 ⟨?_, fun hrerr => ?_⟩⟩
    · show (if s.max.toNat < (low9 v).toNat then low9 v else s.max).toNat ≤ 300
      split_ifs
      · omega
      · exact hmax
    · show Buffered (Memory.write s.ebuf s.cnt.toNat (low9 v)) (s.cnt + 1).toNat 1
        (if s.max.toNat < (low9 v).toNat then low9 v else s.max).toNat
      rw [hcnt]
      refine ((hbuf hrerr).mono ?_).write (hv.symm ▸ hlo) ?_ <;> split_ifs <;> omega
  · exact ⟨h.nacc, h.room, h.status, (phaseInv_encLoad (by exact hp)).2 ⟨hmax, nofun⟩⟩

theorem encLoadEnd_keeps_coreInv {s : State} (h : CoreInv s) (hp : s.ph = .encLoad) : CoreInv (encLoadEnd s) := by
  obtain ⟨hmax, hbuf⟩ := (phaseInv_encLoad hp).1 h.phase
  rcases encLoadEnd_cases s with ⟨-, he⟩ | ⟨-, -, he⟩ | ⟨hr, -, he⟩ <;> rw [he]
  · exact coreInv_takeError h nofun fun _ => rfl
  · exact coreInv_takeError h nofun fun _ => rfl
  · exact ⟨rfl, Nat.zero_le _, Nat.zero_le _,
      (phaseInv_encEmit rfl).2 ⟨rfl, rfl, hmax, rfl, Nat.zero_le _, hbuf hr, fun _ => ⟨rfl, rfl⟩⟩⟩

theorem decLoadData_keeps_coreInv {c : CodeUnit} {s t : State} (h : CoreInv s) (hp : s.ph = .decLoad)
    (hdata : decLoadData c s = .next t) : CoreInv t := by
  obtain ⟨hreader, hbad⟩ := (phaseInv_decLoad hp).1 h.phase
  rcases decLoadData_next hdata with ⟨-, rfl⟩ | ⟨-, hc, rfl⟩ | ⟨-, i, -, hfeed⟩
  · exact h
  · exact ⟨h.nacc, h.room, h.status, (phaseInv_decLoad (by exact hp)).2 ⟨hreader, fun _ => hc⟩⟩
  · have hreader' := feedBits_keeps_readerInv hreader hfeed
    have hframe : t = _ := feedBits_frame hfeed
    refine ⟨?_, ?_, ?_, (phaseInv_decLoad ?_).2 ⟨hreader', ?_⟩⟩ <;> rw [hframe]
    · exact h.nacc
    · exact h.room
    · exact h.status
    · exact hp
    · exact hbad

theorem decLoadEnd_keeps_coreInv {s : State} (h : CoreInv s) (hp : s.ph = .decLoad) : CoreInv (decLoadEnd s) := by
  obtain ⟨hreader, hbad⟩ := (phaseInv_decLoad hp).1 h.phase
  rcases decLoadEnd_cases s with ⟨hi, he⟩ | ⟨-, -, he⟩ | ⟨-, hr, he⟩ | ⟨-, -, -, he⟩ <;> rw [he]
  · exact coreInv_takeError h (fun _ => hbad hi) fun hne => absurd rfl hne
  · exact coreInv_takeError h nofun fun _ => rfl
  · obtain ⟨w, -, hbuf⟩ := (readerInv_done hr).1 hreader
    have hpow : 2 ^ widthBits w ≤ 2 ^ 9 := Nat.pow_le_pow_right (by decide) (widthBits_le w)
    exact ⟨h.nacc, h.room, Nat.zero_le _,
      (phaseInv_decEmit rfl).2 ⟨rfl, rfl, Nat.zero_le _, hbuf.mono (by omega)⟩⟩
  · exact coreInv_takeError h nofun fun _ => rfl

theorem loadBeat_keeps_coreInv {b : InBeat} {s t : State} (h : CoreInv s) (hbeat : loadBeat b s = .next t) :
    CoreInv t := by
  rcases loadBeat_next hbeat with ⟨hp, -, rfl⟩ | ⟨hp, -, rfl⟩ | ⟨hp, -, rfl⟩ | ⟨hp, -, hdata⟩ | ⟨-, -, rfl⟩
  · exact encLoadEnd_keeps_coreInv h hp
  · exact encLoadData_keeps_coreInv _ h hp
  · exact decLoadEnd_keeps_coreInv h hp
  · exact decLoadData_keeps_coreInv h hp hdata
  · exact h

theorem loadBeat_progress (b : InBeat) {s : State} (h : CoreInv s) (hp : s.ph = .encLoad ∨ s.ph = .decLoad) :
    ∃ t, loadBeat b s = .next t := by
  rcases hp with hp | hp
  · exact ⟨_, loadBeat_encLoad hp⟩
  · obtain ⟨hreader, -⟩ := (phaseInv_decLoad hp).1 h.phase
    rw [loadBeat_decLoad hp]
    cases b.fin with
    | true => exact ⟨_, rfl⟩
    | false =>
      rw [if_neg Bool.false_ne_true]
      cases hi : s.icerr with
      | true => exact ⟨_, decLoadData_of_icerr _ hi⟩
      | false =>
        cases hc : symdec b.data with
        | none => exact ⟨_, decLoadData_invalid hi hc⟩
        | some i =>
          rw [decLoadData_symbol hi hc]
          exact feedBits_progress _ hreader

/-! ## The emit phases -/

/-- The step of ENC_EMIT that is enabled, what it needs, and what running the position does (R187). -/
theorem encEmit_progress {s : State} (h : CoreInv s) (hp : s.ph = .encEmit) :
    (emitStep s = .symbol ∧ 6 ≤ s.acc.length ∧
      runPosition s = .next (deliver { fin := false, data := symenc (val (s.acc.take 6)), status := 0 } s)) ∨
    (emitStep s = .header ∧ s.hdone = false ∧ s.acc = [] ∧ s.eidx = 0 ∧
      runPosition s = .next (pushHeader (hdr s.cnt.toNat (wsel s.max.toNat)) s)) ∨
    (emitStep s = .element ∧ s.hdone = true ∧ s.acc.length < 6 ∧ s.eidx.toNat < s.cnt.toNat ∧
      ∃ v, Memory.read s.ebuf s.eidx.toNat = some v ∧
        runPosition s = .next (pushElement (bin (widthBits (wsel s.max.toNat)) v.toNat) s)) ∨
    (emitStep s = .padding ∧ s.hdone = true ∧ s.acc.length < 6 ∧ 0 < s.acc.length ∧ s.eidx.toNat = s.cnt.toNat ∧
      runPosition s = .next (pushBits (zeros (6 - s.acc.length)) s)) ∨
    (emitStep s = .finish ∧ s.hdone = true ∧ s.acc = [] ∧ s.eidx.toNat = s.cnt.toNat ∧
      runPosition s = .next (toReport s)) := by
  obtain ⟨-, -, hmax, hwid, hidx, hbuf, hheader⟩ := (phaseInv_encEmit hp).1 h.phase
  have hnacc := h.nacc
  rcases emitStep_cases s with ⟨he, hn⟩ | ⟨he, -, hd⟩ | ⟨he, hn, hd, hi⟩ | ⟨he, hn, hd, hi, hpos⟩ | ⟨he, hd, hi, hn⟩
  · exact .inl ⟨he, by omega, runPosition_symbol hp he (by omega)⟩
  · obtain ⟨hacc, hzero⟩ := hheader hd
    exact .inr (.inl ⟨he, hd, hacc, hzero, runPosition_header hp he hwid⟩)
  · obtain ⟨v, hv, -, hle⟩ := hbuf _ hi
    exact .inr (.inr (.inl ⟨he, hd, by omega, hi, v, hv, runPosition_element hp he hwid hv (lt_width_of_le hle hmax)⟩))
  · refine .inr (.inr (.inr (.inl ⟨he, hd, by omega, by omega, by omega, ?_⟩)))
    rw [runPosition_padding hp he hpos, hnacc]
  · exact .inr (.inr (.inr (.inr ⟨he, hd, List.length_eq_zero_iff.1 (by omega), by omega, runPosition_encFinish hp he⟩)))

/-- The step of DEC_EMIT that is enabled, and what running the position does (R196). -/
theorem decEmit_progress {s : State} (h : CoreInv s) (hp : s.ph = .decEmit) :
    (s.eidx.toNat < s.cnt.toNat ∧ ∃ v, Memory.read s.ebuf s.eidx.toNat = some v ∧
      runPosition s = .next (deliver (elementBeat v) s)) ∨
    (s.eidx.toNat = s.cnt.toNat ∧ runPosition s = .next (toReport s)) := by
  obtain ⟨-, -, hidx, hbuf⟩ := (phaseInv_decEmit hp).1 h.phase
  by_cases hi : s.eidx.toNat < s.cnt.toNat
  · obtain ⟨v, hv, -⟩ := hbuf _ hi
    exact .inl ⟨hi, v, hv, runPosition_decElement hp hi hv⟩
  · exact .inr ⟨by omega, runPosition_decFinish hp (by omega)⟩

/-- Bits pushed where there is room for them are counted. -/
theorem nacc_pushBits {s : State} {b : Bits} (h : s.nacc.toNat = s.acc.length) (hroom : s.acc.length + b.length ≤ 14) :
    (s.nacc + BitVec.ofNat 4 b.length).toNat = (s.acc ++ b).length := by
  rw [BitVec.toNat_add, BitVec.toNat_ofNat, List.length_append]
  omega

theorem nacc_popSymbol {s : State} (h : s.nacc.toNat = s.acc.length) (hsix : 6 ≤ s.acc.length) :
    (s.nacc - 6).toNat = (s.acc.drop 6).length := by
  have hlt := s.nacc.isLt
  have h6 : (6 : BitVec 4).toNat = 6 := rfl
  rw [BitVec.toNat_sub, h6, List.length_drop]
  omega

theorem coreInv_toReport {s : State} (h : CoreInv s) (hp : s.ph = .encEmit ∨ s.ph = .decEmit) :
    CoreInv (toReport s) := by
  have hok : s.status = okCode ∧ s.info = 0 := by
    rcases hp with hp | hp
    · obtain ⟨hs, hi, -⟩ := (phaseInv_encEmit hp).1 h.phase
      exact ⟨hs, hi⟩
    · obtain ⟨hs, hi, -⟩ := (phaseInv_decEmit hp).1 h.phase
      exact ⟨hs, hi⟩
  refine ⟨h.nacc, h.room, h.status, (phaseInv_report rfl).2 ⟨fun hs => ?_, fun _ => hok.2⟩⟩
  exact absurd (hok.1.symm.trans hs) (by decide)

theorem encEmit_keeps_coreInv {s t : State} (h : CoreInv s) (hp : s.ph = .encEmit) (hrun : runPosition s = .next t) :
    CoreInv t := by
  obtain ⟨hok, hinfo, hmax, hwid, hidx, hbuf, -⟩ := (phaseInv_encEmit hp).1 h.phase
  rcases encEmit_progress h hp with ⟨-, hsix, hr⟩ | ⟨-, -, hacc, hzero, hr⟩ | ⟨-, hd, hn, hi, v, hv, hr⟩ |
      ⟨-, hd, hn, -, -, hr⟩ | ⟨-, -, -, -, hr⟩ <;> cases hrun.symm.trans hr
  · rw [deliver_encEmit _ hp]
    refine ⟨nacc_popSymbol h.nacc hsix, ?_, h.status,
      (phaseInv_encEmit (by exact hp)).2 ⟨hok, hinfo, hmax, hwid, hidx, hbuf, fun hd => ?_⟩⟩
    · have hroom := h.room
      simp only [List.length_drop]
      omega
    · obtain ⟨-, -, -, -, -, -, hheader⟩ := (phaseInv_encEmit hp).1 h.phase
      obtain ⟨hacc, -⟩ := hheader hd
      rw [hacc] at hsix
      cases hsix
  · have hlen : (hdr s.cnt.toNat (wsel s.max.toNat)).length ≤ 13 := by
      rw [hdr_length, hlen_eq]
      split_ifs <;> decide
    have hroom : s.acc.length + (hdr s.cnt.toNat (wsel s.max.toNat)).length ≤ 14 := by
      rw [hacc, List.length_nil]
      omega
    exact ⟨nacc_pushBits h.nacc hroom, (List.length_append ▸ hroom : (s.acc ++ _).length ≤ 14), h.status,
      (phaseInv_encEmit (by exact hp)).2 ⟨hok, hinfo, hmax, hwid, hidx, hbuf, nofun⟩⟩
  · have hbits := widthBits_le (wsel s.max.toNat)
    have hroom : s.acc.length + (bin (widthBits (wsel s.max.toNat)) v.toNat).length ≤ 14 := by
      rw [bin_length]
      omega
    have hcnt := s.cnt.isLt
    have hnext : (s.eidx + 1).toNat = s.eidx.toNat + 1 := toNat_add_one_of_lt (by omega)
    exact ⟨nacc_pushBits h.nacc hroom, (List.length_append ▸ hroom : (s.acc ++ _).length ≤ 14), h.status,
      (phaseInv_encEmit (by exact hp)).2 ⟨hok, hinfo, hmax, hwid, hnext ▸ hi, hbuf,
        fun hd' => absurd (hd.symm.trans hd') (by decide)⟩⟩
  · have hroom : s.acc.length + (zeros (6 - s.acc.length)).length ≤ 14 := by
      rw [zeros_length]
      omega
    exact ⟨nacc_pushBits h.nacc hroom, (List.length_append ▸ hroom : (s.acc ++ _).length ≤ 14), h.status,
      (phaseInv_encEmit (by exact hp)).2 ⟨hok, hinfo, hmax, hwid, hidx, hbuf,
        fun hd' => absurd (hd.symm.trans hd') (by decide)⟩⟩
  · exact coreInv_toReport h (.inl hp)

theorem decEmit_keeps_coreInv {s t : State} (h : CoreInv s) (hp : s.ph = .decEmit) (hrun : runPosition s = .next t) :
    CoreInv t := by
  obtain ⟨hok, hinfo, -, hbuf⟩ := (phaseInv_decEmit hp).1 h.phase
  rcases decEmit_progress h hp with ⟨hi, v, -, hr⟩ | ⟨-, hr⟩ <;> cases hrun.symm.trans hr
  · have hcnt := s.cnt.isLt
    have hnext : (s.eidx + 1).toNat = s.eidx.toNat + 1 := toNat_add_one_of_lt (by omega)
    rw [deliver_decEmit _ hp]
    exact ⟨h.nacc, h.room, h.status, (phaseInv_decEmit (by exact hp)).2 ⟨hok, hinfo, hnext ▸ hi, hbuf⟩⟩
  · exact coreInv_toReport h (.inr hp)

/-- Running the position keeps the registers in order, from every phase. -/
theorem runPosition_keeps_coreInv {s t : State} (h : CoreInv s) (hrun : runPosition s = .next t) : CoreInv t := by
  cases hp : s.ph with
  | idle =>
    rw [runPosition_idle hp, inputBeat_idle hp] at hrun
    exact loadBeat_keeps_coreInv (coreInv_startTransaction _ _) hrun
  | encLoad =>
    rw [runPosition_load (.inl hp), inputBeat_load (.inl hp)] at hrun
    exact loadBeat_keeps_coreInv (s := logIn s.pins.beat s) ⟨h.nacc, h.room, h.status, h.phase⟩ hrun
  | decLoad =>
    rw [runPosition_load (.inr hp), inputBeat_load (.inr hp)] at hrun
    exact loadBeat_keeps_coreInv (s := logIn s.pins.beat s) ⟨h.nacc, h.room, h.status, h.phase⟩ hrun
  | encEmit => exact encEmit_keeps_coreInv h hp hrun
  | decEmit => exact decEmit_keeps_coreInv h hp hrun
  | report =>
    rw [runPosition_report hp h.status] at hrun
    cases hrun
    rw [deliver_report _ hp]
    exact ⟨h.nacc, h.room, h.status, phaseInv_idle rfl⟩

/-- In IDLE the registers may hold anything: the beat that leaves it puts them in order (R183). -/
theorem runPosition_idle_coreInv {s t : State} (hp : s.ph = .idle) (hrun : runPosition s = .next t) : CoreInv t := by
  rw [runPosition_idle hp, inputBeat_idle hp] at hrun
  exact loadBeat_keeps_coreInv (coreInv_startTransaction _ _) hrun

/-- With the registers in order, or in IDLE, the row at the position completes. -/
theorem runPosition_progress {s : State} (h : s.ph = .idle ∨ CoreInv s) : ∃ t, runPosition s = .next t := by
  cases hp : s.ph with
  | idle =>
    rw [runPosition_idle hp, inputBeat_idle hp]
    exact loadBeat_progress _ (coreInv_startTransaction _ _) (startTransaction_ph_load _ _)
  | encLoad =>
    rw [runPosition_load (.inl hp)]
    exact ⟨_, (inputBeat_load (.inl hp)).trans (loadBeat_encLoad (s := logIn s.pins.beat s) hp)⟩
  | decLoad =>
    have hcore := h.resolve_left (by rw [hp]; decide)
    rw [runPosition_load (.inr hp), inputBeat_load (.inr hp)]
    exact loadBeat_progress (s := logIn s.pins.beat s) _ ⟨hcore.nacc, hcore.room, hcore.status, hcore.phase⟩ (.inr hp)
  | encEmit =>
    rcases encEmit_progress (h.resolve_left (by rw [hp]; decide)) hp with ⟨-, -, hr⟩ | ⟨-, -, -, -, hr⟩ |
      ⟨-, -, -, -, v, -, hr⟩ | ⟨-, -, -, -, -, hr⟩ | ⟨-, -, -, -, hr⟩ <;> exact ⟨_, hr⟩
  | decEmit =>
    rcases decEmit_progress (h.resolve_left (by rw [hp]; decide)) hp with ⟨-, v, -, hr⟩ | ⟨-, hr⟩ <;> exact ⟨_, hr⟩
  | report => exact ⟨_, runPosition_report hp (h.resolve_left (by rw [hp]; decide)).status⟩

/-! ## One edge -/

/-- What runs at an edge: nothing but a reset, waiting, or the row at the position of the same registers. -/
theorem clockEdge_runs {e : Pins} {s t : State} (h : clockEdge e s = .next t) :
    (e.rst = true ∧ t = resetEdge s) ∨
    (e.rst = false ∧ ∃ p v, t = { s with pend := p, outValid := v } ∧ (v = true → s.outValid = true ∨ beatDue s = true)) ∨
    (e.rst = false ∧ ∃ p v, runPosition { s with pend := p, outValid := v } = .next t ∧
      (v = true → s.outValid = true ∧ beatDue s = false)) := by
  rcases clockEdge_next h with ⟨hr, rfl⟩ | ⟨hr, -, ⟨ha, h⟩ | ⟨-, hdue, h⟩ | ⟨-, hdue, h⟩⟩
  · exact .inl ⟨hr, rfl⟩
  · rcases inputEdge_next h with ⟨-, -, hrun⟩ | ⟨-, rfl⟩
    · exact .inr (.inr ⟨hr, none, s.outValid, hrun, fun hv => ⟨hv, beatDue_of_acceptsInput ha⟩⟩)
    · exact .inr (.inl ⟨hr, _, s.outValid, rfl, .inl⟩)
  · rcases outputEdge_next h with ⟨-, -, hrun⟩ | ⟨-, -, rfl⟩ | ⟨-, rfl⟩
    · exact .inr (.inr ⟨hr, _, false, hrun, nofun⟩)
    · exact .inr (.inl ⟨hr, _, true, rfl, fun _ => .inr hdue⟩)
    · exact .inr (.inl ⟨hr, _, s.outValid, rfl, .inl⟩)
  · rcases internalEdge_next h with ⟨-, hrun⟩ | ⟨-, rfl⟩
    · exact .inr (.inr ⟨hr, _, s.outValid, hrun, fun hv => ⟨hv, hdue⟩⟩)
    · exact .inr (.inl ⟨hr, _, s.outValid, rfl, .inl⟩)

theorem coreInv_resetEdge (s : State) : CoreInv (resetEdge s) :=
  ⟨rfl, Nat.zero_le _, Nat.zero_le _, phaseInv_idle rfl⟩

theorem clockEdge_keeps_coreInv {e : Pins} {s t : State} (h : CoreInv s) (hedge : clockEdge e s = .next t) :
    CoreInv t := by
  rcases clockEdge_runs hedge with ⟨-, rfl⟩ | ⟨-, p, v, rfl, -⟩ | ⟨-, p, v, hrun, -⟩
  · exact coreInv_resetEdge s
  · exact ⟨h.nacc, h.room, h.status, h.phase⟩
  · exact runPosition_keeps_coreInv (s := { s with pend := p, outValid := v }) ⟨h.nacc, h.room, h.status, h.phase⟩ hrun

/-- An edge with a stable host, or with `rst` = 1, leaves a next state (R251). -/
theorem clockEdge_progress {e : Pins} {s : State} (h : s.ph = .idle ∨ CoreInv s)
    (hhost : e.rst = true ∨ hostBreaks e s = false) : ∃ t, clockEdge e s = .next t := by
  have hsame : ∀ p v, { s with pend := p, outValid := v }.ph = .idle ∨ CoreInv { s with pend := p, outValid := v } :=
    fun p v => h.imp id fun hc => ⟨hc.nacc, hc.room, hc.status, hc.phase⟩
  cases hr : e.rst with
  | true => exact ⟨_, clockEdge_of_rst s hr⟩
  | false =>
    have hhost := hhost.resolve_left (Bool.eq_false_iff.1 hr)
    cases ha : acceptsInput s with
    | true =>
      rw [clockEdge_input hr hhost ha]
      cases hg : e.inValid && e.go with
      | true =>
        obtain ⟨hvalid, hgo⟩ := (Bool.and_eq_true _ _).mp hg
        rw [inputEdge_taken s hvalid hgo]
        exact runPosition_progress (hsame none s.outValid)
      | false => exact ⟨_, inputEdge_waits s hg⟩
    | false =>
      cases hdue : beatDue s with
      | true =>
        rw [clockEdge_output hr hhost hdue]
        cases hv : s.outValid || e.go with
        | true =>
          cases ho : e.outReady with
          | true =>
            rw [outputEdge_given hv ho]
            exact runPosition_progress (hsame _ false)
          | false => exact ⟨_, outputEdge_offered hv ho⟩
        | false => exact ⟨_, outputEdge_waits hv⟩
      | false =>
        rw [clockEdge_internal hr hhost ha hdue]
        cases hg : e.go with
        | true =>
          rw [internalEdge_go s hg]
          exact runPosition_progress (hsame _ s.outValid)
        | false => exact ⟨_, internalEdge_waits s hg⟩

/-! ## The buffer and `WID` -/

theorem ladder_widthReg (w : Width) : LadderOrUnset (widthReg w) := .inr ⟨w, rfl⟩

/-- What a bit at the reader does to EBUF and `WID`: at most the entry at `EIDX` is written, and `EIDX` passes it. -/
structure ReaderWrites (s t : State) : Prop where
  ebuf : Memory.wf s.ebuf = true → Memory.wf t.ebuf = true
  wid : LadderOrUnset s.wid → LadderOrUnset t.wid
  eidx : s.eidx.toNat ≤ t.eidx.toNat
  kept : ∀ a, Memory.read t.ebuf a = Memory.read s.ebuf a ∨ (s.eidx.toNat ≤ a ∧ a < t.eidx.toNat)

theorem ReaderWrites.refl (s : State) : ReaderWrites s s := ⟨id, id, le_refl _, fun _ => .inl rfl⟩

theorem ReaderWrites.trans {s t u : State} (h : ReaderWrites s t) (k : ReaderWrites t u) : ReaderWrites s u := by
  refine ⟨fun hw => k.ebuf (h.ebuf hw), fun hw => k.wid (h.wid hw), h.eidx.trans k.eidx, fun a => ?_⟩
  have hle := h.eidx
  have kle := k.eidx
  rcases k.kept a with hk | ⟨hlo, hhi⟩
  · rcases h.kept a with hh | ⟨hlo, hhi⟩
    · exact .inl (hk.trans hh)
    · exact .inr ⟨hlo, by omega⟩
  · exact .inr ⟨by omega, hhi⟩

theorem rdstep_writes {x : Bool} {s t : State} (h : ReaderInv s) (hstep : rdstep x s = .next t) : ReaderWrites s t := by
  rcases rdstep_next hstep with ⟨-, rfl⟩ | ⟨-, -, rfl⟩ | ⟨-, -, rfl⟩ | ⟨hr, -, hread⟩ | ⟨-, -, hread⟩ | ⟨-, rfl⟩
  · exact ⟨id, id, le_refl _, fun _ => .inl rfl⟩
  · exact ⟨id, id, le_refl _, fun _ => .inl rfl⟩
  · exact ⟨id, id, le_refl _, fun _ => .inl rfl⟩
  · obtain ⟨hidx, -⟩ := (readerInv_wc hr).1 h
    have hle : s.eidx.toNat ≤ (0 : BitVec 10).toNat := by rw [hidx]
    rcases widthCodeRead_next hread with ⟨-, rfl⟩ | ⟨w, -, -, ⟨-, rfl⟩ | ⟨-, rfl⟩⟩
    · exact ⟨id, id, hle, fun _ => .inl rfl⟩
    · exact ⟨id, fun _ => ladder_widthReg w, hle, fun _ => .inl rfl⟩
    · exact ⟨id, fun _ => ladder_widthReg w, hle, fun _ => .inl rfl⟩
  · obtain ⟨hdepth, hcase⟩ := elementRead_next hread
    have hnext : (s.eidx + 1).toNat = s.eidx.toNat + 1 := toNat_add_one_of_lt hdepth
    have hkept : ∀ v a, Memory.read (Memory.write s.ebuf s.eidx.toNat v) a = Memory.read s.ebuf a ∨
        (s.eidx.toNat ≤ a ∧ a < (s.eidx + 1).toNat) := fun v a => by
      by_cases ha : a = s.eidx.toNat
      · exact .inr ⟨by omega, by omega⟩
      · exact .inl (Memory.read_write_ne _ _ ha)
    rcases hcase with ⟨-, rfl⟩ | ⟨-, rfl⟩ <;>
      exact ⟨Memory.wf_write _ hdepth, id, by simp only [hnext]; omega, hkept _⟩
  · exact .refl _

theorem feedBits_writes {b : Bits} {s t : State} (h : ReaderInv s) (hfeed : feedBits b s = .next t) :
    ReaderWrites s t := by
  induction b generalizing s with
  | nil => cases hfeed; exact .refl _
  | cons x b ih =>
    obtain ⟨u, hu, htail⟩ := feedBits_cons_next hfeed
    exact (rdstep_writes h hu).trans (ih (rdstep_keeps_readerInv h hu) htail)

/-- A beat of a load phase keeps the canonical form of EBUF and `WID` on the ladder. -/
theorem loadBeat_keeps_wf {b : InBeat} {s t : State} (h : CoreInv s) (hwf : Memory.wf s.ebuf = true)
    (hwid : LadderOrUnset s.wid) (hbeat : loadBeat b s = .next t) :
    Memory.wf t.ebuf = true ∧ LadderOrUnset t.wid := by
  rcases loadBeat_next hbeat with ⟨-, -, rfl⟩ | ⟨-, -, rfl⟩ | ⟨-, -, rfl⟩ | ⟨hp, -, hdata⟩ | ⟨-, -, rfl⟩
  · rcases encLoadEnd_cases s with ⟨-, he⟩ | ⟨-, -, he⟩ | ⟨-, -, he⟩ <;> rw [he]
    · exact ⟨hwf, hwid⟩
    · exact ⟨hwf, hwid⟩
    · exact ⟨hwf, ladder_widthReg _⟩
  · rcases encLoadData_cases b.data s with ⟨-, -, he⟩ | ⟨-, -, he⟩ | ⟨hc, -, he⟩ | ⟨-, -, he⟩ <;> rw [he]
    · exact ⟨hwf, hwid⟩
    · exact ⟨hwf, hwid⟩
    · have hlt := s.cnt.isLt
      exact ⟨Memory.wf_write _ (lt_of_le_of_ne (Nat.le_of_lt_succ hlt) hc) hwf, hwid⟩
    · exact ⟨hwf, hwid⟩
  · rcases decLoadEnd_cases s with ⟨-, he⟩ | ⟨-, -, he⟩ | ⟨-, -, he⟩ | ⟨-, -, -, he⟩ <;> rw [he] <;> exact ⟨hwf, hwid⟩
  · rcases decLoadData_next hdata with ⟨-, rfl⟩ | ⟨-, -, rfl⟩ | ⟨-, i, -, hfeed⟩
    · exact ⟨hwf, hwid⟩
    · exact ⟨hwf, hwid⟩
    · have hwrites := feedBits_writes ((phaseInv_decLoad hp).1 h.phase).1 hfeed
      exact ⟨hwrites.ebuf hwf, hwrites.wid hwid⟩
  · exact ⟨hwf, hwid⟩

theorem runPosition_keeps_wf {s t : State} (h : CoreInv s) (hwf : Memory.wf s.ebuf = true) (hwid : LadderOrUnset s.wid)
    (hrun : runPosition s = .next t) : Memory.wf t.ebuf = true ∧ LadderOrUnset t.wid := by
  cases ha : acceptsInput s with
  | true =>
    rw [runPosition_input ha] at hrun
    rcases (acceptsInput_iff s).1 ha with hp | hp
    · rw [inputBeat_idle hp] at hrun
      exact loadBeat_keeps_wf (s := startTransaction s.pins.beat.op (logIn s.pins.beat s)) (coreInv_startTransaction _ _)
        hwf (.inl rfl) hrun
    · rw [inputBeat_load hp] at hrun
      exact loadBeat_keeps_wf (s := logIn s.pins.beat s) ⟨h.nacc, h.room, h.status, h.phase⟩ hwf hwid hrun
  | false =>
    rw [runPosition_frame ha hrun]
    exact ⟨hwf, hwid⟩

/-- Running the position leaves `out_valid` as it was. -/
theorem runPosition_outValid {s t : State} (hrun : runPosition s = .next t) : t.outValid = s.outValid := by
  cases ha : acceptsInput s with
  | true =>
    rw [runPosition_input ha] at hrun
    rcases (acceptsInput_iff s).1 ha with hp | hp
    · rw [inputBeat_idle hp] at hrun
      rw [loadBeat_frame hrun]
      rfl
    · rw [inputBeat_load hp] at hrun
      rw [loadBeat_frame hrun]
      rfl
  | false => rw [runPosition_frame ha hrun]

theorem clockEdge_keeps_inv {e : Pins} {s t : State} (h : Inv s) (hedge : clockEdge e s = .next t) : Inv t := by
  have hcore := clockEdge_keeps_coreInv h.core hedge
  suffices hrest : Memory.wf t.ebuf = true ∧ LadderOrUnset t.wid ∧ (t.outValid = true → beatDue t = true) from
    ⟨hrest.1, hcore.nacc, hcore.room, hrest.2.1, hcore.status, hcore.phase, hrest.2.2⟩
  rcases clockEdge_runs hedge with ⟨-, rfl⟩ | ⟨-, p, v, rfl, hv⟩ | ⟨-, p, v, hrun, hv⟩
  · exact ⟨Memory.wf_nil, .inl rfl, nofun⟩
  · exact ⟨h.ebuf, h.wid, fun hvalid => (hv hvalid).elim h.valid id⟩
  · obtain ⟨hwf, hwid⟩ := runPosition_keeps_wf (s := { s with pend := p, outValid := v })
      ⟨h.nacc, h.room, h.status, h.phase⟩ h.ebuf h.wid hrun
    refine ⟨hwf, hwid, fun hvalid => ?_⟩
    obtain ⟨hs, hdue⟩ := hv ((runPosition_outValid hrun).symm.trans hvalid)
    exact absurd (hdue.symm.trans (h.valid hs)) (by decide)

/-! ## The obligations -/

/-- Settles O53. -/
theorem invariantAtReset : Obligations.InvariantAtReset :=
  have hcore := coreInv_resetEdge State.reset
  ⟨Memory.wf_nil, hcore.nacc, hcore.room, .inl rfl, hcore.status, hcore.phase, nofun⟩

/-- The invariant does not look at the script or at the pins. -/
theorem inv_sampled {s : State} (e : Pins) (rest : List Pins) (h : Inv s) : Inv (sampled e rest s) :=
  ⟨h.ebuf, h.nacc, h.room, h.wid, h.status, h.phase, h.valid⟩

/-- Settles O54: an edge is a reset, waiting, or the row at the position, and each keeps the invariant. -/
theorem stepKeepsInvariant : Obligations.StepKeepsInvariant := by
  intro s t h hstep
  rcases step_next hstep with ⟨-, rfl⟩ | ⟨e, rest, -, hedge⟩
  · exact h
  · exact clockEdge_keeps_inv (inv_sampled e rest h) hedge

/-- Settles O55: the row at the position completes, so only the host's instability is left. -/
theorem invariantRulesOutStops : Obligations.InvariantRulesOutStops := by
  refine fun s h => ⟨fun hno => ?noEdge, fun e rest hedges hhost => ?next, fun e rest hedges hr hhost => ?unstable⟩
  case noEdge => simp only [step, nextEdge, hno]
  case next =>
    rw [step_edge hedges]
    exact clockEdge_progress (.inr (inv_sampled e rest h).core) hhost
  case unstable =>
    rw [step_edge hedges]
    simp only [clockEdge, hr, hostBreaks_sampled, hhost, Bool.false_eq_true, if_false, if_true]

/-! ## Consequences -/

theorem status_of_emit {s : State} (h : CoreInv s) (hp : s.ph = .encEmit ∨ s.ph = .decEmit) : s.status = 0 := by
  rcases hp with hp | hp
  · exact ((phaseInv_encEmit hp).1 h.phase).1
  · exact ((phaseInv_decEmit hp).1 h.phase).1

/-- From an emit phase an edge without reset leads to the same phase or to REPORT. -/
theorem phaseAfter_emit {s : State} (e : Pins) (hp : s.ph = .encEmit ∨ s.ph = .decEmit) :
    phaseAfter e s = s.ph ∨ phaseAfter e s = .report := by
  rcases hp with hp | hp
  · rw [phaseAfter_encEmit e hp, hp]; split_ifs <;> simp
  · rw [phaseAfter_decEmit e hp, hp]; split_ifs <;> simp

/-- Settles O51: what is offered is read off the phase, and from an emit phase the step completes with the status it had. -/
theorem noDataBeatBeforeOk : Obligations.NoDataBeatBeforeOk := by
  refine ⟨fun s e hp => ?nothing, fun s o hoffer hfin => ?data, fun s h hp => status_of_emit h.core hp,
    fun s e rest h hp hedges hr hhost => ?completes⟩
  case nothing =>
    refine ⟨?_, outValidAt_of_not_beatDue e (beatDue_of_acceptsInput ((acceptsInput_iff s).2 hp))⟩
    rcases hp with hp | hp | hp <;> simp only [offer, hp]
  case data =>
    rcases offer_cases hoffer with ⟨hp, -⟩ | ⟨hp, -⟩ | ⟨-, rfl⟩
    · exact .inl hp
    · exact .inr hp
    · cases hfin
  case completes =>
    obtain ⟨t, hstep⟩ := (invariantRulesOutStops s h).2.1 e rest hedges (.inr hhost)
    have hph := phaseTransitions s t e rest h hedges hstep
    rw [hr, if_neg Bool.false_ne_true] at hph
    refine ⟨t, hstep, hph ▸ phaseAfter_emit e hp, ?_⟩
    have hok : s.status = 0 := status_of_emit h.core hp
    rw [step_edge hedges] at hstep
    rcases clockEdge_runs hstep with ⟨hrst, -⟩ | ⟨-, p, v, rfl, -⟩ | ⟨-, p, v, hrun, -⟩
    · exact absurd (hr.symm.trans hrst) (by decide)
    · exact hok
    · rw [runPosition_frame (s := { sampled e rest s with pend := p, outValid := v }) (acceptsInput_emit hp) hrun]
      exact hok

theorem encLoadData_kept (v : CodeUnit) (s : State) (a : Nat) :
    Memory.read (encLoadData v s).ebuf a = Memory.read s.ebuf a ∨ a = s.cnt.toNat := by
  rcases encLoadData_cases v s with ⟨-, -, he⟩ | ⟨-, -, he⟩ | ⟨-, -, he⟩ | ⟨-, -, he⟩ <;> rw [he]
  · exact .inl rfl
  · exact .inl rfl
  · exact (eq_or_ne a s.cnt.toNat).elim .inr fun ha => .inl (Memory.read_write_ne _ _ ha)
  · exact .inl rfl

/-- The entries a beat of a load phase may write: the one at `CNT`, those `EIDX` passes (R206). -/
theorem loadBeat_kept {b : InBeat} {s t : State} (h : CoreInv s) (hbeat : loadBeat b s = .next t) (a : Nat) :
    Memory.read t.ebuf a = Memory.read s.ebuf a ∨ (s.ph = .encLoad ∧ t.ph = .encLoad ∧ a = s.cnt.toNat) ∨
      (s.ph = .decLoad ∧ s.eidx.toNat ≤ a ∧ a < t.eidx.toNat) := by
  rcases loadBeat_next hbeat with ⟨-, -, rfl⟩ | ⟨hp, -, rfl⟩ | ⟨-, -, rfl⟩ | ⟨hp, -, hdata⟩ | ⟨-, -, rfl⟩
  · rcases encLoadEnd_cases s with ⟨-, he⟩ | ⟨-, -, he⟩ | ⟨-, -, he⟩ <;> rw [he] <;> exact .inl rfl
  · exact (encLoadData_kept b.data s a).imp id fun ha => .inl ⟨hp, (encLoadData_ph _ _).trans hp, ha⟩
  · rcases decLoadEnd_cases s with ⟨-, he⟩ | ⟨-, -, he⟩ | ⟨-, -, he⟩ | ⟨-, -, -, he⟩ <;> rw [he] <;> exact .inl rfl
  · rcases decLoadData_next hdata with ⟨-, rfl⟩ | ⟨-, -, rfl⟩ | ⟨-, i, -, hfeed⟩
    · exact .inl rfl
    · exact .inl rfl
    · have hwrites := feedBits_writes ((phaseInv_decLoad hp).1 h.phase).1 hfeed
      exact (hwrites.kept a).imp id fun ha => .inr ⟨hp, ha⟩
  · exact .inl rfl

/-- The first symbol of a string ends inside the header. -/
theorem loadBeat_first_eidx {b : InBeat} {s t : State} (hbeat : loadBeat b (startTransaction true s) = .next t) :
    t.eidx = 0 := by
  rcases loadBeat_next hbeat with ⟨hp, -⟩ | ⟨hp, -⟩ | ⟨-, -, rfl⟩ | ⟨-, -, hdata⟩ | ⟨-, hp, -⟩
  · cases hp
  · cases hp
  · rw [decLoadEnd_of_unfinished rfl (show ReaderState.flag ≠ .badwc by decide) (show ReaderState.flag ≠ .done by decide)]
    rfl
  · rcases decLoadData_next hdata with ⟨-, rfl⟩ | ⟨-, -, rfl⟩ | ⟨-, i, hi, hfeed⟩
    · rfl
    · rfl
    · rw [feedBits_firstSymbol (symdec_eq_some_iff.1 hi).1 rfl] at hfeed
      cases hfeed
      rfl
  · exact absurd rfl hp

/-- The entries that running the position may write. -/
theorem runPosition_kept {s t : State} (h : CoreInv s) (hrun : runPosition s = .next t) (a : Nat) :
    Memory.read t.ebuf a = Memory.read s.ebuf a ∨ (s.ph = .idle ∧ t.ph = .encLoad ∧ a = 0) ∨
      (s.ph = .encLoad ∧ a = s.cnt.toNat) ∨ (s.ph = .decLoad ∧ s.eidx.toNat ≤ a ∧ a < t.eidx.toNat) := by
  cases ha : acceptsInput s with
  | false =>
    rw [runPosition_frame ha hrun]
    exact .inl rfl
  | true =>
    rw [runPosition_input ha] at hrun
    rcases (acceptsInput_iff s).1 ha with hp | hp
    · rw [inputBeat_idle hp] at hrun
      rcases loadBeat_kept (coreInv_startTransaction _ _) hrun a with hsame | ⟨-, hph, hz⟩ | ⟨hph, -, hlt⟩
      · exact .inl hsame
      · exact .inr (.inl ⟨hp, hph, hz⟩)
      · have hop : s.pins.beat.op = true := by
          cases ho : s.pins.beat.op with
          | true => rfl
          | false => rw [ho] at hph; cases hph
        rw [hop] at hrun
        rw [loadBeat_first_eidx hrun] at hlt
        cases hlt
    · rw [inputBeat_load hp] at hrun
      rcases loadBeat_kept (s := logIn s.pins.beat s) ⟨h.nacc, h.room, h.status, h.phase⟩ hrun a with
        hsame | ⟨hph, -, hcnt⟩ | hread
      · exact .inl hsame
      · exact .inr (.inr (.inl ⟨hph, hcnt⟩))
      · exact .inr (.inr (.inr hread))

/-- Settles O52: waiting writes nothing, and the row at the position only what its beat's rule says. -/
theorem onlyLoadsWriteTheBuffer : Obligations.OnlyLoadsWriteTheBuffer := by
  intro s t e rest h hedges hr hstep a
  rw [step_edge hedges] at hstep
  rcases clockEdge_runs hstep with ⟨hrst, -⟩ | ⟨-, p, v, rfl, -⟩ | ⟨-, p, v, hrun, -⟩
  · exact absurd (hr.symm.trans hrst) (by decide)
  · exact .inl rfl
  · exact runPosition_kept (s := { sampled e rest s with pend := p, outValid := v })
      ⟨h.nacc, h.room, h.status, h.phase⟩ hrun a

end Sys2Proof.Machine
end

section
/-! What a transaction leads to (44_commands.md R200, R255): the load phases gather the data of ENCODE or DECODE, the emit phases
send what is owed for it, and every step of them counts down. -/

namespace Sys2Proof.Machine

/-! ## What is still to be sent -/

/-- The entry at an index as a number, 0 where its content is unspecified. -/
def entryAt (m : Memory) (i : Nat) : Nat := ((Memory.read m i).getD 0).toNat

/-- The values of `n` entries from index `i` on. -/
def entriesFrom (m : Memory) (i n : Nat) : List Nat := (List.range' i n).map (entryAt m)

/-- The elements from `EIDX` up to `CNT`, still to be pushed or sent. -/
def remaining (s : State) : List Nat := entriesFrom s.ebuf s.eidx.toNat (s.cnt.toNat - s.eidx.toNat)

/-- The bits ENC_EMIT still has to send, without the padding: those held, the header if it is due, the elements. -/
def owedBits (s : State) : Bits :=
  s.acc ++ ((if s.hdone then [] else hdr s.cnt.toNat (wsel s.max.toNat)) ++ emit (remaining s) (wsel s.max.toNat))

/-- A data beat (30_encoding.md R84). -/
def dataBeat (d : CodeUnit) : OutBeat := { fin := false, data := d, status := 0 }

/-- The beats the block still has to send for the input it has taken. -/
def owed (s : State) : List OutBeat :=
  match s.ph with
  | .encEmit => (symbols (pad (owedBits s))).map dataBeat ++ [endBeat s]
  | .decEmit => (remaining s).map (fun v => dataBeat (BitVec.ofNat 16 v)) ++ [endBeat s]
  | .report => [endBeat s]
  | .idle | .encLoad | .decLoad => []

/-- The internal steps still to come: E2, E3 for each element, E4 unless the bits fill their chunks, E5; or X2. -/
def internalLeft (s : State) : Nat :=
  match s.ph with
  | .encEmit =>
    (if s.hdone then 0 else 1) + (s.cnt.toNat - s.eidx.toNat) + (if padLen (owedBits s).length = 0 then 0 else 1) + 1
  | .decEmit => 1
  | .report | .idle | .encLoad | .decLoad => 0

/-- The steps until the block is in IDLE again, if every edge takes one. -/
def stepsLeft (s : State) : Nat := (owed s).length + internalLeft s

theorem owed_encEmit {s : State} (hp : s.ph = .encEmit) :
    owed s = (symbols (pad (owedBits s))).map dataBeat ++ [endBeat s] := by
  simp only [owed, hp]

theorem owed_decEmit {s : State} (hp : s.ph = .decEmit) :
    owed s = (remaining s).map (fun v => dataBeat (BitVec.ofNat 16 v)) ++ [endBeat s] := by
  simp only [owed, hp]

theorem owed_report {s : State} (hp : s.ph = .report) : owed s = [endBeat s] := by simp only [owed, hp]

theorem owed_idle {s : State} (hp : s.ph = .idle) : owed s = [] := by simp only [owed, hp]

theorem internalLeft_encEmit {s : State} (hp : s.ph = .encEmit) : internalLeft s =
    (if s.hdone then 0 else 1) + (s.cnt.toNat - s.eidx.toNat) + (if padLen (owedBits s).length = 0 then 0 else 1) + 1 := by
  simp only [internalLeft, hp]

theorem internalLeft_decEmit {s : State} (hp : s.ph = .decEmit) : internalLeft s = 1 := by simp only [internalLeft, hp]

theorem internalLeft_report {s : State} (hp : s.ph = .report) : internalLeft s = 0 := by simp only [internalLeft, hp]

theorem internalLeft_idle {s : State} (hp : s.ph = .idle) : internalLeft s = 0 := by simp only [internalLeft, hp]

/-! ## The elements -/

theorem entryAt_of_read {m : Memory} {i : Nat} {v : Entry} (h : Memory.read m i = some v) : entryAt m i = v.toNat := by
  rw [entryAt, h, Option.getD_some]

theorem entriesFrom_succ (m : Memory) (i n : Nat) : entriesFrom m i (n + 1) = entryAt m i :: entriesFrom m (i + 1) n := by
  rw [entriesFrom, List.range'_succ, List.map_cons, entriesFrom]

/-- The elements that remain, one by one. -/
theorem remaining_cons {s t : State} (hi : s.eidx.toNat < s.cnt.toNat) (hebuf : t.ebuf = s.ebuf) (hcnt : t.cnt = s.cnt)
    (hidx : t.eidx = s.eidx + 1) : remaining s = entryAt s.ebuf s.eidx.toNat :: remaining t := by
  have hlt := s.cnt.isLt
  have hnext : (s.eidx + 1).toNat = s.eidx.toNat + 1 := toNat_add_one_of_lt (by omega)
  have hcount : s.cnt.toNat - s.eidx.toNat = s.cnt.toNat - (s.eidx.toNat + 1) + 1 := by omega
  rw [remaining, remaining, hebuf, hcnt, hidx, hnext, hcount, entriesFrom_succ]

theorem remaining_nil {s : State} (hi : s.eidx.toNat = s.cnt.toNat) : remaining s = [] := by
  rw [remaining, hi, Nat.sub_self]
  rfl

theorem entriesFrom_of_holds {m : Memory} {i : Nat} {vs : List Nat} (h : Holds m i vs) :
    entriesFrom m i vs.length = vs := by
  induction vs generalizing i with
  | nil => rfl
  | cons v vs ih =>
    obtain ⟨u, hu, hv⟩ := h 0 v rfl
    have hrest : Holds m (i + 1) vs := fun j x hx => by
      have hnext := h (j + 1) x (by simpa using hx)
      rwa [Nat.add_right_comm]
    rw [List.length_cons, entriesFrom_succ, ih hrest, entryAt_of_read (show Memory.read m i = some u from hu), hv]

/-! ## The bits -/

theorem padLen_six_add (n : Nat) : padLen (6 + n) = padLen n := by unfold padLen; omega

theorem pad_chunk_append {x : Bits} (y : Bits) (h : x.length = 6) : pad (x ++ y) = x ++ pad y := by
  rw [pad, pad, List.length_append, h, padLen_six_add, List.append_assoc]

theorem symbols_chunk_append {x : Bits} (y : Bits) (h : x.length = 6) :
    symbols (x ++ y) = symenc (val x) :: symbols y := by
  match x, h with
  | [_, _, _, _, _, _], _ => rfl

/-- A chunk at the head of the bits is one symbol of the string. -/
theorem symbols_pad_chunk {x : Bits} (y : Bits) (h : x.length = 6) :
    symbols (pad (x ++ y)) = symenc (val x) :: symbols (pad y) := by
  rw [pad_chunk_append y h, symbols_chunk_append _ h]

theorem padLen_of_short {n : Nat} (hpos : 0 < n) (hlt : n < 6) : padLen n = 6 - n := by unfold padLen; omega

theorem pad_of_full {b : Bits} (h : b.length = 6) : pad b = b := by
  rw [pad, h]
  exact List.append_nil b

/-! ## The steps of the emit phases -/

/-- Owing the same bits, the block owes the same symbols. -/
theorem owed_eq_of_encEmit {s t : State} (hs : s.ph = .encEmit) (ht : t.ph = .encEmit)
    (hbits : pad (owedBits t) = pad (owedBits s)) (hend : endBeat t = endBeat s) : owed t = owed s := by
  rw [owed_encEmit hs, owed_encEmit ht, hbits, hend]

theorem owedBits_pushHeader {s : State} (hd : s.hdone = false) :
    owedBits (pushHeader (hdr s.cnt.toNat (wsel s.max.toNat)) s) = owedBits s := by
  simp only [owedBits, hd, pushHeader_acc, pushHeader_hdone, Bool.false_eq_true, if_false, if_true, List.nil_append,
    List.append_assoc]
  rfl

theorem owedBits_pushElement {s : State} {v : Entry} (hd : s.hdone = true) (hi : s.eidx.toNat < s.cnt.toNat)
    (hv : Memory.read s.ebuf s.eidx.toNat = some v) :
    owedBits (pushElement (bin (widthBits (wsel s.max.toNat)) v.toNat) s) = owedBits s := by
  have hrem := remaining_cons (t := pushElement (bin (widthBits (wsel s.max.toNat)) v.toNat) s) hi rfl rfl rfl
  simp only [owedBits, hd, pushElement_acc, pushElement_hdone, pushElement_max, if_true, List.nil_append, hrem,
    entryAt_of_read hv, emit, List.append_assoc]

theorem owedBits_pushPadding {s : State} (hd : s.hdone = true) (hi : s.eidx.toNat = s.cnt.toNat) :
    owedBits s = s.acc ∧ owedBits (pushBits (zeros (6 - s.acc.length)) s) = s.acc ++ zeros (6 - s.acc.length) := by
  have hnil := remaining_nil hi
  have hnil' : remaining (pushBits (zeros (6 - s.acc.length)) s) = [] := hnil
  simp only [owedBits, hd, pushBits_acc, pushBits_hdone, if_true, hnil, hnil', emit, List.append_nil, and_self]

theorem owedBits_popSymbol {s : State} (o : OutBeat) (hp : s.ph = .encEmit) :
    owedBits s = s.acc.take 6 ++ owedBits (deliver o s) := by
  rw [deliver_encEmit o hp]
  simp only [owedBits, ← List.append_assoc, List.take_append_drop]
  rfl

/-- What one step of an emit phase or of REPORT does: it sends the first of the beats owed, or it is internal and owes the
same with one internal step less. -/
def SendsOwed (s : State) : Prop :=
  (beatDue s = true ∧ ∃ o, runPosition s = .next (deliver o s) ∧ owed s = o :: owed (deliver o s) ∧
    internalLeft (deliver o s) = internalLeft s) ∨
  (beatDue s = false ∧ ∃ t, runPosition s = .next t ∧ acceptsInput t = false ∧ t.outLog = s.outLog ∧ owed t = owed s ∧
    internalLeft s = internalLeft t + 1)

theorem beatDue_encEmit_eq_false {s : State} (hp : s.ph = .encEmit) (he : emitStep s ≠ .symbol) : beatDue s = false :=
  Bool.eq_false_iff.2 fun h => he ((beatDue_encEmit hp).1 h)

theorem sendsOwed_encEmit {s : State} (h : CoreInv s) (hp : s.ph = .encEmit) : SendsOwed s := by
  rcases encEmit_progress h hp with ⟨he, hsix, hr⟩ | ⟨he, hd, hacc, hzero, hr⟩ | ⟨he, hd, -, hi, v, hv, hr⟩ |
      ⟨he, hd, hn, hpos, hi, hr⟩ | ⟨he, hd, hacc, hi, hr⟩
  · refine .inl ⟨(beatDue_encEmit hp).2 he, _, hr, ?_, ?_⟩
    · have hlen : (s.acc.take 6).length = 6 := List.length_take_of_le hsix
      have hph : (deliver (dataBeat (symenc (val (s.acc.take 6)))) s).ph = .encEmit := by rw [deliver_ph, hp]; rfl
      rw [owed_encEmit hp, owedBits_popSymbol (dataBeat (symenc (val (s.acc.take 6)))) hp, symbols_pad_chunk _ hlen]
      show _ = _ :: owed (deliver (dataBeat (symenc (val (s.acc.take 6)))) s)
      rw [owed_encEmit hph, endBeat, endBeat, deliver_info, deliver_status]
      rfl
    · have hbits := owedBits_popSymbol (dataBeat (symenc (val (s.acc.take 6)))) hp
      have hlen : (s.acc.take 6).length = 6 := List.length_take_of_le hsix
      have hpad : padLen (owedBits s).length =
          padLen (owedBits (deliver (dataBeat (symenc (val (s.acc.take 6)))) s)).length := by
        rw [hbits, List.length_append, hlen, padLen_six_add]
      show internalLeft (deliver (dataBeat (symenc (val (s.acc.take 6)))) s) = _
      rw [internalLeft_encEmit hp, internalLeft_encEmit (by rw [deliver_ph, hp]; rfl), hpad, deliver_hdone, deliver_cnt,
        deliver_encEmit _ hp]
  · have hbits := owedBits_pushHeader hd
    refine .inr ⟨beatDue_encEmit_eq_false hp (by rw [he]; decide), _, hr, acceptsInput_emit (.inl hp), rfl,
      owed_eq_of_encEmit hp hp (by rw [hbits]) rfl, ?_⟩
    rw [internalLeft_encEmit hp, internalLeft_encEmit (s := pushHeader _ s) hp, hbits, hd]
    simp only [pushHeader_hdone, pushHeader_cnt, pushHeader_eidx, Bool.false_eq_true, if_false, if_true]
    omega
  · have hbits := owedBits_pushElement hd hi hv
    have hlt := s.cnt.isLt
    have hnext : (s.eidx + 1).toNat = s.eidx.toNat + 1 := toNat_add_one_of_lt (by omega)
    refine .inr ⟨beatDue_encEmit_eq_false hp (by rw [he]; decide), _, hr, acceptsInput_emit (.inl hp), rfl,
      owed_eq_of_encEmit hp hp (by rw [hbits]) rfl, ?_⟩
    rw [internalLeft_encEmit hp, internalLeft_encEmit (s := pushElement _ s) hp, hbits]
    simp only [pushElement_hdone, pushElement_cnt, pushElement_eidx, hnext, hd, if_true]
    omega
  · obtain ⟨hbits, hbits'⟩ := owedBits_pushPadding hd hi
    have hfull : (s.acc ++ zeros (6 - s.acc.length)).length = 6 := by
      rw [List.length_append, zeros_length]
      omega
    have hpad : pad (owedBits (pushBits (zeros (6 - s.acc.length)) s)) = pad (owedBits s) := by
      rw [hbits, hbits', pad_of_full hfull, pad, padLen_of_short hpos hn]
    refine .inr ⟨beatDue_encEmit_eq_false hp (by rw [he]; decide), _, hr, acceptsInput_emit (.inl hp), rfl,
      owed_eq_of_encEmit hp hp hpad rfl, ?_⟩
    have hnone : padLen (s.acc ++ zeros (6 - s.acc.length)).length = 0 := by rw [hfull]; rfl
    have hsome : ¬ padLen s.acc.length = 0 := by
      rw [padLen_of_short hpos hn]
      omega
    rw [internalLeft_encEmit hp, internalLeft_encEmit (s := pushBits _ s) hp, hbits, hbits', if_pos hnone, if_neg hsome]
    rfl
  · have hbits : owedBits s = [] := by simp only [owedBits, hacc, hd, remaining_nil hi, if_true, emit, List.append_nil]
    refine .inr ⟨beatDue_encEmit_eq_false hp (by rw [he]; decide), _, hr, rfl, rfl, ?_, ?_⟩
    · rw [owed_encEmit hp, owed_report rfl, hbits]
      rfl
    · rw [internalLeft_encEmit hp, internalLeft_report rfl, hbits, hd, hi, Nat.sub_self]
      rfl

theorem sendsOwed_decEmit {s : State} (h : CoreInv s) (hp : s.ph = .decEmit) : SendsOwed s := by
  rcases decEmit_progress h hp with ⟨hi, v, hv, hr⟩ | ⟨hi, hr⟩
  · have hph : (deliver (elementBeat v) s).ph = .decEmit := by rw [deliver_ph, hp]; rfl
    have hrem := remaining_cons (t := deliver (elementBeat v) s) hi (deliver_ebuf _ _) (deliver_cnt _ _)
      (by rw [deliver_decEmit _ hp])
    refine .inl ⟨(beatDue_decEmit hp).2 hi, _, hr, ?_, by rw [internalLeft_decEmit hp, internalLeft_decEmit hph]⟩
    rw [owed_decEmit hp, owed_decEmit hph, hrem, entryAt_of_read hv, endBeat, endBeat, deliver_info, deliver_status,
      elementBeat_eq]
    rfl
  · refine .inr ⟨Bool.eq_false_iff.2 fun hdue => absurd ((beatDue_decEmit hp).1 hdue) (by omega), _, hr, rfl, rfl, ?_, ?_⟩
    · rw [owed_decEmit hp, owed_report rfl, remaining_nil hi]
      rfl
    · rw [internalLeft_decEmit hp, internalLeft_report rfl]

theorem sendsOwed_report {s : State} (h : CoreInv s) (hp : s.ph = .report) : SendsOwed s := by
  have hph : (deliver (endBeat s) s).ph = .idle := by rw [deliver_ph, hp]; rfl
  refine .inl ⟨beatDue_report hp, _, runPosition_report hp h.status, ?_, ?_⟩
  · rw [owed_report hp, owed_idle hph]
  · rw [internalLeft_report hp, internalLeft_idle hph]

/-- Outside IDLE and the load phases every step sends what is owed. -/
theorem sendsOwed {s : State} (h : CoreInv s) (ha : acceptsInput s = false) : SendsOwed s := by
  cases hp : s.ph with
  | idle => exact absurd ((acceptsInput_iff s).2 (.inl hp)) (Bool.eq_false_iff.1 ha)
  | encLoad => exact absurd ((acceptsInput_iff s).2 (.inr (.inl hp))) (Bool.eq_false_iff.1 ha)
  | decLoad => exact absurd ((acceptsInput_iff s).2 (.inr (.inr hp))) (Bool.eq_false_iff.1 ha)
  | encEmit => exact sendsOwed_encEmit h hp
  | decEmit => exact sendsOwed_decEmit h hp
  | report => exact sendsOwed_report h hp

/-! ## The reader reads and writes its own registers -/

/-- The state `r` with the reader's registers of `s` and the buffer `m`. -/
def graft (r : State) (m : Memory) (s : State) : State :=
  { r with
    cnt := s.cnt, wid := s.wid, eidx := s.eidx, rs := s.rs, flag := s.flag, bcnt := s.bcnt, sh := s.sh, ebuf := m }

/-- What bits at the reader do to the buffer depends on the reader's registers only: the entries from `lo` up to `hi` take
values that do not depend on the buffer, and no other entry is looked at. -/
structure WritesBetween (f : Memory → Memory) (lo hi : Nat) : Prop where
  written : ∀ a, lo ≤ a → a < hi → ∀ m m', Memory.read (f m) a = Memory.read (f m') a
  kept : ∀ a m m', Memory.read m a = Memory.read m' a → Memory.read (f m) a = Memory.read (f m') a

theorem writesBetween_id (n : Nat) : WritesBetween id n n := ⟨fun _ hlo hhi => by omega, fun _ _ _ => id⟩

theorem writesBetween_write (i : Nat) (v : Entry) : WritesBetween (fun m => Memory.write m i v) i (i + 1) := by
  refine ⟨fun a hlo hhi m m' => ?_, fun a m m' h => ?_⟩
  · obtain rfl : a = i := by omega
    rw [Memory.read_write_same, Memory.read_write_same]
  · rw [Memory.read_write, Memory.read_write, h]

theorem WritesBetween.comp {f g : Memory → Memory} {lo mid hi : Nat} (hf : WritesBetween f lo mid)
    (hg : WritesBetween g mid hi) : WritesBetween (g ∘ f) lo hi := by
  refine ⟨fun a hlo hhi m m' => ?_, fun a m m' h => hg.kept a _ _ (hf.kept a _ _ h)⟩
  by_cases hmid : a < mid
  · exact hg.kept a _ _ (hf.written a hlo hmid m m')
  · exact hg.written a (by omega) hhi _ _

theorem widthCodeRead_graft {n : Nat} {s t : State} (r : State) (m : Memory) (h : widthCodeRead n s = .next t) :
    widthCodeRead n (graft r m s) = .next (graft r m t) := by
  rcases widthCodeRead_next h with ⟨rfl, rfl⟩ | ⟨w, hw, hn, ⟨hc, rfl⟩ | ⟨hc, rfl⟩⟩
  · rfl
  · interval_cases n <;> cases hw <;> exact congrArg Host.Outcome.next (if_pos hc)
  · interval_cases n <;> cases hw <;> exact congrArg Host.Outcome.next (if_neg hc)

theorem elementRead_graft {v : Entry} {s t : State} (r : State) (m : Memory) (h : elementRead v s = .next t) :
    elementRead v (graft r m s) = .next (graft r (Memory.write m s.eidx.toNat v) t) := by
  obtain ⟨hi, ⟨hc, rfl⟩ | ⟨hc, rfl⟩⟩ := elementRead_next h
  · exact (if_pos hi).trans (if_pos hc)
  · exact (if_pos hi).trans (if_neg hc)

/-- What a run of the reader does to any other state with the same reader's registers. -/
def ReaderRuns (run : State → Out) (s t : State) : Prop :=
  ∃ f, t.ebuf = f s.ebuf ∧ WritesBetween f s.eidx.toNat t.eidx.toNat ∧
    ∀ r m, run (graft r m s) = .next (graft r (f m) t)

theorem rdstep_runs {x : Bool} {s t : State} (h : ReaderInv s) (hstep : rdstep x s = .next t) :
    ReaderRuns (rdstep x) s t := by
  rcases rdstep_next hstep with ⟨hr, rfl⟩ | ⟨hr, hb, rfl⟩ | ⟨hr, hb, rfl⟩ | ⟨hr, hb, hread⟩ | ⟨hr, hb, hread⟩ | ⟨hr, rfl⟩
  · exact ⟨id, rfl, writesBetween_id _, fun r m => rdstep_flag (s := graft r m s) hr⟩
  · exact ⟨id, rfl, writesBetween_id _, fun r m => rdstep_fieldBit (s := graft r m s) hr hb⟩
  · exact ⟨id, rfl, writesBetween_id _, fun r m => rdstep_lengthRead (s := graft r m s) hr hb⟩
  · have hrun : ∀ r m, rdstep x (graft r m s) = .next (graft r m t) := fun r m =>
      (rdstep_widthCodeRead (s := graft r m s) hr hb).trans (widthCodeRead_graft r m hread)
    obtain ⟨hidx, -⟩ := (readerInv_wc hr).1 h
    have hsame : t.ebuf = s.ebuf ∧ t.eidx = s.eidx := by
      rcases widthCodeRead_next hread with ⟨-, rfl⟩ | ⟨w, -, -, ⟨-, rfl⟩ | ⟨-, rfl⟩⟩ <;> exact ⟨rfl, hidx.symm⟩
    exact ⟨id, hsame.1, hsame.2 ▸ writesBetween_id _, hrun⟩
  · have hrun : ∀ r m, rdstep x (graft r m s) = _ := fun r m =>
      (rdstep_elementRead (s := graft r m s) hr hb).trans (elementRead_graft r m hread)
    obtain ⟨hdepth, hcase⟩ := elementRead_next hread
    have hsame : t.ebuf = Memory.write s.ebuf s.eidx.toNat (shLow9 (shiftIn s.sh x)) ∧ t.eidx = s.eidx + 1 := by
      rcases hcase with ⟨-, rfl⟩ | ⟨-, rfl⟩ <;> exact ⟨rfl, rfl⟩
    have hnext : t.eidx.toNat = s.eidx.toNat + 1 := by rw [hsame.2]; exact toNat_add_one_of_lt hdepth
    exact ⟨_, hsame.1, hnext ▸ writesBetween_write _ _, hrun⟩
  · exact ⟨id, rfl, writesBetween_id _, fun r m => rdstep_ignored (s := graft r m t) hr⟩

theorem feedBits_runs {b : Bits} {s t : State} (h : ReaderInv s) (hfeed : feedBits b s = .next t) :
    ReaderRuns (feedBits b) s t := by
  induction b generalizing s with
  | nil => cases hfeed; exact ⟨id, rfl, writesBetween_id _, fun _ _ => rfl⟩
  | cons x b ih =>
    obtain ⟨u, hu, htail⟩ := feedBits_cons_next hfeed
    obtain ⟨f, hf, hwrites, hrun⟩ := rdstep_runs h hu
    obtain ⟨g, hg, hwrites', hrun'⟩ := ih (rdstep_keeps_readerInv h hu) htail
    exact ⟨g ∘ f, by rw [hg, hf]; rfl, hwrites.comp hwrites',
      fun r m => (feedBits_cons_of_next b (hrun r m)).trans (hrun' r (f m))⟩

/-! ## What the load phases gather -/

/-- ENC_LOAD after these `in_data` values (44_commands.md R185). -/
structure EncLoaded (data : List CodeUnit) (s : State) : Prop where
  valid : s.rerr = false → ∀ d ∈ data, 1 ≤ d.toNat ∧ d.toNat ≤ 300
  invalid : s.rerr = true → ∃ d ∈ data, ¬ (1 ≤ d.toNat ∧ d.toNat ≤ 300)
  count : s.ovf = false → s.cnt.toNat = data.length
  full : s.ovf = true → s.cnt = 1023 ∧ 1023 < data.length
  stored : s.rerr = false → s.ovf = false → Holds s.ebuf 0 (data.map BitVec.toNat)
  maximum : s.rerr = false → s.ovf = false → s.max.toNat = seqMax (data.map BitVec.toNat)

/-- DEC_LOAD after these `in_data` values (R193): the first invalid code unit, or the reader after all their bits. -/
def DecLoaded (data : List CodeUnit) (s : State) : Prop :=
  (s.icerr = true ∧ unchunk data = .err .invalidCharacter s.badc) ∨
  (s.icerr = false ∧ ∃ b s₀, unchunk data = .ok b ∧ s₀.rs = .flag ∧ ReaderInv s₀ ∧ feedBits b s₀ = .next s)

/-- A load phase of the command `op` after these `in_data` values, with its registers in order. -/
def Loaded (op : Bool) (data : List CodeUnit) (s : State) : Prop :=
  CoreInv s ∧ if op then s.ph = .decLoad ∧ DecLoaded data s else s.ph = .encLoad ∧ EncLoaded data s

theorem loaded_startTransaction (op : Bool) (s : State) : Loaded op [] (startTransaction op s) := by
  refine ⟨coreInv_startTransaction op s, ?_⟩
  cases op with
  | false =>
    refine ⟨rfl, ⟨fun _ d hd => absurd hd List.not_mem_nil, fun h => absurd h Bool.false_ne_true, fun _ => rfl,
      fun h => absurd h Bool.false_ne_true, fun _ _ j x hx => ?_, fun _ _ => rfl⟩⟩
    cases hx
  | true => exact ⟨rfl, .inr ⟨rfl, [], _, rfl, rfl, (readerInv_flag rfl).2 rfl, rfl⟩⟩

theorem Loaded.ph {op : Bool} {data : List CodeUnit} {s : State} (h : Loaded op data s) :
    s.ph = if op then .decLoad else .encLoad := by
  obtain ⟨-, h⟩ := h
  cases op with
  | false => exact h.1
  | true => exact h.1

/-- The run of the reader that led here is one from any other interface as well. -/
theorem DecLoaded.graft {data : List CodeUnit} {r s : State} (h : DecLoaded data s) (hicerr : r.icerr = s.icerr)
    (hbadc : r.badc = s.badc) : DecLoaded data (graft r s.ebuf s) := by
  rcases h with ⟨hi, herr⟩ | ⟨hi, b, s₀, hb, hr, hinv, hfeed⟩
  · exact .inl ⟨hicerr.trans hi, herr.trans (by rw [← hbadc]; rfl)⟩
  · obtain ⟨f, hf, -, hrun⟩ := feedBits_runs hinv hfeed
    have hmoved := hrun r s₀.ebuf
    rw [← hf] at hmoved
    exact .inr ⟨hicerr.trans hi, b, Machine.graft r s₀.ebuf s₀, hb, hr, (readerInv_flag hr).2 ((readerInv_flag hr).1 hinv),
      hmoved⟩

/-- Only the registers and EBUF matter to what a load phase has gathered. -/
theorem Loaded.congr {op : Bool} {data : List CodeUnit} {s : State} (h : Loaded op data s) (pins : Pins) (v : Bool)
    (edges : List Pins) (pend : Option InBeat) (inLog : List InBeat) :
    Loaded op data { s with pins := pins, outValid := v, edges := edges, pend := pend, inLog := inLog } := by
  obtain ⟨hcore, h⟩ := h
  refine ⟨⟨hcore.nacc, hcore.room, hcore.status, hcore.phase⟩, ?_⟩
  cases op with
  | false =>
    obtain ⟨hp, henc⟩ := h
    exact ⟨hp, henc.valid, henc.invalid, henc.count, henc.full, henc.stored, henc.maximum⟩
  | true =>
    obtain ⟨hp, hdec⟩ := h
    exact ⟨hp, hdec.graft (r := { s with pins := pins, outValid := v, edges := edges, pend := pend, inLog := inLog }) rfl rfl⟩

theorem seqMax_append_singleton (l : List Nat) (v : Nat) : seqMax (l ++ [v]) = max (seqMax l) v := by
  induction l with
  | nil => simp [seqMax]
  | cons u l ih => rw [List.cons_append, seqMax, seqMax, ih, max_assoc]

theorem Holds.write {m : Memory} {vs : List Nat} {v : Entry} (h : Holds m 0 vs) :
    Holds (Memory.write m vs.length v) 0 (vs ++ [v.toNat]) := by
  intro j x hx
  by_cases hj : j < vs.length
  · obtain ⟨u, hu, hux⟩ := h j x (by rwa [List.getElem?_append_left hj] at hx)
    exact ⟨u, by rw [Memory.read_write_ne _ _ (by omega), hu], hux⟩
  · have hlast : j = vs.length := by
      have hlt := (List.getElem?_eq_some_iff.1 hx).1
      rw [List.length_append, List.length_singleton] at hlt
      omega
    subst hlast
    obtain rfl : v.toNat = x := by simpa using hx
    exact ⟨v, by rw [Nat.zero_add, Memory.read_write_same], rfl⟩

theorem encLoaded_data {data : List CodeUnit} {s : State} (v : CodeUnit) (h : EncLoaded data s) :
    EncLoaded (data ++ [v]) (encLoadData v s) := by
  have hvalid : s.rerr = false → (1 ≤ v.toNat ∧ v.toNat ≤ 300) → ∀ d ∈ data ++ [v], 1 ≤ d.toNat ∧ d.toNat ≤ 300 := by
    intro hr hv d hd
    rcases List.mem_append.1 hd with hd | hd
    · exact h.valid hr d hd
    · rwa [List.mem_singleton.1 hd]
  have hinvalid : s.rerr = true → ∃ d ∈ data ++ [v], ¬ (1 ≤ d.toNat ∧ d.toNat ≤ 300) := fun hr =>
    let ⟨d, hd, hbad⟩ := h.invalid hr
    ⟨d, List.mem_append_left _ hd, hbad⟩
  have hbad : inRange v = false → ∃ d ∈ data ++ [v], ¬ (1 ≤ d.toNat ∧ d.toNat ≤ 300) := fun hr =>
    ⟨v, List.mem_append_right _ (List.mem_singleton_self v),
      fun hgood => Bool.eq_false_iff.1 hr ((inRange_iff v).2 hgood)⟩
  have hlen : (data ++ [v]).length = data.length + 1 := by rw [List.length_append, List.length_singleton]
  have hfull : s.cnt.toNat = Config.cntMax → s.cnt = 1023 ∧ 1023 < (data ++ [v]).length := fun hc => by
    refine ⟨(cnt_toNat_eq_cntMax_iff s).1 hc, ?_⟩
    have hc : s.cnt.toNat = 1023 := hc
    cases ho : s.ovf with
    | false => have := h.count ho; omega
    | true => have := (h.full ho).2; omega
  have hnotfull : s.cnt.toNat ≠ Config.cntMax → s.ovf = false ∧ (s.cnt + 1).toNat = (data ++ [v]).length := fun hc => by
    have ho : s.ovf = false := by
      cases ho : s.ovf with
      | false => rfl
      | true => exact absurd ((cnt_toNat_eq_cntMax_iff s).2 (h.full ho).1) hc
    have hlt := s.cnt.isLt
    have hne : s.cnt.toNat ≠ 1023 := hc
    exact ⟨ho, by rw [toNat_add_one_of_lt (by omega), h.count ho, hlen]⟩
  rcases encLoadData_cases v s with ⟨hc, hr, he⟩ | ⟨hc, hr, he⟩ | ⟨hc, hr, he⟩ | ⟨hc, hr, he⟩ <;> rw [he]
  · exact ⟨fun hs => hvalid hs ((inRange_iff v).1 hr), hinvalid, nofun, fun _ => hfull hc, fun _ => nofun, fun _ => nofun⟩
  · exact ⟨nofun, fun _ => hbad hr, nofun, fun _ => hfull hc, nofun, nofun⟩
  · obtain ⟨ho, hcnt⟩ := hnotfull hc
    have hgood := (inRange_iff v).1 hr
    have hlow : (low9 v).toNat = v.toNat := low9_toNat hgood.2
    refine ⟨fun hs => hvalid hs hgood, hinvalid, fun _ => hcnt, fun ho' => absurd (ho.symm.trans ho') (by decide),
      fun hs _ => ?_, fun hs _ => ?_⟩
    · have hholds := (h.stored hs ho).write (v := low9 v)
      rw [List.length_map, ← h.count ho, hlow] at hholds
      rw [List.map_append]
      exact hholds
    · show (if s.max.toNat < (low9 v).toNat then low9 v else s.max).toNat = _
      rw [List.map_append, List.map_singleton, seqMax_append_singleton, ← h.maximum hs ho, hlow]
      split_ifs <;> omega
  · obtain ⟨ho, hcnt⟩ := hnotfull hc
    exact ⟨nofun, fun _ => hbad hr, fun _ => hcnt, fun ho' => absurd (ho.symm.trans ho') (by decide), nofun, nofun⟩

theorem unchunk_append_err {data rest : List CodeUnit} {k : ErrKind} {i : CodeUnit} (h : unchunk data = .err k i) :
    unchunk (data ++ rest) = .err k i := by
  induction data with
  | nil => cases h
  | cons c data ih =>
    cases hc : symdec c with
    | none => simpa only [List.cons_append, unchunk, hc] using h
    | some n =>
      cases hd : unchunk data with
      | ok b => simp only [unchunk, hc, hd] at h; cases h
      | err k' i' =>
        simp only [unchunk, hc, hd] at h
        simp only [List.cons_append, unchunk, hc, ih (hd.trans h)]

/-- UNCHUNK symbol by symbol from the right (42_symbol_codec.md R148). -/
theorem unchunk_append_singleton {data : List CodeUnit} {b : Bits} (c : CodeUnit) (h : unchunk data = .ok b) :
    unchunk (data ++ [c]) = match symdec c with
      | none => .err .invalidCharacter c
      | some i => .ok (b ++ expand i) := by
  induction data generalizing b with
  | nil =>
    cases h
    cases hc : symdec c with
    | none => simp only [List.nil_append, unchunk, hc]
    | some i => simp only [List.nil_append, unchunk, hc, List.append_nil]
  | cons d data ih =>
    cases hd : symdec d with
    | none => simp only [unchunk, hd] at h; cases h
    | some n =>
      cases hrest : unchunk data with
      | err k i => simp only [unchunk, hd, hrest] at h; cases h
      | ok b' =>
        simp only [unchunk, hd, hrest] at h
        cases h
        have htail := ih hrest
        cases hc : symdec c with
        | none => rw [hc] at htail; simp only [List.cons_append, unchunk, hd, htail]
        | some i => rw [hc] at htail; simp only [List.cons_append, unchunk, hd, htail, List.append_assoc]

theorem decLoaded_data {data : List CodeUnit} {c : CodeUnit} {s t : State} (h : DecLoaded data s)
    (hdata : decLoadData c s = .next t) : DecLoaded (data ++ [c]) t := by
  rcases h with ⟨hi, herr⟩ | ⟨hi, b, s₀, hb, hr, hinv, hfeed⟩
  · rw [decLoadData_of_icerr c hi] at hdata
    cases hdata
    exact .inl ⟨hi, unchunk_append_err herr⟩
  · have happend := unchunk_append_singleton c hb
    rcases decLoadData_next hdata with ⟨hi', -⟩ | ⟨-, hc, rfl⟩ | ⟨-, i, hc, hfeed'⟩
    · exact absurd (hi.symm.trans hi') (by decide)
    · rw [hc] at happend
      exact .inl ⟨rfl, happend⟩
    · rw [hc] at happend
      have hicerr : t.icerr = false := by rw [feedBits_frame hfeed']; exact hi
      exact .inr ⟨hicerr, b ++ expand i, s₀, happend, hr, hinv, (feedBits_append hfeed).trans hfeed'⟩

/-- A data beat adds its `in_data` to what the load phase has gathered. -/
theorem loaded_data {op : Bool} {data : List CodeUnit} {b : InBeat} {s t : State} (h : Loaded op data s)
    (hfin : b.fin = false) (hbeat : loadBeat b s = .next t) : Loaded op (data ++ [b.data]) t := by
  have hcore := loadBeat_keeps_coreInv h.1 hbeat
  refine ⟨hcore, ?_⟩
  obtain ⟨-, h⟩ := h
  cases op with
  | false =>
    obtain ⟨hp, henc⟩ := h
    rw [loadBeat_encLoad hp, hfin, if_neg Bool.false_ne_true] at hbeat
    cases hbeat
    exact ⟨(encLoadData_ph _ _).trans hp, encLoaded_data _ henc⟩
  | true =>
    obtain ⟨hp, hdec⟩ := h
    rw [loadBeat_decLoad hp, hfin, if_neg Bool.false_ne_true] at hbeat
    exact ⟨(decLoadData_ph hbeat).trans hp, decLoaded_data hdec hbeat⟩

/-! ## What the end beat owes -/

/-- The transaction's input is complete: what the block owes is the response, within the internal steps of R255. -/
structure Owes (op : Bool) (data : List CodeUnit) (t : State) : Prop where
  core : CoreInv t
  busy : acceptsInput t = false
  owed : owed t = respond op data
  steps : stepsLeft t ≤ drainBound op data

theorem owed_takeError (k : ErrKind) (info : CodeUnit) (s : State) :
    owed (takeError k info s) = [{ fin := true, data := info, status := errCode k }] :=
  owed_report rfl

theorem respond_encode (data : List CodeUnit) : respond false data =
    responseOf (fun c => c) (encodeFn ((data.map BitVec.toNat).map Nat.cast)) := by
  rw [List.map_map]
  rfl

theorem respond_decode (data : List CodeUnit) :
    respond true data = responseOf (fun v => BitVec.ofNat 16 v) (decodeFn data) := rfl

/-- An error owes the end beat alone, and no internal step. -/
theorem owes_takeError {op : Bool} {data : List CodeUnit} {k : ErrKind} {info : CodeUnit} {s : State}
    (hcore : CoreInv (takeError k info s))
    (h : respond op data = [{ fin := true, data := info, status := errCode k }]) :
    Owes op data (takeError k info s) := by
  have howed : owed (takeError k info s) = respond op data := (owed_takeError k info s).trans h.symm
  have hsteps : stepsLeft (takeError k info s) = (respond op data).length := by
    rw [stepsLeft, howed, internalLeft_report rfl, Nat.add_zero]
  refine ⟨hcore, rfl, howed, ?_⟩
  rw [hsteps, drainBound]
  split_ifs <;> omega

theorem exists_cast_invalid {data : List CodeUnit} (h : ∃ d ∈ data, ¬ (1 ≤ d.toNat ∧ d.toNat ≤ 300)) :
    ¬ ∀ v ∈ ((data.map BitVec.toNat).map Nat.cast : List Int), 1 ≤ v ∧ v ≤ 300 := by
  obtain ⟨d, hd, hbad⟩ := h
  intro hall
  have hrange := hall (d.toNat : Int) (List.mem_map_of_mem (List.mem_map_of_mem hd))
  exact hbad (by omega)

theorem encLoaded_end {data : List CodeUnit} {s : State} (hcore : CoreInv (encLoadEnd s)) (h : EncLoaded data s) :
    Owes false data (encLoadEnd s) := by
  have hvalid : s.rerr = false → ∀ v ∈ data.map BitVec.toNat, 1 ≤ v ∧ v ≤ 300 := fun hr v hv => by
    obtain ⟨d, hd, rfl⟩ := List.mem_map.1 hv
    exact h.valid hr d hd
  rcases encLoadEnd_cases s with ⟨hr, he⟩ | ⟨hr, ho, he⟩ | ⟨hr, ho, he⟩
  · rw [he] at hcore ⊢
    refine owes_takeError hcore ?_
    rw [respond_encode, encodeFn_of_invalid (exists_cast_invalid (h.invalid hr))]
    rfl
  · rw [he] at hcore ⊢
    refine owes_takeError hcore ?_
    have hlong : 1024 ≤ ((data.map BitVec.toNat).map Nat.cast : List Int).length := by
      have hfull := (h.full ho).2
      rw [List.length_map, List.length_map]
      omega
    have hrange : ∀ v ∈ ((data.map BitVec.toNat).map Nat.cast : List Int), 1 ≤ v ∧ v ≤ 300 := fun v hv => by
      obtain ⟨u, hu, rfl⟩ := List.mem_map.1 hv
      have := hvalid hr u hu
      omega
    rw [respond_encode, encodeFn_of_long hrange hlong]
    rfl
  · have hcount := h.count ho
    have hlen : (data.map BitVec.toNat).length ≤ 1023 := by
      have hlt := s.cnt.isLt
      rw [List.length_map]
      omega
    have hbits : owedBits (encLoadEnd s) =
        hdr (data.map BitVec.toNat).length (seqWidth (data.map BitVec.toNat)) ++
          emit (data.map BitVec.toNat) (seqWidth (data.map BitVec.toNat)) := by
      have hrem : remaining (encLoadEnd s) = data.map BitVec.toNat := by
        rw [he]
        show entriesFrom s.ebuf 0 (s.cnt.toNat - 0) = _
        rw [Nat.sub_zero, hcount, ← List.length_map (as := data) BitVec.toNat]
        exact entriesFrom_of_holds (h.stored hr ho)
      rw [owedBits, hrem, seqWidth_eq_wsel, ← h.maximum hr ho, List.length_map, ← hcount, he]
      rfl
    have hph : (encLoadEnd s).ph = .encEmit := by rw [he]
    have howed : owed (encLoadEnd s) = respond false data := by
      rw [owed_encEmit hph, hbits, respond_encode, encodeFn_cast hlen (hvalid hr), he]
      rfl
    refine ⟨hcore, acceptsInput_emit (.inl hph), howed, ?_⟩
    rw [stepsLeft, howed, internalLeft_encEmit hph, he]
    show _ + ((if false = true then 0 else 1) + (s.cnt.toNat - 0) + _ + 1) ≤ (respond false data).length + data.length + 3
    rw [if_neg Bool.false_ne_true, hcount]
    split_ifs <;> omega

/-- HPARSE, ELEMS and UNPACK fail with TRUNCATED_INPUT or INVALID_WIDTH_CODE, without `out_data` (60_exceptions.md). -/
def ReaderError (k : ErrKind) (i : CodeUnit) : Prop :=
  (k = .truncatedInput ∧ i = 0) ∨ (k = .invalidWidthCode ∧ i = 0)

theorem readerError_of_read {b : Bits} {p n : Nat} {k : ErrKind} {i : CodeUnit} (h : read b p n = .err k i) :
    ReaderError k i :=
  let ⟨hk, hi, _⟩ := read_err h
  .inl ⟨hk, hi⟩

theorem readerError_of_hparse {b : Bits} {k : ErrKind} {i : CodeUnit} (h : hparse b = .err k i) : ReaderError k i := by
  unfold hparse at h
  split at h
  case h_1 hread => cases h; exact readerError_of_read hread
  case h_2 =>
    split at h
    case h_1 hread => cases h; exact readerError_of_read hread
    case h_2 =>
      split at h
      case h_1 hread => cases h; exact readerError_of_read hread
      case h_2 =>
        split at h
        case h_1 hcode =>
          cases h
          obtain ⟨-, hk, hi⟩ := wdec_eq_err hcode
          exact .inr ⟨hk, hi⟩
        case h_2 => cases h

theorem readerError_of_elems {b : Bits} {p n : Nat} {w : Width} {k : ErrKind} {i : CodeUnit}
    (h : elems b p n w = .err k i) : ReaderError k i := by
  induction n generalizing p with
  | zero => cases h
  | succ n ih =>
    cases hread : read b p (widthBits w) with
    | err k' i' =>
      rw [elems_succ_of_read_err n hread] at h
      cases h
      exact readerError_of_read hread
    | ok vp =>
      cases htail : elems b vp.2 n w with
      | err k' i' =>
        rw [elems_succ_of_err hread htail] at h
        cases h
        exact ih htail
      | ok vs =>
        rw [elems_succ_of_ok hread htail] at h
        cases h

theorem unpack_eq_err {b : Bits} {k : ErrKind} {i : CodeUnit} (h : unpack b = .err k i) : ReaderError k i := by
  cases hhdr : hparse b with
  | err k' i' =>
    rw [unpack_of_header_err hhdr] at h
    cases h
    exact readerError_of_hparse hhdr
  | ok nwp => exact readerError_of_elems ((unpack_of_header hhdr).symm.trans h)

theorem decLoaded_end {data : List CodeUnit} {s : State} (hcore : CoreInv (decLoadEnd s)) (h : DecLoaded data s) :
    Owes true data (decLoadEnd s) := by
  rcases h with ⟨hi, herr⟩ | ⟨hi, b, s₀, hb, hr, -, hfeed⟩
  · rw [decLoadEnd_of_icerr hi] at hcore ⊢
    refine owes_takeError hcore ?_
    rw [respond_decode, decodeFn_of_unchunk_err herr]
    rfl
  · obtain ⟨t, ht, hanswers⟩ := feedBits_answers b hr
    obtain rfl : s = t := Host.Outcome.next.inj (hfeed.symm.trans ht)
    rw [ReaderAnswers, ← decodeFn_of_unchunk hb] at hanswers
    cases hdec : decodeFn data with
    | ok vs =>
      simp only [hdec] at hanswers
      obtain ⟨hrs, hcnt, -, hholds⟩ := hanswers
      rw [decLoadEnd_of_done hi hrs] at hcore ⊢
      have howed : owed { s with status := okCode, info := 0, eidx := 0, ph := .decEmit } = respond true data := by
        rw [owed_decEmit rfl, respond_decode, hdec]
        have hrem : remaining { s with status := okCode, info := 0, eidx := 0, ph := .decEmit } = vs := by
          show entriesFrom s.ebuf 0 (s.cnt.toNat - 0) = vs
          rw [Nat.sub_zero, hcnt]
          exact entriesFrom_of_holds hholds
        rw [hrem]
        rfl
      refine ⟨hcore, rfl, howed, ?_⟩
      rw [stepsLeft, howed, internalLeft_decEmit rfl]
      rfl
    | err k i =>
      simp only [hdec] at hanswers
      have herr : unpack b = .err k i := (decodeFn_of_unchunk hb).symm.trans hdec
      have hresponse : respond true data = [{ fin := true, data := i, status := errCode k }] := by
        rw [respond_decode, hdec]
        rfl
      rcases unpack_eq_err herr with ⟨rfl, rfl⟩ | ⟨rfl, rfl⟩
      · have hunfinished : s.rs ≠ .badwc ∧ s.rs ≠ .done := by
          rcases hanswers with hrs | hrs | hrs | hrs <;> exact hrs ▸ ⟨by decide, by decide⟩
        rw [decLoadEnd_of_unfinished hi hunfinished.1 hunfinished.2] at hcore ⊢
        exact owes_takeError hcore hresponse
      · rw [decLoadEnd_of_badwc hi hanswers] at hcore ⊢
        exact owes_takeError hcore hresponse

/-! ## One input beat -/

/-- The block takes the data of a transaction of `op` and has taken `data`: in IDLE none, in a load phase what it gathered. -/
def Gathering (op : Bool) (data : List CodeUnit) (s : State) : Prop := (s.ph = .idle ∧ data = []) ∨ Loaded op data s

theorem Gathering.congr {op : Bool} {data : List CodeUnit} {s : State} (h : Gathering op data s) (pins : Pins) (v : Bool)
    (edges : List Pins) (pend : Option InBeat) :
    Gathering op data { s with pins := pins, outValid := v, edges := edges, pend := pend } :=
  h.imp id fun hl => hl.congr pins v edges pend s.inLog

theorem Gathering.acceptsInput {op : Bool} {data : List CodeUnit} {s : State} (h : Gathering op data s) :
    acceptsInput s = true := by
  rw [acceptsInput_iff]
  refine h.imp And.left fun hl => ?_
  cases op with
  | false => exact .inl hl.ph
  | true => exact .inr hl.ph

theorem Gathering.progress {op : Bool} {data : List CodeUnit} {s : State} (h : Gathering op data s) :
    s.ph = .idle ∨ CoreInv s :=
  h.imp And.left And.left

/-- The load phase that processes a beat has gathered what the block had before it. -/
theorem Gathering.loads {op : Bool} {data : List CodeUnit} {b : InBeat} {s : State} (h : Gathering op data s)
    (hop : s.ph = .idle → b.op = op) : ∃ s', Machine.inputBeat b s = loadBeat b s' ∧ Loaded op data s' := by
  rcases h with ⟨hp, rfl⟩ | hl
  · exact ⟨_, inputBeat_idle hp, hop hp ▸ loaded_startTransaction _ _⟩
  · have hp : s.ph = .encLoad ∨ s.ph = .decLoad := by
      cases op with
      | false => exact .inl hl.ph
      | true => exact .inr hl.ph
    exact ⟨_, inputBeat_load hp, hl.congr s.pins s.outValid s.edges s.pend (s.inLog ++ [b])⟩

/-- A data beat is gathered. -/
theorem Gathering.data {op : Bool} {data : List CodeUnit} {b : InBeat} {s t : State} (h : Gathering op data s)
    (hop : s.ph = .idle → b.op = op) (hfin : b.fin = false) (hbeat : inputBeat b s = .next t) :
    Loaded op (data ++ [b.data]) t := by
  obtain ⟨s', hload, hl⟩ := h.loads hop
  exact loaded_data hl hfin (hload.symm.trans hbeat)

/-- The end beat decides what is owed. -/
theorem Gathering.endBeat {op : Bool} {data : List CodeUnit} {b : InBeat} {s t : State} (h : Gathering op data s)
    (hop : s.ph = .idle → b.op = op) (hfin : b.fin = true) (hbeat : inputBeat b s = .next t) : Owes op data t := by
  obtain ⟨s', hload, hcore', hl⟩ := h.loads hop
  rw [hload] at hbeat
  have hcore := loadBeat_keeps_coreInv hcore' hbeat
  cases op with
  | false =>
    obtain ⟨hp, henc⟩ := hl
    rw [loadBeat_encLoad hp, hfin, if_pos rfl] at hbeat
    cases hbeat
    exact encLoaded_end hcore henc
  | true =>
    obtain ⟨hp, hdec⟩ := hl
    rw [loadBeat_decLoad hp, hfin, if_pos rfl] at hbeat
    cases hbeat
    exact decLoaded_end hcore hdec

/-- Running the position leaves the script, what is presented and `out_valid` as they were. -/
theorem runPosition_script {s t : State} (h : runPosition s = .next t) : t.pend = s.pend ∧ t.edges = s.edges := by
  cases ha : acceptsInput s with
  | true =>
    rw [runPosition_input ha] at h
    rcases (acceptsInput_iff s).1 ha with hp | hp
    · rw [inputBeat_idle hp] at h
      rw [loadBeat_frame h]
      exact ⟨rfl, rfl⟩
    · rw [inputBeat_load hp] at h
      rw [loadBeat_frame h]
      exact ⟨rfl, rfl⟩
  | false =>
    rw [runPosition_frame ha h]
    exact ⟨rfl, rfl⟩

/-! ## Runs -/

theorem runSteps_succ (k : Nat) (s : State) :
    runSteps (k + 1) s =
      match step s with
      | .next t => runSteps k t
      | .fault r => .fault r
      | .refused r => .refused r := by
  have hrun := Host.Core.run.eq_2 core s k
  cases hs : step s with
  | next t => exact hrun.trans (by rw [show core.step s = .next t from hs]; rfl)
  | fault r => exact hrun.trans (by rw [show core.step s = .fault r from hs]; rfl)
  | refused r => exact hrun.trans (by rw [show core.step s = .refused r from hs]; rfl)

theorem runSteps_succ_of_next {s t : State} (k : Nat) (h : step s = .next t) : runSteps (k + 1) s = runSteps k t := by
  rw [runSteps_succ, h]

theorem runSteps_succ_next {k : Nat} {s u : State} (h : runSteps (k + 1) s = .next u) :
    ∃ t, step s = .next t ∧ runSteps k t = .next u := by
  rw [runSteps_succ] at h
  cases hs : step s with
  | next t => rw [hs] at h; exact ⟨t, rfl, h⟩
  | fault r => rw [hs] at h; cases h
  | refused r => rw [hs] at h; cases h

theorem runSteps_add {j : Nat} {s t : State} (k : Nat) (h : runSteps j s = .next t) :
    runSteps (j + k) s = runSteps k t := by
  induction j generalizing s with
  | zero => cases h; rw [Nat.zero_add]
  | succ j ih =>
    obtain ⟨u, hu, hrun⟩ := runSteps_succ_next h
    rw [Nat.add_right_comm, runSteps_succ_of_next _ hu, ih hrun]

theorem noReset_step {s t : State} (hreset : noReset s.edges) (hstep : step s = .next t) : noReset t.edges := by
  rcases step_next hstep with ⟨-, rfl⟩ | ⟨e, rest, hedges, hedge⟩
  · exact hreset
  · rw [hedges] at hreset
    obtain ⟨hrst, hrest⟩ := List.forall_mem_cons.1 hreset
    rcases clockEdge_runs hedge with ⟨hr, -⟩ | ⟨-, p, v, rfl, -⟩ | ⟨-, p, v, hrun, -⟩
    · exact absurd (hrst.symm.trans hr) Bool.false_ne_true
    · exact hrest
    · rw [(runPosition_script hrun).2]
      exact hrest

/-! ## A transaction with both sides willing (R255) -/

/-- A willing edge gives the block its beat. -/
theorem willing_step {op fin : Bool} {d : CodeUnit} {data : List CodeUnit} {rest : List Pins} {s : State}
    (h : Gathering op data s) (hpend : s.pend = none) (hedges : s.edges = willingEdge op fin d :: rest) :
    ∃ s' t, step s = .next t ∧ Gathering op data s' ∧ inputBeat ⟨op, fin, d⟩ s' = .next t ∧
      t.edges = rest ∧ t.pend = none ∧ t.outLog = s.outLog := by
  have hready : Gathering op data { sampled (willingEdge op fin d) rest s with pend := none } :=
    h.congr (willingEdge op fin d) s.outValid rest none
  have hhost : hostBreaks (willingEdge op fin d) (sampled (willingEdge op fin d) rest s) = false := by
    rw [hostBreaks_sampled, hostBreaks, hpend]
  obtain ⟨t, hrun⟩ := runPosition_progress hready.progress
  have hstep : step s = .next t := by
    rw [step_edge hedges, clockEdge_input (s := sampled (willingEdge op fin d) rest s) rfl hhost h.acceptsInput,
      inputEdge_taken _ rfl rfl, hrun]
  obtain ⟨hp, he⟩ := runPosition_script hrun
  rw [runPosition_input hready.acceptsInput] at hrun
  exact ⟨_, t, hstep, hready, hrun, he, hp, (inputBeat_logs hready.acceptsInput hrun).2⟩

/-- The data beats, by induction on those to come. -/
theorem willing_data {op : Bool} {data more : List CodeUnit} {tail : List Pins} {s : State} (h : Gathering op data s)
    (hpend : s.pend = none) (hedges : s.edges = more.map (willingEdge op false) ++ tail) :
    ∃ t, runSteps more.length s = .next t ∧ Gathering op (data ++ more) t ∧ t.edges = tail ∧ t.pend = none ∧
      t.outLog = s.outLog := by
  induction more generalizing s data with
  | nil => exact ⟨s, rfl, (List.append_nil data).symm ▸ h, hedges, hpend, rfl⟩
  | cons d more ih =>
    obtain ⟨s', u, hstep, hs', hbeat, hue, hup, huo⟩ := willing_step h hpend hedges
    have hu : Gathering op (data ++ [d]) u := .inr (hs'.data (fun _ => rfl) rfl hbeat)
    obtain ⟨t, hrun, ht, hte, htp, hto⟩ := ih hu hup hue
    rw [List.append_assoc, List.singleton_append] at ht
    exact ⟨t, (runSteps_succ_of_next _ hstep).trans hrun, ht, hte, htp, hto.trans huo⟩

/-- The block is in IDLE again, or sends. -/
def Draining (s : State) : Prop := s.ph = .idle ∨ (CoreInv s ∧ acceptsInput s = false)

theorem stepsLeft_pos {s : State} (h : CoreInv s) (ha : acceptsInput s = false) : 0 < stepsLeft s := by
  rcases sendsOwed h ha with ⟨-, o, -, howed, -⟩ | ⟨-, t, -, -, -, -, hleft⟩
  · rw [stepsLeft, howed, List.length_cons]
    omega
  · rw [stepsLeft, hleft]
    omega

theorem stepsLeft_idle {s : State} (hp : s.ph = .idle) : stepsLeft s = 0 := by
  rw [stepsLeft, owed_idle hp, internalLeft_idle hp]
  rfl

/-- What is sent and what is still owed add up, one step less each time. -/
structure Drained (s t : State) : Prop where
  draining : Draining t
  beats : t.outLog ++ owed t = s.outLog ++ owed s
  steps : stepsLeft s = stepsLeft t + 1

theorem drained_of_runPosition {s t : State} (h : CoreInv s) (ha : acceptsInput s = false)
    (hrun : runPosition s = .next t) : Drained s t := by
  have hcore := runPosition_keeps_coreInv h hrun
  rcases sendsOwed h ha with ⟨hdue, o, hr, howed, hleft⟩ | ⟨-, u, hr, hau, hlog, howed, hleft⟩
  · obtain rfl : deliver o s = t := Host.Outcome.next.inj (hr.symm.trans hrun)
    refine ⟨?_, by rw [deliver_outLog, howed, List.append_assoc, List.singleton_append], ?_⟩
    · by_cases hp : s.ph = .report
      · exact .inl (by rw [deliver_ph, hp]; rfl)
      · have hph : (deliver o s).ph = s.ph := by rw [deliver_ph, if_neg hp]
        exact .inr ⟨hcore, by rw [acceptsInput, hph]; exact ha⟩
    · rw [stepsLeft, stepsLeft, howed, hleft, List.length_cons]
      omega
  · obtain rfl : u = t := Host.Outcome.next.inj (hr.symm.trans hrun)
    exact ⟨.inr ⟨hcore, hau⟩, by rw [hlog, howed], by rw [stepsLeft, stepsLeft, howed, hleft, Nat.add_assoc]⟩

theorem drainEdge_step {rest : List Pins} {s : State} (h : CoreInv s) (ha : acceptsInput s = false)
    (hpend : s.pend = none) (hedges : s.edges = drainEdge :: rest) :
    ∃ t, step s = .next t ∧ Drained s t ∧ t.edges = rest ∧ t.pend = none := by
  have hhost : hostBreaks drainEdge (sampled drainEdge rest s) = false := by rw [hostBreaks_sampled, hostBreaks, hpend]
  suffices hrun : ∃ v, step s = runPosition { sampled drainEdge rest s with pend := none, outValid := v } by
    obtain ⟨v, hv⟩ := hrun
    have hcore : CoreInv { sampled drainEdge rest s with pend := none, outValid := v } :=
      ⟨h.nacc, h.room, h.status, h.phase⟩
    obtain ⟨t, ht⟩ := runPosition_progress (.inr hcore)
    obtain ⟨hdraining, hbeats, hsteps⟩ := drained_of_runPosition hcore ha ht
    exact ⟨t, hv.trans ht, ⟨hdraining, hbeats, hsteps⟩, (runPosition_script ht).2, (runPosition_script ht).1⟩
  rw [step_edge hedges]
  cases hdue : beatDue s with
  | true =>
    refine ⟨false, ?_⟩
    rw [clockEdge_output (s := sampled drainEdge rest s) rfl hhost hdue,
      outputEdge_given (s := sampled drainEdge rest s) (Bool.or_true _) rfl]
    rfl
  | false =>
    refine ⟨s.outValid, ?_⟩
    rw [clockEdge_internal (s := sampled drainEdge rest s) rfl hhost ha hdue, internalEdge_go _ rfl]
    rfl

/-- In IDLE with nothing presented an edge changes the script and the pins only. -/
theorem drainEdge_idle {rest : List Pins} {s : State} (hp : s.ph = .idle) (hpend : s.pend = none)
    (hedges : s.edges = drainEdge :: rest) : step s = .next { sampled drainEdge rest s with pend := none } := by
  have hhost : hostBreaks drainEdge (sampled drainEdge rest s) = false := by rw [hostBreaks_sampled, hostBreaks, hpend]
  have ha : acceptsInput (sampled drainEdge rest s) = true := (acceptsInput_iff _).2 (.inl hp)
  rw [step_edge hedges, clockEdge_input rfl hhost ha, inputEdge_waits _ rfl]
  rfl

/-- The edges at which the host accepts output send all that is owed, by induction on their number. -/
theorem drain {n : Nat} {s : State} (h : Draining s) (hpend : s.pend = none) (hedges : s.edges = List.replicate n drainEdge)
    (hle : stepsLeft s ≤ n) :
    ∃ t, runSteps n s = .next t ∧ t.ph = .idle ∧ t.edges = [] ∧ t.outLog = s.outLog ++ owed s := by
  induction n generalizing s with
  | zero =>
    rcases h with hp | ⟨hcore, ha⟩
    · exact ⟨s, rfl, hp, hedges, by rw [owed_idle hp, List.append_nil]⟩
    · exact absurd (stepsLeft_pos hcore ha) (by omega)
  | succ n ih =>
    rw [List.replicate_succ] at hedges
    rcases h with hp | ⟨hcore, ha⟩
    · have hstep := drainEdge_idle hp hpend hedges
      obtain ⟨t, hrun, hph, he, ho⟩ := ih (s := { sampled drainEdge (List.replicate n drainEdge) s with pend := none })
        (.inl hp) rfl rfl (stepsLeft_idle (s := { sampled drainEdge _ s with pend := none }) hp ▸ Nat.zero_le n)
      exact ⟨t, (runSteps_succ_of_next n hstep).trans hrun, hph, he, ho⟩
    · obtain ⟨u, hstep, ⟨hdraining, hbeats, hsteps⟩, hue, hup⟩ := drainEdge_step hcore ha hpend hedges
      obtain ⟨t, hrun, hph, he, ho⟩ := ih hdraining hup hue (by omega)
      exact ⟨t, (runSteps_succ_of_next n hstep).trans hrun, hph, he, ho.trans hbeats⟩

/-- Settles O57: the data beats are gathered one by one, the end beat decides what is owed, and what is owed is sent step by
step. -/
theorem transactionCompletes : Obligations.TransactionCompletes := by
  intro s op data drains hp hpend hbound hedges
  obtain ⟨u, hrun, hu, hue, hup, huo⟩ := willing_data (data := []) (.inl ⟨hp, rfl⟩) hpend hedges
  obtain ⟨u', v, hstep, hu', hbeat, hve, hvp, hvo⟩ := willing_step hu hup hue
  have howes := hu'.endBeat (fun _ => rfl) rfl hbeat
  obtain ⟨t, hdrain, hph, he, ho⟩ := drain (.inr ⟨howes.core, howes.busy⟩) hvp hve (howes.steps.trans hbound)
  refine ⟨t, ?_, hph, he, by rw [ho, howes.owed, hvo, huo]; rfl⟩
  rw [Nat.add_assoc, runSteps_add _ hrun, Nat.add_comm 1, runSteps_succ_of_next _ hstep, hdrain]

/-! ## The function level (R200) -/

/-- These input beats are whole transactions. -/
def Complete (beats : List InBeat) : Prop :=
  ∀ rest, responses [] (beats ++ rest) = responses [] beats ++ responses [] rest

theorem complete_nil : Complete [] := fun _ => rfl

theorem responses_dataBeats {cur beats : List InBeat} (rest : List InBeat) (h : ∀ b ∈ beats, b.fin = false) :
    responses cur (beats ++ rest) = responses (cur ++ beats) rest := by
  induction beats generalizing cur with
  | nil => rw [List.nil_append, List.append_nil]
  | cons b beats ih =>
    obtain ⟨hb, hbeats⟩ := List.forall_mem_cons.1 h
    rw [List.cons_append, responses, hb, if_neg Bool.false_ne_true, ih hbeats, List.append_assoc, List.singleton_append]

theorem responses_transaction {cur : List InBeat} {b : InBeat} (rest : List InBeat) (h : ∀ b ∈ cur, b.fin = false)
    (hfin : b.fin = true) :
    responses [] (cur ++ b :: rest) = respond (firstOp (cur ++ [b])) (cur.map InBeat.data) ++ responses [] rest := by
  rw [responses_dataBeats _ h, responses, hfin, if_pos rfl, List.nil_append]

/-- A transaction more after whole ones. -/
theorem complete_transaction {done cur : List InBeat} {b : InBeat} (hdone : Complete done) (h : ∀ b ∈ cur, b.fin = false)
    (hfin : b.fin = true) :
    Complete (done ++ (cur ++ [b])) ∧
      responses [] (done ++ (cur ++ [b])) = responses [] done ++ respond (firstOp (cur ++ [b])) (cur.map InBeat.data) := by
  have hone : responses [] (done ++ (cur ++ [b])) =
      responses [] done ++ respond (firstOp (cur ++ [b])) (cur.map InBeat.data) := by
    rw [hdone, responses_transaction [] h hfin]
    exact congrArg _ (List.append_nil _)
  refine ⟨fun rest => ?_, hone⟩
  rw [hone, List.append_assoc, hdone, List.append_assoc, List.singleton_append, responses_transaction rest h hfin,
    List.append_assoc]

/-- The records of a block that takes input: all is sent for the whole transactions `done`, and `cur` is gathered. -/
structure Takes (done cur : List InBeat) (s : State) : Prop where
  gathered : (s.ph = .idle ∧ cur = []) ∨ (cur ≠ [] ∧ Loaded (firstOp cur) (cur.map InBeat.data) s)
  isOpen : ∀ b ∈ cur, b.fin = false
  whole : Complete done
  inLog : s.inLog = done ++ cur
  outLog : s.outLog = responses [] done

/-- The records of a block that sends: what is sent and what is owed make up the response to all its input. -/
structure Sends (s : State) : Prop where
  core : CoreInv s
  busy : acceptsInput s = false
  whole : Complete s.inLog
  outLog : s.outLog ++ owed s = responses [] s.inLog

/-- What R200 keeps between two steps. -/
def Refines (s : State) : Prop := (∃ done cur, Takes done cur s) ∨ Sends s

theorem Refines.congr {s : State} (h : Refines s) (pins : Pins) (v : Bool) (edges : List Pins) (pend : Option InBeat) :
    Refines { s with pins := pins, outValid := v, edges := edges, pend := pend } := by
  rcases h with ⟨done, cur, hgathered, hopen, hwhole, hin, hout⟩ | ⟨⟨hnacc, hroom, hstatus, hphase⟩, hbusy, hwhole, hout⟩
  · exact .inl ⟨done, cur, hgathered.imp id fun ⟨hne, hl⟩ => ⟨hne, hl.congr pins v edges pend s.inLog⟩, hopen, hwhole, hin,
      hout⟩
  · exact .inr ⟨⟨hnacc, hroom, hstatus, hphase⟩, hbusy, hwhole, hout⟩

theorem Takes.gathering {done cur : List InBeat} {s : State} (h : Takes done cur s) (b : InBeat) :
    Gathering (firstOp (cur ++ [b])) (cur.map InBeat.data) s ∧ (s.ph = .idle → b.op = firstOp (cur ++ [b])) := by
  rcases h.gathered with ⟨hp, rfl⟩ | ⟨hne, hl⟩
  · exact ⟨.inl ⟨hp, rfl⟩, fun _ => rfl⟩
  · obtain ⟨a, cur, rfl⟩ := List.exists_cons_of_ne_nil hne
    refine ⟨.inr hl, fun hp => ?_⟩
    have hph := hl.ph
    rw [hp] at hph
    split_ifs at hph

/-- An input beat is gathered, or completes its transaction. -/
theorem refines_inputBeat {done cur : List InBeat} {b : InBeat} {s t : State} (h : Takes done cur s)
    (hbeat : inputBeat b s = .next t) : Refines t := by
  obtain ⟨hgathering, hop⟩ := h.gathering b
  obtain ⟨hin, hout⟩ := inputBeat_logs hgathering.acceptsInput hbeat
  rw [h.inLog, List.append_assoc] at hin
  rw [h.outLog] at hout
  cases hfin : b.fin with
  | false =>
    refine .inl ⟨done, cur ++ [b], .inr ⟨by simp, ?_⟩, fun a ha => ?_, h.whole, hin, hout⟩
    · rw [List.map_append]
      exact hgathering.data hop hfin hbeat
    · rcases List.mem_append.1 ha with ha | ha
      · exact h.isOpen a ha
      · rwa [List.mem_singleton.1 ha]
  | true =>
    have howes := hgathering.endBeat hop hfin hbeat
    obtain ⟨hwhole, hresponses⟩ := complete_transaction h.whole h.isOpen hfin
    exact .inr ⟨howes.core, howes.busy, hin ▸ hwhole, by rw [hin, hresponses, hout, howes.owed]⟩

theorem refines_runPosition {s t : State} (h : Refines s) (hrun : runPosition s = .next t) : Refines t := by
  rcases h with ⟨done, cur, h⟩ | ⟨hcore, hbusy, hwhole, hout⟩
  · rw [runPosition_input (h.gathering s.pins.beat).1.acceptsInput] at hrun
    exact refines_inputBeat h hrun
  · obtain ⟨hdraining, hbeats, -⟩ := drained_of_runPosition hcore hbusy hrun
    have hin : t.inLog = s.inLog := by rw [runPosition_frame hbusy hrun]
    rcases hdraining with hp | ⟨hcore', hbusy'⟩
    · rw [owed_idle hp, List.append_nil, hout] at hbeats
      exact .inl ⟨s.inLog, [], .inl ⟨hp, rfl⟩, nofun, hwhole, by rw [hin, List.append_nil], hbeats⟩
    · exact .inr ⟨hcore', hbusy', hin ▸ hwhole, by rw [hbeats, hout, hin]⟩

/-- A step without reset keeps the records and the registers in step. -/
theorem refines_step {s t : State} (h : Refines s) (hreset : noReset s.edges) (hstep : step s = .next t) : Refines t := by
  rcases step_next hstep with ⟨-, rfl⟩ | ⟨e, rest, hedges, hedge⟩
  · exact h
  · have hrst : e.rst = false := hreset e (hedges ▸ List.mem_cons_self)
    rcases clockEdge_runs hedge with ⟨hr, -⟩ | ⟨-, p, v, rfl, -⟩ | ⟨-, p, v, hrun, -⟩
    · exact absurd (hrst.symm.trans hr) Bool.false_ne_true
    · exact h.congr e v rest p
    · exact refines_runPosition (h.congr e v rest p) hrun

theorem refines_runSteps {k : Nat} {s t : State} (h : Refines s) (hreset : noReset s.edges)
    (hrun : runSteps k s = .next t) : Refines t := by
  induction k generalizing s with
  | zero => cases hrun; exact h
  | succ k ih =>
    obtain ⟨u, hstep, htail⟩ := runSteps_succ_next hrun
    exact ih (refines_step h hreset hstep) (noReset_step hreset hstep) htail

/-- In IDLE every transaction is whole and all its output is sent. -/
theorem Refines.outLog_of_idle {s : State} (h : Refines s) (hp : s.ph = .idle) : s.outLog = responses [] s.inLog := by
  rcases h with ⟨done, cur, h⟩ | h
  · obtain rfl : cur = [] := by
      rcases h.gathered with ⟨-, hnil⟩ | ⟨-, hl⟩
      · exact hnil
      · have hph := hl.ph
        rw [hp] at hph
        split_ifs at hph
    rw [h.outLog, h.inLog, List.append_nil]
  · exact absurd ((acceptsInput_iff s).2 (.inl hp)) (Bool.eq_false_iff.1 h.busy)

/-- Settles O56: the block gathers or sends between any two steps, by induction on the steps. -/
theorem beatLevelRefinesFunctionLevel : Obligations.BeatLevelRefinesFunctionLevel := by
  intro s t k hp hin hout hreset hrun hidle
  have hstart : Refines s := .inl ⟨[], [], .inl ⟨hp, rfl⟩, nofun, complete_nil, hin, hout⟩
  exact (refines_runSteps hstart hreset hrun).outLog_of_idle hidle

end Sys2Proof.Machine
end

section
/-! What the block did before does not show (10_state.md R21, R36; 70_reset_and_hazards.md R242): two blocks with the same
registers whose buffers agree on the entries written in this transaction do the same at every edge. -/

namespace Sys2Proof.Machine

/-! ## The same registers over another buffer and another interface -/

/-- The registers and the records of `s`, with the buffer `m` and with the script, the pins, the presented beat, `out_valid` and
the driven result of `r`. -/
def recast (m : Memory) (r s : State) : State :=
  { s with
    ebuf := m, unitOut := r.unitOut, pins := r.pins, outValid := r.outValid, edges := r.edges, pend := r.pend }

/-- Two buffers hold the same in their first `n` entries. -/
def Agrees (m m' : Memory) (n : Nat) : Prop := ∀ a, a < n → Memory.read m a = Memory.read m' a

theorem Agrees.write {m m' : Memory} {n : Nat} (h : Agrees m m' n) (v : Entry) :
    Agrees (Memory.write m n v) (Memory.write m' n v) (n + 1) := by
  intro a ha
  rw [Memory.read_write, Memory.read_write]
  by_cases hlast : a = n
  · rw [if_pos hlast, if_pos hlast]
  · rw [if_neg hlast, if_neg hlast, h a (by omega)]

theorem agrees_zero (m m' : Memory) : Agrees m m' 0 := fun a ha => absurd ha (Nat.not_lt_zero a)

/-- The buffer `m` holds what the rest of the transaction of `s` may look at (R206). -/
def SameEntries (m : Memory) (s : State) : Prop :=
  match s.ph with
  | .encLoad => s.rerr = false → Agrees m s.ebuf s.cnt.toNat
  | .decLoad => Agrees m s.ebuf s.eidx.toNat ∧ (s.rs = .done → s.eidx = s.cnt)
  | .encEmit | .decEmit => Agrees m s.ebuf s.cnt.toNat
  | .idle | .report => True

theorem sameEntries_encLoad {m : Memory} {s : State} (hp : s.ph = .encLoad) :
    SameEntries m s ↔ (s.rerr = false → Agrees m s.ebuf s.cnt.toNat) := by
  simp only [SameEntries, hp]

theorem sameEntries_decLoad {m : Memory} {s : State} (hp : s.ph = .decLoad) :
    SameEntries m s ↔ Agrees m s.ebuf s.eidx.toNat ∧ (s.rs = .done → s.eidx = s.cnt) := by
  simp only [SameEntries, hp]

theorem sameEntries_emit {m : Memory} {s : State} (hp : s.ph = .encEmit ∨ s.ph = .decEmit) :
    SameEntries m s ↔ Agrees m s.ebuf s.cnt.toNat := by
  rcases hp with hp | hp <;> simp only [SameEntries, hp]

theorem sameEntries_of_done {m : Memory} {s : State} (hp : s.ph = .idle ∨ s.ph = .report) : SameEntries m s := by
  rcases hp with hp | hp <;> simp only [SameEntries, hp]

/-! ## The emit phases and REPORT -/

theorem deliver_recast (o : OutBeat) (m : Memory) (r s : State) : deliver o (recast m r s) = recast m r (deliver o s) := by
  obtain ⟨ph, _⟩ := s
  cases ph <;> rfl

theorem eidx_lt_of_element {s : State} (he : emitStep s = .element) : s.eidx.toNat < s.cnt.toNat := by
  rcases emitStep_cases s with ⟨h, -⟩ | ⟨h, -⟩ | ⟨-, -, -, hi⟩ | ⟨h, -⟩ | ⟨h, -⟩
  case inr.inr.inl => exact hi
  all_goals cases he.symm.trans h

theorem nacc_pos_of_padding {s : State} (he : emitStep s = .padding) : 0 < s.nacc.toNat := by
  rcases emitStep_cases s with ⟨h, -⟩ | ⟨h, -⟩ | ⟨h, -⟩ | ⟨-, -, -, -, hpos⟩ | ⟨h, -⟩
  case inr.inr.inr.inl => exact hpos
  all_goals cases he.symm.trans h

theorem encEmit_recast {m : Memory} {s t : State} (r : State) (hp : s.ph = .encEmit) (hm : SameEntries m s)
    (hrun : runPosition s = .next t) : runPosition (recast m r s) = .next (recast m r t) ∧ SameEntries m t := by
  have hagrees := (sameEntries_emit (.inl hp)).1 hm
  have hp' : (recast m r s).ph = .encEmit := hp
  rcases runPosition_next hrun with ⟨hload, -⟩ | ⟨-, hstep⟩ | ⟨hdec, -⟩ | ⟨hreport, -⟩
  · rw [hp] at hload
    rcases hload with h | h | h <;> cases h
  · rcases hstep with ⟨he, hsix, rfl⟩ | ⟨he, w, hw, rfl⟩ | ⟨he, w, v, hw, hv, hlt, rfl⟩ | ⟨he, rfl⟩ | ⟨he, rfl⟩
    · refine ⟨?_, by rw [deliver_encEmit _ hp]; exact (sameEntries_emit (.inl (by exact hp))).2 hagrees⟩
      rw [runPosition_symbol hp' he hsix, deliver_recast]
      rfl
    · exact ⟨runPosition_header hp' he hw, (sameEntries_emit (.inl (by exact hp))).2 hagrees⟩
    · exact ⟨runPosition_element hp' he hw ((hagrees _ (eidx_lt_of_element he)).trans hv) hlt,
        (sameEntries_emit (.inl (by exact hp))).2 hagrees⟩
    · exact ⟨runPosition_padding hp' he (nacc_pos_of_padding he), (sameEntries_emit (.inl (by exact hp))).2 hagrees⟩
    · exact ⟨runPosition_encFinish hp' he, sameEntries_of_done (.inr rfl)⟩
  · cases hp.symm.trans hdec
  · cases hp.symm.trans hreport

theorem decEmit_recast {m : Memory} {s t : State} (r : State) (hp : s.ph = .decEmit) (hm : SameEntries m s)
    (hrun : runPosition s = .next t) : runPosition (recast m r s) = .next (recast m r t) ∧ SameEntries m t := by
  have hagrees := (sameEntries_emit (.inr hp)).1 hm
  have hp' : (recast m r s).ph = .decEmit := hp
  rcases runPosition_next hrun with ⟨hload, -⟩ | ⟨henc, -⟩ | ⟨-, hstep⟩ | ⟨hreport, -⟩
  · rw [hp] at hload
    rcases hload with h | h | h <;> cases h
  · cases hp.symm.trans henc
  · rcases hstep with ⟨hi, v, hv, rfl⟩ | ⟨hi, rfl⟩
    · refine ⟨?_, by rw [deliver_decEmit _ hp]; exact (sameEntries_emit (.inr (by exact hp))).2 hagrees⟩
      rw [runPosition_decElement hp' hi ((hagrees _ hi).trans hv), deliver_recast]
    · exact ⟨runPosition_decFinish hp' hi, sameEntries_of_done (.inr rfl)⟩
  · cases hp.symm.trans hreport

theorem report_recast {m : Memory} {s t : State} (r : State) (hp : s.ph = .report) (hs : s.status.toNat ≤ 5)
    (hrun : runPosition s = .next t) : runPosition (recast m r s) = .next (recast m r t) ∧ SameEntries m t := by
  rw [runPosition_report hp hs] at hrun
  cases hrun
  refine ⟨?_, sameEntries_of_done (.inl (by rw [deliver_ph, if_pos hp]))⟩
  rw [runPosition_report (s := recast m r s) hp hs, deliver_recast]
  rfl

/-- Outside IDLE and the load phases the position depends on the registers and on the first `CNT` entries only. -/
theorem runPosition_recast {m : Memory} {s t : State} (r : State) (h : CoreInv s) (ha : acceptsInput s = false)
    (hm : SameEntries m s) (hrun : runPosition s = .next t) :
    runPosition (recast m r s) = .next (recast m r t) ∧ SameEntries m t := by
  cases hp : s.ph with
  | idle => exact absurd ((acceptsInput_iff s).2 (.inl hp)) (Bool.eq_false_iff.1 ha)
  | encLoad => exact absurd ((acceptsInput_iff s).2 (.inr (.inl hp))) (Bool.eq_false_iff.1 ha)
  | decLoad => exact absurd ((acceptsInput_iff s).2 (.inr (.inr hp))) (Bool.eq_false_iff.1 ha)
  | encEmit => exact encEmit_recast r hp hm hrun
  | decEmit => exact decEmit_recast r hp hm hrun
  | report => exact report_recast r hp h.status hrun

/-! ## The load phases -/

theorem encLoadData_recast {m : Memory} {s : State} (v : CodeUnit) (r : State) (hp : s.ph = .encLoad)
    (hm : SameEntries m s) :
    ∃ m', encLoadData v (recast m r s) = recast m' r (encLoadData v s) ∧ SameEntries m' (encLoadData v s) := by
  have hagrees := (sameEntries_encLoad hp).1 hm
  have hcond : encLoadData v (recast m r s) =
      if s.cnt.toNat = Config.cntMax then flagOverflow (flagRange v (recast m r s))
      else if inRange v then { storeElement v (recast m r s) with cnt := s.cnt + 1 }
      else { flagRange v (recast m r s) with cnt := s.cnt + 1 } := rfl
  rcases encLoadData_cases v s with ⟨hc, hr, he⟩ | ⟨hc, hr, he⟩ | ⟨hc, hr, he⟩ | ⟨hc, hr, he⟩ <;> rw [he, hcond]
  · rw [if_pos hc, flagRange_of_inRange hr]
    exact ⟨m, rfl, (sameEntries_encLoad (by exact hp)).2 hagrees⟩
  · rw [if_pos hc, flagRange_of_not_inRange hr]
    exact ⟨m, rfl, (sameEntries_encLoad (by exact hp)).2 fun h => nomatch h⟩
  · rw [if_neg hc, if_pos hr]
    have hlt := s.cnt.isLt
    have hne : s.cnt.toNat ≠ 1023 := hc
    have hnext : (s.cnt + 1).toNat = s.cnt.toNat + 1 := toNat_add_one_of_lt (by omega)
    refine ⟨Memory.write m s.cnt.toNat (low9 v), rfl, (sameEntries_encLoad (by exact hp)).2 fun hs => ?_⟩
    rw [hnext]
    exact (hagrees hs).write (low9 v)
  · rw [if_neg hc, if_neg (Bool.eq_false_iff.1 hr), flagRange_of_not_inRange hr]
    exact ⟨m, rfl, (sameEntries_encLoad (by exact hp)).2 fun h => nomatch h⟩

theorem encLoadEnd_recast {m : Memory} {s : State} (r : State) (hp : s.ph = .encLoad) (hm : SameEntries m s) :
    encLoadEnd (recast m r s) = recast m r (encLoadEnd s) ∧ SameEntries m (encLoadEnd s) := by
  rcases encLoadEnd_cases s with ⟨hr, he⟩ | ⟨hr, ho, he⟩ | ⟨hr, ho, he⟩ <;> rw [he]
  · exact ⟨encLoadEnd_of_rerr (s := recast m r s) hr, sameEntries_of_done (.inr rfl)⟩
  · exact ⟨encLoadEnd_of_ovf (s := recast m r s) hr ho, sameEntries_of_done (.inr rfl)⟩
  · exact ⟨encLoadEnd_of_valid (s := recast m r s) hr ho,
      (sameEntries_emit (.inl rfl)).2 ((sameEntries_encLoad hp).1 hm hr)⟩

theorem decLoadEnd_recast {m : Memory} {s : State} (r : State) (hp : s.ph = .decLoad) (hm : SameEntries m s) :
    decLoadEnd (recast m r s) = recast m r (decLoadEnd s) ∧ SameEntries m (decLoadEnd s) := by
  rcases decLoadEnd_cases s with ⟨hi, he⟩ | ⟨hi, hr, he⟩ | ⟨hi, hr, he⟩ | ⟨hi, hb, hd, he⟩ <;> rw [he]
  · exact ⟨decLoadEnd_of_icerr (s := recast m r s) hi, sameEntries_of_done (.inr rfl)⟩
  · exact ⟨decLoadEnd_of_badwc (s := recast m r s) hi hr, sameEntries_of_done (.inr rfl)⟩
  · obtain ⟨hagrees, hall⟩ := (sameEntries_decLoad hp).1 hm
    exact ⟨decLoadEnd_of_done (s := recast m r s) hi hr, (sameEntries_emit (.inr rfl)).2 (hall hr ▸ hagrees)⟩
  · exact ⟨decLoadEnd_of_unfinished (s := recast m r s) hi hb hd, sameEntries_of_done (.inr rfl)⟩

/-- In R_DONE the reader has passed all elements. -/
def DonePassedAll (s : State) : Prop := s.rs = .done → s.eidx = s.cnt

theorem rdstep_donePassedAll {x : Bool} {s t : State} (h : DonePassedAll s) (hstep : rdstep x s = .next t) :
    DonePassedAll t := by
  rcases rdstep_next hstep with ⟨-, rfl⟩ | ⟨hr, -, rfl⟩ | ⟨-, -, rfl⟩ | ⟨hr, -, hread⟩ | ⟨hr, -, hread⟩ | ⟨-, rfl⟩
  · exact nofun
  · intro hdone
    have hdone : s.rs = .done := hdone
    rw [hdone] at hr
    rcases hr with hr | hr | hr <;> cases hr
  · exact nofun
  · rcases widthCodeRead_next hread with ⟨-, rfl⟩ | ⟨w, -, -, ⟨hc, rfl⟩ | ⟨-, rfl⟩⟩
    · exact nofun
    · exact fun _ => hc.symm
    · exact nofun
  · obtain ⟨-, ⟨hc, rfl⟩ | ⟨-, rfl⟩⟩ := elementRead_next hread
    · exact fun _ => hc
    · intro hdone
      cases hr.symm.trans hdone
  · exact h

theorem feedBits_donePassedAll {b : Bits} {s t : State} (h : DonePassedAll s) (hfeed : feedBits b s = .next t) :
    DonePassedAll t :=
  feedBits_induction (P := DonePassedAll) (fun _ _ _ hs hx => rdstep_donePassedAll hs hx) h hfeed

theorem decLoadData_recast {m : Memory} {c : CodeUnit} {s t : State} (r : State) (hp : s.ph = .decLoad)
    (hinv : ReaderInv s) (hm : SameEntries m s) (hdata : decLoadData c s = .next t) :
    ∃ m', decLoadData c (recast m r s) = .next (recast m' r t) ∧ SameEntries m' t := by
  rcases decLoadData_next hdata with ⟨hi, rfl⟩ | ⟨hi, hc, rfl⟩ | ⟨hi, i, hc, hfeed⟩
  · exact ⟨m, decLoadData_of_icerr (s := recast m r t) c hi, hm⟩
  · exact ⟨m, decLoadData_invalid (s := recast m r s) hi hc,
      (sameEntries_decLoad (by exact hp)).2 ((sameEntries_decLoad hp).1 hm)⟩
  · obtain ⟨hagrees, hall⟩ := (sameEntries_decLoad hp).1 hm
    obtain ⟨f, hf, hwrites, hruns⟩ := feedBits_runs hinv hfeed
    have hframe := feedBits_frame hfeed
    have hph : t.ph = .decLoad := by rw [hframe]; exact hp
    have hgraft : graft (recast m r s) (f m) t = recast (f m) r t := by rw [hframe]; rfl
    refine ⟨f m, ?_, (sameEntries_decLoad hph).2 ⟨fun a ha => ?_, feedBits_donePassedAll hall hfeed⟩⟩
    · rw [decLoadData_symbol (s := recast m r s) hi hc, ← hgraft]
      exact hruns (recast m r s) m
    · rw [hf]
      by_cases hlow : a < s.eidx.toNat
      · exact hwrites.kept a _ _ (hagrees a hlow)
      · exact hwrites.written a (Nat.not_lt.1 hlow) ha _ _

/-- A beat of a load phase does the same over the other buffer. -/
theorem loadBeat_recast {m : Memory} {b : InBeat} {s t : State} (r : State) (h : CoreInv s) (hm : SameEntries m s)
    (hbeat : loadBeat b s = .next t) :
    ∃ m', loadBeat b (recast m r s) = .next (recast m' r t) ∧ SameEntries m' t := by
  rcases loadBeat_next hbeat with ⟨hp, hf, rfl⟩ | ⟨hp, hf, rfl⟩ | ⟨hp, hf, rfl⟩ | ⟨hp, hf, hdata⟩ | ⟨hp, hp', rfl⟩
  · obtain ⟨he, hm'⟩ := encLoadEnd_recast r hp hm
    exact ⟨m, by rw [loadBeat_encLoad (s := recast m r s) hp, hf, if_pos rfl, he], hm'⟩
  · obtain ⟨m', he, hm'⟩ := encLoadData_recast b.data r hp hm
    exact ⟨m', by rw [loadBeat_encLoad (s := recast m r s) hp, hf, if_neg Bool.false_ne_true, he], hm'⟩
  · obtain ⟨he, hm'⟩ := decLoadEnd_recast r hp hm
    exact ⟨m, by rw [loadBeat_decLoad (s := recast m r s) hp, hf, if_pos rfl, he], hm'⟩
  · obtain ⟨m', he, hm'⟩ := decLoadData_recast r hp ((phaseInv_decLoad hp).1 h.phase).1 hm hdata
    exact ⟨m', by rw [loadBeat_decLoad (s := recast m r s) hp, hf, if_neg Bool.false_ne_true, he], hm'⟩
  · refine ⟨m, ?_, hm⟩
    cases hph : t.ph with
    | encLoad => exact absurd hph hp
    | decLoad => exact absurd hph hp'
    | idle | encEmit | decEmit | report => simp only [loadBeat, recast, hph]

/-! ## Two blocks -/

/-- Two blocks with the same interface and, within a transaction, the same registers and the same entries to look at. -/
structure Alike (s s' : State) : Prop where
  ph : s'.ph = s.ph
  edges : s'.edges = s.edges
  pend : s'.pend = s.pend
  outValid : s'.outValid = s.outValid
  inLog : s'.inLog = s.inLog
  outLog : s'.outLog = s.outLog
  inside : s.ph ≠ .idle → CoreInv s ∧ ∃ m, s' = recast m s' s ∧ SameEntries m s

theorem alike_of_recast {m : Memory} {r t : State} (hcore : CoreInv t) (hm : SameEntries m t) (hedges : r.edges = t.edges)
    (hpend : r.pend = t.pend) (hvalid : r.outValid = t.outValid) : Alike t (recast m r t) :=
  ⟨rfl, hedges, hpend, hvalid, rfl, rfl, fun _ => ⟨hcore, m, rfl, hm⟩⟩

/-- In IDLE the first beat sets every register and looks at none (R183). -/
theorem startTransaction_recast {s s' : State} (op : Bool) (b : InBeat) (hin : s'.inLog = s.inLog)
    (hout : s'.outLog = s.outLog) :
    startTransaction op (logIn b s') = recast s'.ebuf s' (startTransaction op (logIn b s)) := by
  simp only [startTransaction, initRegs, logIn, recast, hin, hout]

theorem sameEntries_startTransaction (m : Memory) (op : Bool) (s : State) : SameEntries m (startTransaction op s) := by
  cases op with
  | false => exact (sameEntries_encLoad rfl).2 fun _ => agrees_zero _ _
  | true => exact (sameEntries_decLoad rfl).2 ⟨agrees_zero _ _, fun _ => rfl⟩

/-- The position of both blocks does the same. -/
theorem alike_runPosition {s s' t : State} (h : Alike s s') (hpins : s'.pins = s.pins) (hrun : runPosition s = .next t) :
    ∃ t', runPosition s' = .next t' ∧ Alike t t' := by
  obtain ⟨hpend, hedges⟩ := runPosition_script hrun
  have hvalid := runPosition_outValid hrun
  suffices hsame : ∃ m, runPosition s' = .next (recast m s' t) ∧ CoreInv t ∧ SameEntries m t by
    obtain ⟨m, hrun', hcore, hm⟩ := hsame
    exact ⟨_, hrun', alike_of_recast hcore hm (h.edges.trans hedges.symm) (h.pend.trans hpend.symm)
      (h.outValid.trans hvalid.symm)⟩
  by_cases hp : s.ph = .idle
  · have hcore := runPosition_idle_coreInv hp hrun
    rw [runPosition_idle hp, inputBeat_idle hp] at hrun
    obtain ⟨m, hbeat, hm⟩ := loadBeat_recast s' (coreInv_startTransaction _ _)
      (sameEntries_startTransaction s'.ebuf _ _) hrun
    refine ⟨m, ?_, hcore, hm⟩
    have hp' : s'.ph = .idle := h.ph.trans hp
    rw [runPosition_idle hp', inputBeat_idle hp', hpins, startTransaction_recast _ _ h.inLog h.outLog]
    exact hbeat
  · obtain ⟨hcore, m, hs', hm⟩ := h.inside hp
    have hcore' := runPosition_keeps_coreInv hcore hrun
    cases ha : acceptsInput s with
    | true =>
      have hload := ((acceptsInput_iff s).1 ha).resolve_left hp
      rw [runPosition_load hload, inputBeat_load hload] at hrun
      obtain ⟨m', hbeat, hm'⟩ := loadBeat_recast (m := m) s' (s := logIn s.pins.beat s)
        ⟨hcore.nacc, hcore.room, hcore.status, hcore.phase⟩ hm hrun
      refine ⟨m', ?_, hcore', hm'⟩
      have hload' : s'.ph = .encLoad ∨ s'.ph = .decLoad := h.ph ▸ hload
      have hlog : logIn s.pins.beat s' = recast m s' (logIn s.pins.beat s) := by
        conv_lhs => rw [hs']
        rfl
      rw [runPosition_load hload', inputBeat_load hload', hpins, hlog]
      exact hbeat
    | false =>
      obtain ⟨hrun', hm'⟩ := runPosition_recast s' hcore ha hm hrun
      exact ⟨m, hs' ▸ hrun', hcore', hm'⟩

/-- The interface changes in the same way. -/
theorem Alike.congr {s s' : State} (h : Alike s s') (e : Pins) (edges : List Pins) (pend : Option InBeat) (v : Bool) :
    Alike { s with pins := e, edges := edges, pend := pend, outValid := v }
      { s' with pins := e, edges := edges, pend := pend, outValid := v } := by
  refine ⟨h.ph, rfl, rfl, rfl, h.inLog, h.outLog, fun hp => ?_⟩
  obtain ⟨hcore, m, hs', hm⟩ := h.inside hp
  refine ⟨⟨hcore.nacc, hcore.room, hcore.status, hcore.phase⟩, m, ?_, hm⟩
  conv_lhs => rw [hs']
  rfl

theorem Alike.acceptsInput {s s' : State} (h : Alike s s') : acceptsInput s' = acceptsInput s := by
  rw [Machine.acceptsInput, Machine.acceptsInput, h.ph]

theorem Alike.beatDue {s s' : State} (h : Alike s s') : beatDue s' = beatDue s := by
  by_cases hp : s.ph = .idle
  · rw [beatDue_of_acceptsInput ((acceptsInput_iff s).2 (.inl hp)),
      beatDue_of_acceptsInput ((acceptsInput_iff s').2 (.inl (h.ph.trans hp)))]
  · obtain ⟨-, m, hs', -⟩ := h.inside hp
    rw [hs']
    rfl

theorem Alike.hostBreaks {s s' : State} (h : Alike s s') (e : Pins) : hostBreaks e s' = hostBreaks e s := by
  rw [Machine.hostBreaks, Machine.hostBreaks, h.pend]

/-- Both blocks wait or run their position alike at an edge without reset. -/
theorem clockEdge_pair {e : Pins} {s s' t : State} (h : Alike s s') (hrst : e.rst = false) (hedge : clockEdge e s = .next t) :
    ∃ p v, (t = { s with pend := p, outValid := v } ∧ clockEdge e s' = .next { s' with pend := p, outValid := v }) ∨
      (runPosition { s with pend := p, outValid := v } = .next t ∧
        clockEdge e s' = runPosition { s' with pend := p, outValid := v }) := by
  have hvalid' := h.outValid
  rcases clockEdge_next hedge with ⟨hr, -⟩ | ⟨-, hhost, ⟨ha, hin⟩ | ⟨-, hdue, hout⟩ | ⟨ha, hdue, hint⟩⟩
  · exact absurd (hrst.symm.trans hr) Bool.false_ne_true
  · rw [clockEdge_input hrst ((h.hostBreaks e).trans hhost) (h.acceptsInput.trans ha)]
    rcases inputEdge_next hin with ⟨hv, hgo, hrun⟩ | ⟨hno, rfl⟩
    · exact ⟨none, s.outValid, .inr ⟨hrun, by rw [inputEdge_taken s' hv hgo, ← hvalid']⟩⟩
    · exact ⟨_, s.outValid, .inl ⟨rfl, by rw [inputEdge_waits s' hno, ← hvalid']; rfl⟩⟩
  · rw [clockEdge_output hrst ((h.hostBreaks e).trans hhost) (h.beatDue.trans hdue)]
    rcases outputEdge_next hout with ⟨hv, hready, hrun⟩ | ⟨hv, hready, rfl⟩ | ⟨hv, rfl⟩
    · exact ⟨_, false, .inr ⟨hrun, outputEdge_given (hvalid'.symm ▸ hv) hready⟩⟩
    · exact ⟨_, true, .inl ⟨rfl, outputEdge_offered (hvalid'.symm ▸ hv) hready⟩⟩
    · exact ⟨_, s.outValid, .inl ⟨rfl, by rw [outputEdge_waits (hvalid'.symm ▸ hv), ← hvalid']; rfl⟩⟩
  · rw [clockEdge_internal hrst ((h.hostBreaks e).trans hhost) (h.acceptsInput.trans ha) (h.beatDue.trans hdue)]
    rcases internalEdge_next hint with ⟨hgo, hrun⟩ | ⟨hgo, rfl⟩
    · exact ⟨_, s.outValid, .inr ⟨hrun, by rw [internalEdge_go s' hgo, ← hvalid']; rfl⟩⟩
    · exact ⟨_, s.outValid, .inl ⟨rfl, by rw [internalEdge_waits s' hgo, ← hvalid']; rfl⟩⟩

theorem alike_step {s s' t : State} (h : Alike s s') (hreset : noReset s.edges) (hstep : step s = .next t) :
    ∃ t', step s' = .next t' ∧ Alike t t' := by
  rcases step_next hstep with ⟨hnil, rfl⟩ | ⟨e, rest, hedges, hedge⟩
  · exact ⟨s', by simp only [step, nextEdge, h.edges, hnil], h⟩
  · have hrst : e.rst = false := hreset e (hedges ▸ List.mem_cons_self)
    rw [step_edge (h.edges.trans hedges)]
    have hsampled : Alike (sampled e rest s) (sampled e rest s') := by
      have hcongr := h.congr e rest s.pend s.outValid
      rwa [show { s' with pins := e, edges := rest, pend := s.pend, outValid := s.outValid } = sampled e rest s' by
        rw [← h.pend, ← h.outValid]; rfl] at hcongr
    obtain ⟨p, v, ⟨rfl, hwaits⟩ | ⟨hrun, hruns⟩⟩ := clockEdge_pair hsampled hrst hedge
    · exact ⟨_, hwaits, h.congr e rest p v⟩
    · obtain ⟨t', hrun', ht'⟩ := alike_runPosition (h.congr e rest p v) rfl hrun
      exact ⟨t', hruns.trans hrun', ht'⟩

theorem alike_runSteps {k : Nat} {s s' t : State} (h : Alike s s') (hreset : noReset s.edges)
    (hrun : runSteps k s = .next t) : ∃ t', runSteps k s' = .next t' ∧ Alike t t' := by
  induction k generalizing s s' with
  | zero => cases hrun; exact ⟨s', rfl, h⟩
  | succ k ih =>
    obtain ⟨u, hstep, htail⟩ := runSteps_succ_next hrun
    obtain ⟨u', hstep', hu⟩ := alike_step h hreset hstep
    obtain ⟨t', hrun', ht⟩ := ih hu (noReset_step hreset hstep) htail
    exact ⟨t', (runSteps_succ_of_next k hstep').trans hrun', ht⟩

/-- Settles O58: two blocks in IDLE are alike, and every step keeps them alike. -/
theorem pastDoesNotShow : Obligations.PastDoesNotShow := by
  intro s s' t k hp hp' hedges hpend hvalid hin hin' hout hout' hreset hrun
  have hstart : Alike s s' := ⟨hp'.trans hp.symm, hedges.symm, hpend.symm, hvalid.symm, hin'.trans hin.symm,
    hout'.trans hout.symm, fun hne => absurd hp hne⟩
  obtain ⟨t', hrun', ht⟩ := alike_runSteps hstart hreset hrun
  exact ⟨t', hrun', ht.ph, ht.inLog, ht.outLog⟩

end Sys2Proof.Machine
end

section
/-! Liveness (70_reset_and_hazards.md R250, R255; 10_state.md R34): on an unending clock what waits for the block happens, and a
transaction whose host keeps its obligations ends. -/

namespace Sys2Proof.Machine

/-! ## The states after each edge -/

theorem afterEdges_inv {c : Clock} {s t : State} {k : Nat} (h : Inv s) (hk : afterEdges c s k = .next t) : Inv t :=
  afterEdges_induct h (fun j _ _ hu hedge => clockEdge_keeps_inv (inv_sampled (c j) [] hu) hedge) k t hk

/-- The state `t` is the one after `k` edges, `k` is past the last reset, and the block and the host keep the obligations that
make a wait end. -/
structure Running (c : Clock) (s : State) (k : Nat) (t : State) : Prop where
  inv : Inv s
  fair : WeaklyFair c s
  stable : HostStable c s
  noReset : ∀ m, k ≤ m → (c m).rst = false
  reached : afterEdges c s k = .next t

section
variable {c : Clock} {s t u : State} {k m : Nat}

theorem Running.later (h : Running c s k t) (hle : k ≤ m) (hm : afterEdges c s m = .next u) : Running c s m u :=
  ⟨h.inv, h.fair, h.stable, fun j hj => h.noReset j (hle.trans hj), hm⟩

theorem Running.core (h : Running c s k t) : CoreInv t := (afterEdges_inv h.inv h.reached).core

theorem Running.rst (h : Running c s k t) : (c k).rst = false := h.noReset k (le_refl k)

theorem Running.host (h : Running c s k t) : hostBreaks (c k) (sampled (c k) [] t) = false :=
  (h.stable k t h.reached).resolve_left (Bool.eq_false_iff.1 h.rst)

/-- What the host presented and the block did not take is on the pins again (R250.1). -/
theorem Running.presented {b : InBeat} (h : Running c s k t) (hb : t.pend = some b) :
    (c k).inValid = true ∧ (c k).beat = b := by
  have hhost := h.host
  rw [hostBreaks_sampled, hostBreaks, hb] at hhost
  simpa using hhost

/-- Every edge leaves a next state. -/
theorem Running.progress (h : Running c s k t) : ∃ u, clockEdge (c k) (sampled (c k) [] t) = .next u ∧
    Running c s (k + 1) u := by
  obtain ⟨u, hu⟩ := clockEdge_progress (.inr (inv_sampled (c k) [] (afterEdges_inv h.inv h.reached)).core) (.inr h.host)
  exact ⟨u, hu, h.later (Nat.le_succ k) ((afterEdges_succ h.reached).trans hu)⟩

/-! ## Waiting for the block -/

/-- An edge at which the block does not act and something waits for it changes the interface only. -/
theorem Running.waits (h : Running c s k t) (ha : awaitsBlock t = true) (hgo : (c k).go = false) :
    Running c s (k + 1) (keepPresented (c k) (sampled (c k) [] t)) := by
  refine h.later (Nat.le_succ k) ((afterEdges_succ h.reached).trans ?_)
  cases hin : acceptsInput t with
  | true =>
    rw [clockEdge_input (s := sampled (c k) [] t) h.rst h.host hin, inputEdge_waits _ (by rw [hgo, Bool.and_false])]
  | false =>
    cases hdue : beatDue t with
    | true =>
      have hvalid : t.outValid = false := ((awaitsBlock_iff t).1 ha).resolve_left (by rw [hdue]; decide)
      rw [clockEdge_output (s := sampled (c k) [] t) h.rst h.host hdue,
        outputEdge_waits (s := sampled (c k) [] t) (by rw [hgo, Bool.or_false]; exact hvalid)]
    | false =>
      rw [clockEdge_internal (s := sampled (c k) [] t) h.rst h.host hin hdue, internalEdge_waits _ hgo]

/-- `u` is `t` after waiting for the block: what the host had presented is still presented, and nothing more is offered. -/
def WaitedForBlock (t u : State) : Prop :=
  (∃ p e q, u = { t with pins := p, edges := e, pend := q }) ∧ ∀ b, t.pend = some b → u.pend = some b

/-- Weak fairness: the block acts after finitely many edges, by induction on the edges to the one that is promised. -/
theorem Running.acts (h : Running c s k t) (ha : awaitsBlock t = true) :
    ∃ m u, k ≤ m ∧ Running c s m u ∧ WaitedForBlock t u ∧ (c m).go = true := by
  obtain ⟨m, hle, hfair⟩ := h.fair k
  obtain ⟨d, rfl⟩ := Nat.exists_eq_add_of_le hle
  clear hle
  induction d generalizing k t with
  | zero =>
    rcases hfair with hgo | hrst | ⟨t', ht', ha'⟩
    · exact ⟨k, t, le_refl k, h, ⟨⟨t.pins, t.edges, t.pend, rfl⟩, fun _ => id⟩, hgo⟩
    · exact absurd (h.rst.symm.trans hrst) Bool.false_ne_true
    · cases h.reached.symm.trans ht'
      exact absurd (ha'.symm.trans ha) Bool.false_ne_true
  | succ d ih =>
    cases hgo : (c k).go with
    | true => exact ⟨k, t, le_refl k, h, ⟨⟨t.pins, t.edges, t.pend, rfl⟩, fun _ => id⟩, hgo⟩
    | false =>
      have hnext := h.waits ha hgo
      rw [Nat.add_comm d 1, ← Nat.add_assoc] at hfair
      obtain ⟨m, u, hle, hu, ⟨⟨p, e, q, rfl⟩, hpend⟩, hm⟩ := ih hnext ha hfair
      refine ⟨m, _, (Nat.le_succ k).trans hle, hu, ⟨⟨p, e, q, rfl⟩, fun b hb => hpend b ?_⟩, hm⟩
      obtain ⟨hvalid, hbeat⟩ := h.presented hb
      rw [← hbeat]
      exact if_pos hvalid

end

/-! ## Enabled steps (R255) -/

theorem sameEntries_self {t : State} (ha : acceptsInput t = false) : SameEntries t.ebuf t := by
  cases hp : t.ph with
  | idle => exact sameEntries_of_done (.inl hp)
  | encLoad => exact absurd ((acceptsInput_iff t).2 (.inr (.inl hp))) (Bool.eq_false_iff.1 ha)
  | decLoad => exact absurd ((acceptsInput_iff t).2 (.inr (.inr hp))) (Bool.eq_false_iff.1 ha)
  | encEmit => exact (sameEntries_emit (.inl hp)).2 fun _ _ => rfl
  | decEmit => exact (sameEntries_emit (.inr hp)).2 fun _ _ => rfl
  | report => exact sameEntries_of_done (.inr hp)

/-- An internal step leaves the same registers whatever the interface is. -/
theorem runPosition_waited {t u r : State} (h : CoreInv t) (ha : acceptsInput t = false) (hw : Waited t u)
    (hrun : runPosition t = .next r) : ∃ v, runPosition u = .next v ∧ Waited r v := by
  obtain ⟨hrun', -⟩ := runPosition_recast u h ha (sameEntries_self ha) hrun
  have hu : u = recast t.ebuf u t := by
    conv_lhs => rw [hw]
    rw [hw]
    rfl
  refine ⟨recast t.ebuf u r, hu ▸ hrun', ?_⟩
  have hframe := runPosition_frame ha hrun
  have hebuf : t.ebuf = r.ebuf := by rw [hframe]
  have hunit : u.unitOut = r.unitOut := by rw [hw, hframe]
  rw [Waited, recast, hebuf, hunit]

/-- Settles O59: the block acts after finitely many edges, and until then only the interface changes. -/
theorem enabledStepsHappen : Obligations.EnabledStepsHappen := by
  intro c s t n hinv hfair hstable hreset hn
  have hrunning : Running c s n t := ⟨hinv, hfair, hstable, hreset, hn⟩
  refine ⟨fun ha => ?input, fun hdue => ?output, fun ha hdue => ?internal⟩
  case input =>
    obtain ⟨m, u, hle, hu, hw, hgo⟩ := hrunning.acts ((awaitsBlock_iff t).2 (.inl (beatDue_of_acceptsInput ha)))
    obtain ⟨⟨p, e, q, rfl⟩, -⟩ := hw
    refine ⟨m, _, hle, hu.reached, rfl, ?_⟩
    rw [inReady, hgo, hu.rst]
    exact congrArg (fun x => x && true && true) ha
  case output =>
    cases hvalid : t.outValid with
    | true => exact ⟨n, t, le_refl n, hn, rfl, by rw [outValidAt, hdue, hvalid, hrunning.rst]; rfl⟩
    | false =>
      obtain ⟨m, u, hle, hu, hw, hgo⟩ := hrunning.acts ((awaitsBlock_iff t).2 (.inr hvalid))
      obtain ⟨⟨p, e, q, rfl⟩, -⟩ := hw
      refine ⟨m, _, hle, hu.reached, rfl, ?_⟩
      rw [outValidAt, hgo, hu.rst, Bool.or_true]
      exact congrArg (fun x => x && true && true) hdue
  case internal =>
    obtain ⟨m, u, hle, hu, hw, hgo⟩ := hrunning.acts ((awaitsBlock_iff t).2 (.inl hdue))
    obtain ⟨⟨p, e, q, rfl⟩, -⟩ := hw
    obtain ⟨r, hr⟩ := runPosition_progress (.inr hrunning.core)
    obtain ⟨v, hv, hrv⟩ := runPosition_waited
      (u := keepPresented (c m) (sampled (c m) [] { t with pins := p, edges := e, pend := q }))
      hrunning.core ha rfl hr
    refine ⟨m, v, r, hle, hr, ?_, hrv⟩
    rw [afterEdges_succ hu.reached, clockEdge_internal hu.rst hu.host ha hdue, internalEdge_go _ hgo, hv]

/-! ## Sending to the end (R250.4) -/

section
variable {c : Clock} {s t u : State} {k m : Nat}

/-- The position runs at the edge `m` on the registers of `t`, and what it leaves is one step less to send. -/
def Sent (c : Clock) (s : State) (k : Nat) (t : State) : Prop :=
  ∃ m w, k < m ∧ Running c s m w ∧ Drained t w

theorem Sent.mono (h : Sent c s m t) (hle : k ≤ m) : Sent c s k t := by
  obtain ⟨j, w, hlt, hw, hd⟩ := h
  exact ⟨j, w, hle.trans_lt hlt, hw, hd⟩

/-- An edge that runs the position sends. -/
theorem Running.sent {p : Option InBeat} {v : Bool} (h : Running c s k t) (ha : acceptsInput t = false)
    (hedge : clockEdge (c k) (sampled (c k) [] t) =
      runPosition { sampled (c k) [] t with pend := p, outValid := v }) : Sent c s k t := by
  have hcore : CoreInv { sampled (c k) [] t with pend := p, outValid := v } :=
    ⟨h.core.nacc, h.core.room, h.core.status, h.core.phase⟩
  obtain ⟨w, hw⟩ := runPosition_progress (.inr hcore)
  obtain ⟨hdraining, hbeats, hsteps⟩ := drained_of_runPosition hcore ha hw
  exact ⟨k + 1, w, Nat.lt_succ_self k,
    h.later (Nat.le_succ k) ((afterEdges_succ h.reached).trans (hedge.trans hw)), hdraining, hbeats, hsteps⟩

/-- An offered beat stays offered until the host takes it, by induction on the edges to the one where it does. -/
theorem Running.offered_sent (h : Running c s k t) (hdue : beatDue t = true) (hvalid : (t.outValid || (c k).go) = true)
    (hle : k ≤ m) (hready : (c m).outReady = true) : Sent c s k t := by
  have ha : acceptsInput t = false := not_acceptsInput_of_beatDue hdue
  obtain ⟨d, rfl⟩ := Nat.exists_eq_add_of_le hle
  clear hle
  induction d generalizing k t with
  | zero =>
    exact h.sent ha ((clockEdge_output (s := sampled (c k) [] t) h.rst h.host hdue).trans (outputEdge_given hvalid hready))
  | succ d ih =>
    have hedge := clockEdge_output (s := sampled (c k) [] t) h.rst h.host hdue
    cases hr : (c k).outReady with
    | true => exact h.sent ha (hedge.trans (outputEdge_given hvalid hr))
    | false =>
      have hnext : Running c s (k + 1) { keepPresented (c k) (sampled (c k) [] t) with outValid := true } :=
        h.later (Nat.le_succ k) ((afterEdges_succ h.reached).trans (hedge.trans (outputEdge_offered hvalid hr)))
      rw [Nat.add_comm d 1, ← Nat.add_assoc] at hready
      obtain ⟨j, w, hlt, hw, hdraining, hbeats, hsteps⟩ := ih hnext hdue (Bool.true_or _) ha hready
      exact ⟨j, w, (Nat.le_succ k).trans_lt hlt, hw, hdraining, hbeats, hsteps⟩

/-- The next step of an emit phase or REPORT happens. -/
theorem Running.sends (h : Running c s k t) (hdrains : HostDrains c s) (ha : acceptsInput t = false) : Sent c s k t := by
  cases hdue : beatDue t with
  | true =>
    cases hvalid : t.outValid with
    | true =>
      have hat : outValidAt (c k) t = true := by rw [outValidAt, hdue, hvalid, h.rst]; rfl
      obtain ⟨m, hle, hready⟩ := hdrains k t h.reached hat
      exact h.offered_sent hdue (by rw [hvalid, Bool.true_or]) hle hready
    | false =>
      obtain ⟨j, u, hle, hu, ⟨⟨p, e, q, rfl⟩, -⟩, hgo⟩ := h.acts ((awaitsBlock_iff t).2 (.inr hvalid))
      obtain ⟨m, hle', hready⟩ := hdrains j _ hu.reached (outValidAt_of_go hdue hu.rst hgo)
      obtain ⟨i, w, hlt, hw, hdraining, hbeats, hsteps⟩ :=
        hu.offered_sent hdue (by rw [hgo, Bool.or_true]) hle' hready
      exact ⟨i, w, hle.trans_lt hlt, hw, hdraining, hbeats, hsteps⟩
  | false =>
    obtain ⟨j, u, hle, hu, ⟨⟨p, e, q, rfl⟩, -⟩, hgo⟩ := h.acts ((awaitsBlock_iff t).2 (.inl hdue))
    have hedge := (clockEdge_internal hu.rst hu.host ha hdue).trans (internalEdge_go _ hgo)
    obtain ⟨i, w, hlt, hw, hdraining, hbeats, hsteps⟩ := hu.sent ha hedge
    exact ⟨i, w, hle.trans_lt hlt, hw, hdraining, hbeats, hsteps⟩

/-- The last beat owed is the end beat. -/
theorem owed_last (ha : acceptsInput t = false) : ∃ l, owed t = l ++ [endBeat t] := by
  cases hp : t.ph with
  | idle => exact absurd ((acceptsInput_iff t).2 (.inl hp)) (Bool.eq_false_iff.1 ha)
  | encLoad => exact absurd ((acceptsInput_iff t).2 (.inr (.inl hp))) (Bool.eq_false_iff.1 ha)
  | decLoad => exact absurd ((acceptsInput_iff t).2 (.inr (.inr hp))) (Bool.eq_false_iff.1 ha)
  | encEmit => exact ⟨_, owed_encEmit hp⟩
  | decEmit => exact ⟨_, owed_decEmit hp⟩
  | report => exact ⟨[], owed_report hp⟩

/-- The transaction of the block is over: it is in IDLE and the last output beat is an end beat. -/
def Ended (u : State) : Prop := u.ph = .idle ∧ ∃ o, u.outLog.getLast? = some o ∧ o.fin = true

/-- Sending ends, by induction on the steps left. -/
theorem Running.ends_of_sending (h : Running c s k t) (hdrains : HostDrains c s) (ha : acceptsInput t = false) :
    ∃ m u, k < m ∧ Running c s m u ∧ Ended u := by
  induction hn : stepsLeft t generalizing k t with
  | zero => exact absurd (stepsLeft_pos h.core ha) (by omega)
  | succ n ih =>
    obtain ⟨m, w, hlt, hw, hdraining, hbeats, hsteps⟩ := h.sends hdrains ha
    rcases hdraining with hp | ⟨-, ha'⟩
    · obtain ⟨l, hl⟩ := owed_last ha
      rw [owed_idle hp, List.append_nil, hl, ← List.append_assoc] at hbeats
      exact ⟨m, w, hlt, hw, hp, endBeat t, by rw [hbeats, List.getLast?_concat], rfl⟩
    · obtain ⟨m', u, hlt', hu, hended⟩ := ih hw ha' (by omega)
      exact ⟨m', u, hlt.trans hlt', hu, hended⟩

/-! ## Loading to the end (R250.3) -/

/-- The end beat leaves the load phase. -/
theorem acceptsInput_of_endBeat {b : InBeat} {s t : State} (hp : s.ph = .encLoad ∨ s.ph = .decLoad) (hfin : b.fin = true)
    (hbeat : loadBeat b s = .next t) : acceptsInput t = false := by
  rcases hp with hp | hp
  · rw [loadBeat_encLoad hp, hfin, if_pos rfl] at hbeat
    cases hbeat
    rcases encLoadEnd_cases s with ⟨-, he⟩ | ⟨-, -, he⟩ | ⟨-, -, he⟩ <;> rw [he] <;> rfl
  · rw [loadBeat_decLoad hp, hfin, if_pos rfl] at hbeat
    cases hbeat
    rcases decLoadEnd_cases s with ⟨-, he⟩ | ⟨-, -, he⟩ | ⟨-, -, he⟩ | ⟨-, -, -, he⟩ <;> rw [he] <;> rfl

/-- A load phase is left by the end beat only. -/
theorem load_or_sends_of_loadBeat {b : InBeat} {s t : State} (hp : s.ph = .encLoad ∨ s.ph = .decLoad)
    (hbeat : loadBeat b s = .next t) : (t.ph = .encLoad ∨ t.ph = .decLoad) ∨ acceptsInput t = false := by
  cases hfin : b.fin with
  | true => exact .inr (acceptsInput_of_endBeat hp hfin hbeat)
  | false =>
    refine .inl ?_
    rcases hp with hp | hp
    · rw [loadBeat_encLoad hp, hfin, if_neg Bool.false_ne_true] at hbeat
      cases hbeat
      exact .inl ((encLoadData_ph _ _).trans hp)
    · rw [loadBeat_decLoad hp, hfin, if_neg Bool.false_ne_true] at hbeat
      exact .inr ((decLoadData_ph hbeat).trans hp)

theorem acceptsInput_load (hp : t.ph = .encLoad ∨ t.ph = .decLoad) : acceptsInput t = true :=
  (acceptsInput_iff t).2 (.inr hp)

/-- A beat presented at an edge at which the block acts goes to the load phase. -/
theorem Running.loads (h : Running c s k t) (hp : t.ph = .encLoad ∨ t.ph = .decLoad) (hvalid : (c k).inValid = true)
    (hgo : (c k).go = true) : ∃ t' u, (t'.ph = .encLoad ∨ t'.ph = .decLoad) ∧ loadBeat (c k).beat t' = .next u ∧
      Running c s (k + 1) u := by
  obtain ⟨u, hedge, hu⟩ := h.progress
  rw [clockEdge_input (s := sampled (c k) [] t) h.rst h.host (acceptsInput_load hp), inputEdge_taken _ hvalid hgo,
    runPosition_load (s := { sampled (c k) [] t with pend := none }) hp,
    inputBeat_load (s := { sampled (c k) [] t with pend := none }) hp] at hedge
  exact ⟨logIn (c k).beat { sampled (c k) [] t with pend := none }, u, hp, hedge, hu⟩

/-- An end beat that waits is taken when the block acts: the host keeps presenting it. -/
theorem Running.endBeat_taken {b : InBeat} (h : Running c s k t) (hp : t.ph = .encLoad ∨ t.ph = .decLoad)
    (hb : t.pend = some b) (hfin : b.fin = true) : ∃ m u, k < m ∧ Running c s m u ∧ acceptsInput u = false := by
  obtain ⟨m, u, hle, hu, ⟨⟨p, e, q, rfl⟩, hpend⟩, hgo⟩ :=
    h.acts ((awaitsBlock_iff t).2 (.inl (beatDue_of_acceptsInput (acceptsInput_load hp))))
  obtain ⟨hvalid, hbeat⟩ := hu.presented (hpend b hb)
  obtain ⟨t', w, hp', hload, hw⟩ := hu.loads hp hvalid hgo
  exact ⟨m + 1, w, Nat.lt_succ_of_le hle, hw, acceptsInput_of_endBeat hp' (hbeat.symm ▸ hfin) hload⟩

/-- In a load phase an edge takes a beat or leaves the phase as it is. -/
theorem Running.load_step (h : Running c s k t) (hp : t.ph = .encLoad ∨ t.ph = .decLoad) :
    ∃ u, Running c s (k + 1) u ∧ ((u.ph = .encLoad ∨ u.ph = .decLoad) ∨ acceptsInput u = false) := by
  cases hmove : (c k).inValid && (c k).go with
  | true =>
    obtain ⟨hvalid, hgo⟩ := Bool.and_eq_true_iff.1 hmove
    obtain ⟨t', u, hp', hload, hu⟩ := h.loads hp hvalid hgo
    exact ⟨u, hu, load_or_sends_of_loadBeat hp' hload⟩
  | false =>
    have hedge := (clockEdge_input (s := sampled (c k) [] t) h.rst h.host (acceptsInput_load hp)).trans
      (inputEdge_waits _ hmove)
    exact ⟨_, h.later (Nat.le_succ k) ((afterEdges_succ h.reached).trans hedge), .inl hp⟩

/-- A load phase is left, by induction on the edges to the one at which the end beat is presented. -/
theorem Running.load_ends (h : Running c s k t) (hp : t.ph = .encLoad ∨ t.ph = .decLoad) (hle : k ≤ m)
    (hvalid : (c m).inValid = true) (hend : (c m).inEnd = true) :
    ∃ j u, k < j ∧ Running c s j u ∧ acceptsInput u = false := by
  obtain ⟨d, rfl⟩ := Nat.exists_eq_add_of_le hle
  clear hle
  induction d generalizing k t with
  | zero =>
    cases hgo : (c k).go with
    | true =>
      obtain ⟨t', u, hp', hload, hu⟩ := h.loads hp hvalid hgo
      exact ⟨k + 1, u, Nat.lt_succ_self k, hu, acceptsInput_of_endBeat hp' hend hload⟩
    | false =>
      have hnext := h.waits ((awaitsBlock_iff t).2 (.inl (beatDue_of_acceptsInput (acceptsInput_load hp)))) hgo
      have hpend : (keepPresented (c k) (sampled (c k) [] t)).pend = some (c k).beat := if_pos hvalid
      obtain ⟨m, u, hlt, hu, ha⟩ := hnext.endBeat_taken hp hpend hend
      exact ⟨m, u, (Nat.le_succ k).trans_lt hlt, hu, ha⟩
  | succ d ih =>
    obtain ⟨u, hu, hp' | ha⟩ := h.load_step hp
    · rw [Nat.add_comm d 1, ← Nat.add_assoc] at hvalid hend
      obtain ⟨j, w, hlt, hw, ha⟩ := ih hu hp' hvalid hend
      exact ⟨j, w, (Nat.le_succ k).trans_lt hlt, hw, ha⟩
    · exact ⟨k + 1, u, Nat.lt_succ_self k, hu, ha⟩

end

/-- Settles O60: a load phase is left when the end beat comes, and what is owed then is sent step by step. -/
theorem fairTransactionsEnd : Obligations.FairTransactionsEnd := by
  intro c s t n hinv hfair hstable hcompletes hdrains hreset hn hbusy
  have hrunning : Running c s n t := ⟨hinv, hfair, hstable, hreset, hn⟩
  suffices hends : ∃ m u, n < m ∧ Running c s m u ∧ Ended u by
    obtain ⟨m, u, hlt, hu, hidle, hlast⟩ := hends
    exact ⟨m, u, hlt, hu.reached, hidle, hlast⟩
  cases ha : acceptsInput t with
  | false => exact hrunning.ends_of_sending hdrains ha
  | true =>
    have hp := ((acceptsInput_iff t).1 ha).resolve_left hbusy
    obtain ⟨m, hle, hvalid, hend⟩ := hcompletes n t hn hp
    obtain ⟨j, u, hlt, hu, ha'⟩ := hrunning.load_ends hp hle hvalid hend
    obtain ⟨i, w, hlt', hw, hended⟩ := hu.ends_of_sending hdrains ha'
    exact ⟨i, w, hlt.trans hlt', hw, hended⟩

end Sys2Proof.Machine
end
